-- ==== Sys2Proof/Word.lean ====
section
/-! DEFINITION. The word types of the block: bytes of MEM and symbols (8 bits), node indices (16 bits),
command words and host registers (32 bits), counts and weights (64 bits) (00_scope.md rule R9). -/

namespace Sys2Proof

/-- A byte of MEM, and a symbol 0..255 (R9, R17). -/
abbrev Byte := BitVec 8

/-- An index into the node arena (R9: NODE_CAP, 16-bit indices). -/
abbrev NodeIndex := BitVec 16

/-- A command word, a host register, an address or a length (R9: CMD_W, ADDR_W). -/
abbrev Word := BitVec 32

/-- A count, a weight, ARG or a result register (R9: COUNT_W). -/
abbrev DWord := BitVec 64

end Sys2Proof
end

