-- ==== Sys2Proof/Syntax.lean ====
section
/-! DEFINITION. The 21 commands of the opcode map (30_encoding.md rule R82), one constructor per row of
spec/opcode_table.json, in the table's order. An operand has the width of the field that carries it (R80):
A is 8 bits, N is 16 bits. Every wider operand comes from a register (R81) and is no part of the command. -/

namespace Sys2Proof

/-- A command with its operand fields (R82). -/
inductive Instr where
  | nop
  | ftClear
  | ftRecord (sym : Byte)
  | ftWrite (sym : Byte)
  | ftRead (sym : Byte)
  | ftScan
  | pqClear
  | pqPush (node : NodeIndex)
  | pqPop
  | treeBuild
  | nodeRead (index : NodeIndex)
  | cbGen
  | cbRead (sym : Byte) (chunk : BitVec 16)
  | bpInit
  | bpPush (bit : Byte)
  | bpFinish
  | brInit
  | brNext
  | encRun
  | decRun
  | reset
deriving DecidableEq, Repr

end Sys2Proof
end

