-- ==== Sys2Proof/WellFormed.lean ====
section
/-! DEFINITION. Which commands are legal (30_encoding.md rule R84): the operand ranges (c) and (d). The rules
(a) and (b), that an unused field is zero, are about the word and stand in Decode.lean: a term of Instr has no
unused field. -/

namespace Sys2Proof

/-- The operand ranges of R84: (c) A <= 1 for BP_PUSH, (d) N <= 3 for CB_READ. Every other operand value is legal. -/
def Instr.wellFormed : Instr → Bool
  | .bpPush bit => bit.toNat ≤ 1
  | .cbRead _ chunk => chunk.toNat ≤ 3
  | .nop | .ftClear | .ftRecord _ | .ftWrite _ | .ftRead _ | .ftScan => true
  | .pqClear | .pqPush _ | .pqPop => true
  | .treeBuild | .nodeRead _ => true
  | .cbGen => true
  | .bpInit | .bpFinish | .brInit | .brNext => true
  | .encRun | .decRun | .reset => true

/-- A command whose operands are in their legal ranges (R84). -/
abbrev Instr.WellFormed (i : Instr) : Prop := i.wellFormed = true

end Sys2Proof
end

