-- ==== Sys2Proof/Decode.lean ====
section
/-! DEFINITION. The decoder and the encoder of command words (30_encoding.md rules R80 to R85).
Decoding is total: every 32-bit word is either exactly one command with legal fields, or illegal under a name. -/

namespace Sys2Proof

/-- Why a word is no command. Both complete with ILLEGAL_COMMAND (R83, R84), so neither stops the machine: safe. -/
inductive DecodeError where
  /-- The opcode is one of the 235 reserved ones (R83). -/
  | reservedOpcode (opc : Byte)
  /-- The opcode is defined and a field is outside its legal values (R84). -/
  | fieldCheck (opc : Byte)
deriving DecidableEq, Repr

/-- OPC, bits 31:24 of the word (R80). -/
def cmdOpc (w : Word) : Byte := w.extractLsb' 24 8

/-- A, bits 23:16 of the word (R80). -/
def cmdA (w : Word) : Byte := w.extractLsb' 16 8

/-- N, bits 15:0 of the word (R80). -/
def cmdN (w : Word) : BitVec 16 := w.extractLsb' 0 16

/-- The opcode map, read from opcode to command, with the fields A and N as the row's operands (R82). -/
def selectRow (opc a : Byte) (n : BitVec 16) : Option Instr :=
  match opc with
  | 0x00#8 => some .nop
  | 0x10#8 => some .ftClear
  | 0x11#8 => some (.ftRecord a)
  | 0x12#8 => some (.ftWrite a)
  | 0x13#8 => some (.ftRead a)
  | 0x14#8 => some .ftScan
  | 0x20#8 => some .pqClear
  | 0x21#8 => some (.pqPush n)
  | 0x22#8 => some .pqPop
  | 0x30#8 => some .treeBuild
  | 0x31#8 => some (.nodeRead n)
  | 0x40#8 => some .cbGen
  | 0x41#8 => some (.cbRead a n)
  | 0x50#8 => some .bpInit
  | 0x51#8 => some (.bpPush a)
  | 0x52#8 => some .bpFinish
  | 0x60#8 => some .brInit
  | 0x61#8 => some .brNext
  | 0x70#8 => some .encRun
  | 0x80#8 => some .decRun
  | 0xFF#8 => some .reset
  | _ => none

/-- The command's row names an operand in column A of R82. -/
def Instr.usesA : Instr → Bool
  | .ftRecord _ | .ftWrite _ | .ftRead _ | .cbRead _ _ | .bpPush _ => true
  | .nop | .ftClear | .ftScan | .pqClear | .pqPush _ | .pqPop | .treeBuild | .nodeRead _ | .cbGen => false
  | .bpInit | .bpFinish | .brInit | .brNext | .encRun | .decRun | .reset => false

/-- The command's row names an operand in column N of R82. -/
def Instr.usesN : Instr → Bool
  | .pqPush _ | .nodeRead _ | .cbRead _ _ => true
  | .nop | .ftClear | .ftRecord _ | .ftWrite _ | .ftRead _ | .ftScan | .pqClear | .pqPop | .treeBuild => false
  | .cbGen | .bpInit | .bpPush _ | .bpFinish | .brInit | .brNext | .encRun | .decRun | .reset => false

/-- The field check of R84: an unused field is zero (a, b) and the operands are in range (c, d). -/
def fieldCheck (i : Instr) (a : Byte) (n : BitVec 16) : Bool :=
  (i.usesA || a == 0) && (i.usesN || n == 0) && i.wellFormed

/-- The decoder (R85). -/
def decode (w : Word) : Except DecodeError Instr :=
  match selectRow (cmdOpc w) (cmdA w) (cmdN w) with
  | none => .error (.reservedOpcode (cmdOpc w))
  | some i => if fieldCheck i (cmdA w) (cmdN w) then .ok i else .error (.fieldCheck (cmdOpc w))

/-- The command's opcode (R82). -/
def Instr.opcode : Instr → Byte
  | .nop => 0x00
  | .ftClear => 0x10
  | .ftRecord _ => 0x11
  | .ftWrite _ => 0x12
  | .ftRead _ => 0x13
  | .ftScan => 0x14
  | .pqClear => 0x20
  | .pqPush _ => 0x21
  | .pqPop => 0x22
  | .treeBuild => 0x30
  | .nodeRead _ => 0x31
  | .cbGen => 0x40
  | .cbRead _ _ => 0x41
  | .bpInit => 0x50
  | .bpPush _ => 0x51
  | .bpFinish => 0x52
  | .brInit => 0x60
  | .brNext => 0x61
  | .encRun => 0x70
  | .decRun => 0x80
  | .reset => 0xFF

/-- The command's field A, zero where R82's column is "0". -/
def Instr.fieldA : Instr → Byte
  | .ftRecord sym | .ftWrite sym | .ftRead sym | .cbRead sym _ => sym
  | .bpPush bit => bit
  | .nop | .ftClear | .ftScan | .pqClear | .pqPush _ | .pqPop | .treeBuild | .nodeRead _ | .cbGen => 0
  | .bpInit | .bpFinish | .brInit | .brNext | .encRun | .decRun | .reset => 0

/-- The command's field N, zero where R82's column is "0". -/
def Instr.fieldN : Instr → BitVec 16
  | .pqPush node => node
  | .nodeRead index => index
  | .cbRead _ chunk => chunk
  | .nop | .ftClear | .ftRecord _ | .ftWrite _ | .ftRead _ | .ftScan | .pqClear | .pqPop | .treeBuild => 0
  | .cbGen | .bpInit | .bpPush _ | .bpFinish | .brInit | .brNext | .encRun | .decRun | .reset => 0

/-- The assembled word {OPC, A, N} (R80, R86). -/
def encode (i : Instr) : Word := (i.opcode ++ i.fieldA) ++ i.fieldN

/-- The command the decoder reads from a word whose bits are `w`, bit 0 the least significant (R80). A command is
exactly 32 bits (R85): with fewer given the bits above are zero, and a longer word is none (log entry 22). -/
def decodeTableWord (nbits w : Nat) : Option Instr :=
  if 32 < nbits then none
  else (decode (BitVec.ofNat 32 (w % 2 ^ nbits))).toOption

end Sys2Proof
end

