-- ==== Sys2Proof/Config.lean ====
section
/-! DEFINITION. What an implementation fixes (00_scope.md rule R10), and the model's free values.

MEM_BYTES is the parameter `Config.memBytes`. MEM_INIT is the memory a power-on starts from, the argument of
`State.powerOn` (Machine/State.lean). CYCLES is not a number here: which host moves fall into a BUSY window is
plain data in `State.host` (log entry 1). -/

namespace Sys2Proof

/-- The fixed parameters of one implementation. `memTop` is the highest address of MEM, so that every value of
the field is a legal MEM_BYTES, 1 <= MEM_BYTES <= 2^32 (R10, 20_memory.md R60). DESIGN CHOICE: the parameter
is carried in the state, so that a statement about every state holds for every MEM_BYTES (log entry 3, safe). -/
structure Config where
  memTop : Word
deriving DecidableEq, Repr

/-- MEM_BYTES, the size of MEM in bytes (R10). -/
def Config.memBytes (c : Config) : Nat := c.memTop.toNat + 1

/-- The implementation with MEM_BYTES = 4096 that 95_test_vectors.md assumes ("Unless a vector says otherwise").
DESIGN CHOICE: the one `State.reset` uses (log entry 3). -/
def Config.testVectors : Config := { memTop := 4095 }

/-- FREE VALUE: what a 32-bit base register holds when the address it is given is 2^32 or more. No rule states it:
00_scope.md R11 says no rule stores a value that does not fit, and yet 47_encoder.md R244 and 48_decoder.md R268
give BP_BASE and BR_BASE the payload's address, which is 2^32 when MEM_BYTES = 2^32 and an empty payload stands at
the very end of MEM (log entry 12, safe). -/
opaque Config.unfitAddress : Nat → Word

end Sys2Proof
end

