-- ==== Sys2Proof/Machine/State.lean ====
section
/-! DEFINITION. The architectural state of one block instance (10_state.md rule R20), the reasons a step can
stop, and the state after reset (70_reset_and_hazards.md rule R342).

Four fields are the model's own and not the spec's: `cfg` (the parameter MEM_BYTES), `host` (the moves the outside
is still going to make), `replies` (what host reads returned) and `rst` (the level of the reset pin). -/

namespace Sys2Proof.Machine

/-- The result codes of STATUS.ERR (60_exceptions.md rule R305), in the order of their codes. Codes 13 to 15 are
never produced and have no constructor; `unknownSymbol` is never produced either (R308). -/
inductive ErrCode where
  | ok
  | malformedTable
  | truncatedPayload
  | unknownSymbol
  | undecodable
  | illegalCommand
  | addrRange
  | regionOverlap
  | outputOverflow
  | pqFull
  | pqEmpty
  | weightOverflow
  | badIndex
deriving DecidableEq, Repr

/-- An allocated record of the node arena (10_state.md R27). Leaf and Internal are told apart by structure, as the
rule asks; a missing child is `none` (hasL or hasR = 0, the index then reads 0). DEDUCED, log entry 10. -/
inductive Node where
  | leaf (sym : Byte) (weight : DWord)
  | internal (weight : DWord) (left right : Option NodeIndex)
deriving DecidableEq, Repr

/-- An entry of the priority queue (10_state.md R30). -/
structure PqEntry where
  weight : DWord
  seq    : Word
  node   : NodeIndex
deriving DecidableEq, Repr

/-- CB_VALID, CB_LEN and CB_BITS of one symbol (10_state.md R32). -/
structure CbEntry where
  valid : Bool
  len   : Byte
  bits  : BitVec 256
deriving DecidableEq, Repr

/-- FREQ[0..255] (10_state.md R26). -/
abbrev FreqTable := Vector DWord 256

/-- The codebook, one entry per symbol (10_state.md R32). -/
abbrev Codebook := Vector CbEntry 256

/-- MEM (20_memory.md R60): the cells that differ from what an unlisted address reads as, addresses rising. -/
abbrev Memory := List Host.Cell

/-- How wide a host access of the register window is (10_state.md R25(a)). -/
inductive AccessWidth where
  | byte
  | half
  | word
deriving DecidableEq, Repr

/-- One move of the outside: a host register access (10_state.md R25), a host MEM access (20_memory.md R62), or a
change of the reset pin (70_reset_and_hazards.md R340). A move the spec does not admit can be written here; the
step refuses it by name. -/
inductive HostMove where
  | readReg (width : AccessWidth) (offset : Nat)
  | writeReg (width : AccessWidth) (offset : Nat) (value : Word)
  | readMem (address : Nat)
  | writeMem (address : Nat) (value : Byte)
  | rst (asserted : Bool)
deriving DecidableEq, Repr

/-- A move with its place in the total order of events (20_memory.md R71): `inBusy` says that the move happens
inside the BUSY window when one is open at its turn, and otherwise it waits for the completion. With no window open
the mark says nothing. DESIGN CHOICE, log entry 1. -/
structure HostEvent where
  move   : HostMove
  inBusy : Bool
deriving DecidableEq, Repr

/-- What a host read returned (10_state.md R25, 20_memory.md R62). -/
inductive HostReply where
  | reg (value : Word)
  | byte (value : Byte)
deriving DecidableEq, Repr

/-- The state of one block instance (10_state.md R20). -/
structure State where
  /-- Model's own: the parameter MEM_BYTES (00_scope.md R10). No step changes it. -/
  cfg       : Config
  /-- Model's own: the moves still to come from the host and the reset pin, first one first. -/
  host      : List HostEvent
  /-- Model's own: the values host reads returned, newest first. -/
  replies   : List HostReply
  /-- Model's own: the reset pin is asserted. -/
  rst       : Bool
  /-- SRC_ADDR (R21). -/
  srcAddr   : Word
  /-- SRC_LEN (R21). -/
  srcLen    : Word
  /-- DST_ADDR (R21). -/
  dstAddr   : Word
  /-- DST_CAP (R21). -/
  dstCap    : Word
  /-- ARG (R21). -/
  arg       : DWord
  /-- RES0 (R21). -/
  res0      : DWord
  /-- RES1 (R21). -/
  res1      : DWord
  /-- OUT_LEN (R21). -/
  outLen    : Word
  /-- STATUS.OVR (R24). -/
  ovr       : Bool
  /-- STATUS.EXH (R24). -/
  exh       : Bool
  /-- STATUS.BIT (R24). -/
  bit       : Bool
  /-- STATUS.ERR (R24, 60_exceptions.md R305). -/
  err       : ErrCode
  /-- PENDING (R35). STATUS.BUSY is 1 exactly while it holds a word (R23, R35; log entry 6). -/
  pending   : Option Word
  /-- FREQ[0..255] (R26). -/
  freq      : FreqTable
  /-- NODE[0..NCOUNT-1] (R27); NCOUNT is the number of allocated records (log entry 7). -/
  nodes     : List Node
  /-- ROOT (R27). -/
  root      : NodeIndex
  /-- ROOT_VALID (R27). -/
  rootValid : Bool
  /-- The queue's entries in push order (R30, R31); PQ_COUNT is their number (log entry 8). -/
  queue     : List PqEntry
  /-- PQ_SEQ (R30). -/
  pqSeq     : Word
  /-- CB_VALID, CB_LEN, CB_BITS (R32). -/
  codebook  : Codebook
  /-- BP_BASE (R33). -/
  bpBase    : Word
  /-- BP_CAP (R33). -/
  bpCap     : Word
  /-- BP_BITCNT (R33). -/
  bpBitcnt  : DWord
  /-- BR_BASE (R34). -/
  brBase    : Word
  /-- BR_BYTES (R34). -/
  brBytes   : Word
  /-- BR_LIMIT (R34). -/
  brLimit   : DWord
  /-- BR_POS (R34). -/
  brPos     : DWord
  /-- MEM (20_memory.md R60). -/
  mem       : Memory
deriving DecidableEq, Repr

/-- Why the machine stops. No state that `State.Inv` (Safety.lean) admits reaches one of these, State.reset among
them; the block itself has no traps (60_exceptions.md R303). -/
inductive Fault where
  /-- ENC_RUN met a source byte with no code. 47_encoder.md R247 and 60_exceptions.md R308 ask a model to treat
  this as a fault; the rules say it cannot happen. Raised by ENC_RUN. Safe. -/
  | unknownSymbol
  /-- A walk of the arena met an index with no allocated record, or a path longer than 255 (10_state.md R28, R29
  say neither exists). Raised by CB_GEN, and by ENC_RUN's codebook step. Safe. -/
  | arenaBroken
  /-- A packer or reader access at or beyond MEM_BYTES (10_state.md R33, R34 and 20_memory.md R63 say there is none).
  Raised by BP_PUSH and BR_NEXT. Safe. -/
  | memOutOfRange
deriving DecidableEq, Repr

/-- Why a step is not admitted. -/
inductive Refusal where
  /-- The dispatcher, for an instruction without a meaning. No arm uses it: every command has its meaning. Safe. -/
  | notModelled (mnemonic : String)
  /-- A host register access that is not an aligned 32-bit word at offset 0x00..0xFC (10_state.md R25(a)).
  Raised by the host port. Safe: the spec admits no such move. -/
  | registerAccessForm
  /-- A host MEM access at an address >= MEM_BYTES (20_memory.md R62). Raised by the host port. Safe: the spec
  admits no such move. -/
  | memoryAddress
  /-- A host access while the reset input is asserted (70_reset_and_hazards.md R340). Raised by the host port.
  Safe: the spec admits no such move. -/
  | accessInReset
deriving DecidableEq, Repr

/-- The codebook with no codes (44_codebook.md R181). -/
def emptyCodebook : Codebook :=
  Vector.replicate 256 { valid := false, len := 0, bits := 0 }

/-- The block right after reset (70_reset_and_hazards.md R342), for an implementation, the contents of MEM and the
moves to come. At power-on `mem` is MEM_INIT, any contents at all (R341; log entry 2). -/
def State.powerOn (cfg : Config) (mem : Memory) (host : List HostEvent) : State where
  cfg       := cfg
  host      := host
  replies   := []
  rst       := false
  srcAddr   := 0
  srcLen    := 0
  dstAddr   := 0
  dstCap    := 0
  arg       := 0
  res0      := 0
  res1      := 0
  outLen    := 0
  ovr       := false
  exh       := false
  bit       := false
  err       := .ok
  pending   := none
  freq      := Vector.replicate 256 0
  nodes     := []
  root      := 0
  rootValid := false
  queue     := []
  pqSeq     := 0
  codebook  := emptyCodebook
  bpBase    := 0
  bpCap     := 0
  bpBitcnt  := 0
  brBase    := 0
  brBytes   := 0
  brLimit   := 0
  brPos     := 0
  mem       := mem

/-- The machine right after reset (70_reset_and_hazards.md R342), with MEM_BYTES = 4096, nothing listed in MEM and
no move to come (DESIGN CHOICE, log entries 2, 3, 4). -/
def State.reset : State := State.powerOn Config.testVectors [] []

end Sys2Proof.Machine
end

