-- ==== Sys2Proof/Machine/Ops.lean ====
section
/-! DEFINITION. The named operations over MEM, the tables and the arena, the end of a command (with its error
code: the one operation every error goes through, 00_scope.md R13 and 60_exceptions.md R301, R303), and the reset of
the block. The block has no exception entry and no return from one (R303). -/

namespace Sys2Proof.Machine

/-! ## MEM (20_memory.md R60, R68) -/

/-- What an address reads as that no cell lists. DESIGN CHOICE, log entry 2: the spec leaves MEM at power-on open
(70_reset_and_hazards.md R341), and any other contents are listed in the memory given to `State.powerOn`. -/
def Memory.unlisted : Byte := 0

/-- The byte at an address. -/
def Memory.read : Memory → Nat → Byte
  | [], _ => Memory.unlisted
  | (b, v) :: rest, a => if b = a then v else Memory.read rest a

/-- The cells that list a byte at an address: none where it reads so unlisted. -/
def Memory.cell (a : Nat) (v : Byte) : Memory :=
  if v = Memory.unlisted then [] else [(a, v)]

/-- Store a byte, keeping the canonical form: addresses rising, no cell that reads as an unlisted one. -/
def Memory.write : Memory → Nat → Byte → Memory
  | [], a, v => Memory.cell a v
  | (b, w) :: rest, a, v =>
    if a < b then Memory.cell a v ++ (b, w) :: rest
    else if a = b then Memory.cell a v ++ rest
    else (b, w) :: Memory.write rest a v

/-- Every listed address is above `lo`, addresses rise, and no cell reads as an unlisted one. -/
def Memory.wfAbove : Nat → Memory → Bool
  | _, [] => true
  | lo, (b, v) :: rest => decide (lo ≤ b) && v != Memory.unlisted && Memory.wfAbove (b + 1) rest

/-- The canonical form of memory: equal memories are equal lists. -/
def Memory.wf (m : Memory) : Bool := Memory.wfAbove 0 m

/-- Store bytes at rising addresses (MemWrite, 00_scope.md R13). -/
def Memory.writeBytes : Memory → Nat → List Byte → Memory
  | m, _, [] => m
  | m, a, v :: vs => Memory.writeBytes (m.write a v) (a + 1) vs

/-- The bytes MEM[a .. a+n-1] in address order. -/
def Memory.readBytes (m : Memory) : Nat → Nat → List Byte
  | _, 0 => []
  | a, n + 1 => m.read a :: Memory.readBytes m (a + 1) n

/-- MemRead(a, n): n bytes assembled little-endian (00_scope.md R13, 20_memory.md R65). -/
def Memory.readLE (m : Memory) : Nat → Nat → Nat
  | _, 0 => 0
  | a, n + 1 => (m.read a).toNat + 256 * Memory.readLE m (a + 1) n

/-- Bit `pos` of the packed stream whose first byte is at `base`: bit pos mod 8 of byte pos div 8
(20_memory.md R66, 30_encoding.md R100, 46_bit_reader.md R221). -/
def Memory.bitAt (m : Memory) (base pos : Nat) : Bool :=
  (m.read (base + pos / 8)).getLsbD (pos % 8)

/-! ## Widths -/

/-- ceil8(n), the number of bytes that hold n bits (00_scope.md R11). -/
abbrev ceil8 (n : Nat) : Nat := (n + 7) / 8

/-- The n bytes of v, least-significant first (00_scope.md R13, 20_memory.md R65). -/
def leBytes : Nat → Nat → List Byte
  | 0, _ => []
  | n + 1, v => BitVec.ofNat 8 v :: leBytes n (v / 256)

/-- 2^64 - 1, the greatest count and weight (41_frequency_table.md R120). -/
abbrev maxCount : Nat := 2 ^ 64 - 1

/-- The value of a 32-bit base register for an address: the address, and a free value where it does not fit
(log entry 12). -/
def addressReg (a : Nat) : Word :=
  if a < 2 ^ 32 then BitVec.ofNat 32 a else Config.unfitAddress a

/-! ## FREQ and the codebook -/

/-- The symbols 0..255 in ascending order. -/
def allSymbols : List Byte := (List.range 256).map (BitVec.ofNat 8)

/-- FREQ[s]. -/
def FreqTable.get (f : FreqTable) (s : Byte) : DWord := f[s.toNat]'s.isLt

/-- FREQ[s] <- v. -/
def FreqTable.put (f : FreqTable) (s : Byte) (v : DWord) : FreqTable := f.set s.toNat v s.isLt

/-- A table given symbol by symbol. -/
def FreqTable.tabulate (g : Byte → DWord) : FreqTable :=
  ⟨(allSymbols.map g).toArray, by simp [allSymbols]⟩

/-- Σ FREQ[s] on unbounded naturals (43_tree_builder.md R160). -/
def FreqTable.total (f : FreqTable) : Nat := (allSymbols.map fun s => (f.get s).toNat).sum

/-- CB_VALID[s], CB_LEN[s], CB_BITS[s]. -/
def Codebook.get (cb : Codebook) (s : Byte) : CbEntry := cb[s.toNat]'s.isLt

/-- Sets the entry of one symbol. -/
def Codebook.put (cb : Codebook) (s : Byte) (e : CbEntry) : Codebook := cb.set s.toNat e s.isLt

/-- CB_COUNT: the number of symbols with CB_VALID = 1 (10_state.md R32; log entry 9). -/
def Codebook.count (cb : Codebook) : Nat := allSymbols.countP fun s => (cb.get s).valid

/-! ## The arena (10_state.md R27, 00_scope.md R14) -/

/-- NODE[i].weight. -/
def Node.weight : Node → DWord
  | .leaf _ w => w
  | .internal w _ _ => w

/-- NODE[i].kind: 1 = Leaf. -/
def Node.isLeaf : Node → Bool
  | .leaf _ _ => true
  | .internal _ _ _ => false

/-- NODE[i].sym, 0 in an Internal node. -/
def Node.sym : Node → Byte
  | .leaf s _ => s
  | .internal _ _ _ => 0

/-- child(i, b) where hasChild(i, b) = 1, and none where it is 0: bit 0 is left, bit 1 is right (R14). -/
def Node.child : Node → Bool → Option NodeIndex
  | .leaf _ _, _ => none
  | .internal _ l _, false => l
  | .internal _ _ r, true => r

/-- set child(i, b) <- j and hasChild(i, b) <- 1. -/
def Node.setChild : Node → Bool → NodeIndex → Node
  | .leaf s w, _, _ => .leaf s w
  | .internal w _ r, false, j => .internal w (some j) r
  | .internal w l _, true, j => .internal w l (some j)

/-- child of the allocated record at index i. -/
def childOf (nodes : List Node) (i : Nat) (b : Bool) : Option NodeIndex :=
  (nodes[i]?).bind fun n => n.child b

/-! ## The end of a command -/

/-- complete(code), and raise Error(code): STATUS.ERR <- code, STATUS.BUSY <- 0 and PENDING empty
(00_scope.md R13, 60_exceptions.md R301). Every command ends here, with or without an error. -/
def State.complete (s : State) (code : ErrCode) : State :=
  { s with err := code, pending := none }

/-! ## Reset -/

/-- Every item of the state record but MEM at its reset value, PENDING empty (70_reset_and_hazards.md R340, R342).
The model's own fields stay. -/
def State.resetBlock (s : State) : State :=
  { State.powerOn s.cfg s.mem s.host with replies := s.replies, rst := s.rst }

end Sys2Proof.Machine
end

