-- ==== Sys2Proof/Machine/Operands.lean ====
section
/-! DEFINITION. The operand forms of the commands (30_encoding.md R81): the source region (SRC_ADDR, SRC_LEN), the
destination region (DST_ADDR, DST_CAP), and the checks on them (20_memory.md R63, R64). The byte operand A and the
index operand N are fields of Instr; ARG is a register. -/

namespace Sys2Proof.Machine

/-- The region (a, n) is in range: a + n <= MEM_BYTES on unbounded naturals (R63). -/
def inRange (c : Config) (a n : Nat) : Bool := decide (a + n ≤ c.memBytes)

/-- Two regions overlap (R64). -/
def overlap (a1 n1 a2 n2 : Nat) : Bool :=
  decide (0 < n1) && decide (0 < n2) && decide (a1 < a2 + n2) && decide (a2 < a1 + n1)

/-- The source region is in range. -/
def State.srcInRange (s : State) : Bool := inRange s.cfg s.srcAddr.toNat s.srcLen.toNat

/-- The destination region is in range. -/
def State.dstInRange (s : State) : Bool := inRange s.cfg s.dstAddr.toNat s.dstCap.toNat

/-- The source and the destination region overlap. -/
def State.regionsOverlap (s : State) : Bool :=
  overlap s.srcAddr.toNat s.srcLen.toNat s.dstAddr.toNat s.dstCap.toNat

/-- The bytes of the source region in address order (20_memory.md R61). -/
def State.srcBytes (s : State) : List Byte := s.mem.readBytes s.srcAddr.toNat s.srcLen.toNat

end Sys2Proof.Machine
end

