-- ==== Sys2Proof/Machine/Flags.lean ====
section
/-! DEFINITION. The STATUS word (10_state.md R24), the error codes' numbers (60_exceptions.md R305), and the
counters the register window shows (10_state.md R22). -/

namespace Sys2Proof.Machine

/-- The number of a result code (60_exceptions.md R305). -/
def ErrCode.number : ErrCode → BitVec 4
  | .ok => 0
  | .malformedTable => 1
  | .truncatedPayload => 2
  | .unknownSymbol => 3
  | .undecodable => 4
  | .illegalCommand => 5
  | .addrRange => 6
  | .regionOverlap => 7
  | .outputOverflow => 8
  | .pqFull => 9
  | .pqEmpty => 10
  | .weightOverflow => 11
  | .badIndex => 12

/-- STATUS.BUSY: 1 from issue to completion, which is exactly while PENDING holds a word (10_state.md R24, R35). -/
def State.busy (s : State) : Bool := s.pending.isSome

/-- STATUS: BUSY bit 0, OVR bit 1, EXH bit 2, BIT bit 3, ERR bits 7:4, bits 31:8 zero (10_state.md R24). -/
def State.status (s : State) : Word :=
  ((((0#24 ++ s.err.number) ++ BitVec.ofBool s.bit) ++ BitVec.ofBool s.exh) ++ BitVec.ofBool s.ovr) ++
    BitVec.ofBool s.busy

/-- NCOUNT (10_state.md R27). -/
def State.ncount (s : State) : BitVec 17 := BitVec.ofNat 17 s.nodes.length

/-- PQ_COUNT (10_state.md R30). -/
def State.pqCount (s : State) : BitVec 9 := BitVec.ofNat 9 s.queue.length

/-- CB_COUNT (10_state.md R32). -/
def State.cbCount (s : State) : BitVec 9 := BitVec.ofNat 9 s.codebook.count

/-- The result of a BR_NEXT that delivered a bit or found the reader exhausted: STATUS.EXH and STATUS.BIT
(10_state.md R24, 46_bit_reader.md R222). -/
def State.setReadFlags (s : State) (exh bit : Bool) : State := { s with exh := exh, bit := bit }

end Sys2Proof.Machine
end

