-- ==== Sys2Proof/Machine/BitPacker.lean ====
section
/-! DEFINITION. The bit packer (45_bit_packer.md) and its commands. -/

namespace Sys2Proof.Machine

/-- The byte that holds bit k: the first bit of a byte rewrites all of it, a later one only its own place (R201). -/
def packByte (old : Byte) (k : Nat) (b : Bool) : Byte :=
  if k = 0 then (BitVec.ofBool b).setWidth 8
  else (old &&& ~~~(1#8 <<< k)) ||| ((BitVec.ofBool b).setWidth 8 <<< k)

/-- PackBit's write: bit number `count` of the buffer at `base` (R201). -/
def packBit (m : Memory) (base count : Nat) (b : Bool) : Memory :=
  m.write (base + count / 8) (packByte (m.read (base + count / 8)) (count % 8) b)

/-- PackBit for each bit of a list, from bit number `count` on (47_encoder.md R244). -/
def packBits (base : Nat) : Memory → (count : Nat) → List Bool → Memory
  | m, _, [] => m
  | m, count, b :: bs => packBits base (packBit m base count b) (count + 1) bs

/-- BP_INIT: an empty buffer at DST_ADDR of DST_CAP bytes (R200). -/
def execBpInit (s : State) : Host.Outcome State Fault Refusal :=
  if !s.dstInRange then .next (s.complete .addrRange)
  else .next ({ s with bpBase := s.dstAddr, bpCap := s.dstCap, bpBitcnt := 0 }.complete .ok)

/-- The MEM address of the byte the next push updates (R201, 20_memory.md R61). -/
def State.packAddress (s : State) : Nat := s.bpBase.toNat + s.bpBitcnt.toNat / 8

/-- BP_PUSH bit: append one bit (R201). A bit above 1 fails the field check (30_encoding.md R84(c); log entry 17).
An address beyond MEM faults (log entry 15); 10_state.md R33 rules it out. -/
def execBpPush (bit : Byte) (s : State) : Host.Outcome State Fault Refusal :=
  if 1 < bit.toNat then .next (s.complete .illegalCommand)
  else if s.bpBitcnt.toNat = 8 * s.bpCap.toNat then .next (s.complete .outputOverflow)
  else if s.cfg.memBytes ≤ s.packAddress then .fault .memOutOfRange
  else
    .next ({ s with
      mem := packBit s.mem s.bpBase.toNat s.bpBitcnt.toNat (bit.getLsbD 0)
      bpBitcnt := s.bpBitcnt + 1 }.complete .ok)

/-- BP_FINISH: the bit and byte counts to RES0 and RES1; the packer stays open (R202). -/
def execBpFinish (s : State) : Host.Outcome State Fault Refusal :=
  .next ({ s with res0 := s.bpBitcnt, res1 := BitVec.ofNat 64 (ceil8 s.bpBitcnt.toNat) }.complete .ok)

end Sys2Proof.Machine
end

