-- ==== Sys2Proof/Machine/BitReader.lean ====
section
/-! DEFINITION. The bit reader (46_bit_reader.md) and its commands. -/

namespace Sys2Proof.Machine

/-- What ReadBit answers (R221), and the access beyond MEM that 10_state.md R34 rules out. -/
inductive ReadResult where
  | exhausted
  | outOfBytes
  | bit (b : Bool)
  | beyondMem
deriving DecidableEq, Repr

/-- The MEM address of the byte the next read looks at (R221, 20_memory.md R61). -/
def State.readAddress (s : State) : Nat := s.brBase.toNat + s.brPos.toNat / 8

/-- ReadBit, but for the advance of BR_POS (R221): the bit count first, then the buffer's bytes. -/
def readBit (s : State) : ReadResult :=
  if s.brPos = s.brLimit then .exhausted
  else if s.brBytes.toNat ≤ s.brPos.toNat / 8 then .outOfBytes
  else if s.cfg.memBytes ≤ s.readAddress then .beyondMem
  else .bit (s.mem.bitAt s.brBase.toNat s.brPos.toNat)

/-- BR_INIT: a reader of SRC_LEN bytes at SRC_ADDR with ARG valid bits (R220). -/
def execBrInit (s : State) : Host.Outcome State Fault Refusal :=
  if !s.srcInRange then .next (s.complete .addrRange)
  else
    .next ({ s with brBase := s.srcAddr, brBytes := s.srcLen, brLimit := s.arg, brPos := 0 }.complete .ok)

/-- BR_NEXT: the next bit to STATUS.BIT, exhaustion to STATUS.EXH; TRUNCATED_PAYLOAD when the bytes run out
first (R222). An address beyond MEM faults (log entry 15). -/
def execBrNext (s : State) : Host.Outcome State Fault Refusal :=
  match readBit s with
  | .exhausted => .next ((s.setReadFlags true false).complete .ok)
  | .outOfBytes => .next (s.complete .truncatedPayload)
  | .bit b => .next (({ s with brPos := s.brPos + 1 }.setReadFlags false b).complete .ok)
  | .beyondMem => .fault .memOutOfRange

end Sys2Proof.Machine
end

