-- ==== Sys2Proof/Machine/PriorityQueue.lean ====
section
/-! DEFINITION. The priority queue (42_priority_queue.md) and its commands. The queue is the list of its entries in
push order; the heap layout is not observable (10_state.md R31) and the pop law R142 is what a pop does. -/

namespace Sys2Proof.Machine

/-- key(e1) < key(e2): by weight, then by sequence number (R141). -/
def PqEntry.before (e1 e2 : PqEntry) : Bool :=
  decide (e1.weight.toNat < e2.weight.toNat) ||
    (decide (e1.weight = e2.weight) && decide (e1.seq.toNat < e2.seq.toNat))

/-- HeapPush (R144, R146): the new entry is the last in push order. -/
def heapPush (q : List PqEntry) (e : PqEntry) : List PqEntry := q ++ [e]

/-- HeapPop (R142): the entry with the least key, and the others in their order; none from an empty queue. -/
def heapPop : List PqEntry → Option (PqEntry × List PqEntry)
  | [] => none
  | e :: q =>
    match heapPop q with
    | none => some (e, [])
    | some (m, r) => if m.before e then some (m, e :: r) else some (e, q)

/-- PQ_CAP (00_scope.md R9). -/
abbrev pqCap : Nat := 256

/-- PQ_CLEAR (R145). -/
def execPqClear (s : State) : Host.Outcome State Fault Refusal :=
  .next ({ s with queue := [], pqSeq := 0 }.complete .ok)

/-- PQ_PUSH node: push (ARG, PQ_SEQ, node); PQ_FULL at 256 entries and at PQ_SEQ = 2^32 - 1 (R143, R146). -/
def execPqPush (node : NodeIndex) (s : State) : Host.Outcome State Fault Refusal :=
  if s.queue.length = pqCap then .next (s.complete .pqFull)
  else if s.pqSeq.toNat = 2 ^ 32 - 1 then .next (s.complete .pqFull)
  else
    .next ({ s with
      queue := heapPush s.queue { weight := s.arg, seq := s.pqSeq, node := node }
      pqSeq := s.pqSeq + 1 }.complete .ok)

/-- The word RES1 that PQ_POP writes: {seq (63:32), 0 (31:16), node (15:0)} (R147). -/
def PqEntry.resultWord (e : PqEntry) : DWord := (e.seq ++ 0#16) ++ e.node

/-- PQ_POP: the least entry to RES0 and RES1; PQ_EMPTY from an empty queue (R147). -/
def execPqPop (s : State) : Host.Outcome State Fault Refusal :=
  match heapPop s.queue with
  | none => .next (s.complete .pqEmpty)
  | some (e, q) => .next ({ s with queue := q, res0 := e.weight, res1 := e.resultWord }.complete .ok)

end Sys2Proof.Machine
end

