-- ==== Sys2Proof/Machine/TreeBuilder.lean ====
section
/-! DEFINITION. Tree construction (43_tree_builder.md). TREE_BUILD's result depends on FREQ alone (R169), so the
construction is a function of FREQ over the arena, the queue and PQ_SEQ it starts afresh. -/

namespace Sys2Proof.Machine

/-- The arena, the queue and PQ_SEQ while a tree is being built (R163). -/
structure Forest where
  nodes : List Node
  queue : List PqEntry
  seq   : Word
deriving DecidableEq, Repr

/-- The fresh arena and queue (R163: NCOUNT <- 0, PQ_COUNT <- 0, PQ_SEQ <- 0). -/
def Forest.empty : Forest := { nodes := [], queue := [], seq := 0 }

/-- NODE[NCOUNT] <- n, then a push of its weight and index, then NCOUNT and PQ_SEQ one up (R161, R163). -/
def Forest.addNode (f : Forest) (n : Node) : Forest where
  nodes := f.nodes ++ [n]
  queue := heapPush f.queue { weight := n.weight, seq := f.seq, node := BitVec.ofNat 16 f.nodes.length }
  seq   := f.seq + 1

/-- Step 1 for one symbol: a Leaf if its count is not 0 (R162, R163). -/
def Forest.seedSymbol (freq : FreqTable) (f : Forest) (s : Byte) : Forest :=
  if freq.get s = 0 then f else f.addNode (.leaf s (freq.get s))

/-- Step 1: the leaves in ascending symbol order (R162). -/
def Forest.seed (freq : FreqTable) : Forest := allSymbols.foldl (Forest.seedSymbol freq) Forest.empty

/-- Step 2, once: the two least entries a, b, popped in that order, become the left and the right child of a new
Internal node (R164); none when fewer than two entries are left. -/
def Forest.combineOnce (f : Forest) : Option Forest :=
  match heapPop f.queue with
  | none => none
  | some (a, q1) =>
    match heapPop q1 with
    | none => none
    | some (b, q2) =>
      some (Forest.addNode { f with queue := q2 }
        (.internal (a.weight + b.weight) (some a.node) (some b.node)))

/-- Step 2: combine while two entries are left, at most k times (R164: n - 1 combinations). -/
def Forest.combine : Nat → Forest → Forest
  | 0, f => f
  | k + 1, f =>
    match f.combineOnce with
    | none => f
    | some f' => Forest.combine k f'

/-- Steps 1 and 2: each combination takes one entry away, so as many as there are leaves are enough (R164). -/
def Forest.build (freq : FreqTable) : Forest :=
  let f := Forest.seed freq
  Forest.combine f.queue.length f

/-- The number n of leaves: the symbols with a count above 0 (R163). -/
def leafCount (freq : FreqTable) : Nat := allSymbols.countP fun s => freq.get s != 0

/-- TREE_BUILD's effect on the arena, the queue and the codebook, once the forest is built (R163): the final root is
popped (R164), and with no leaf there is no tree (R166). RES0 and RES1 are the command's own (log entry 11). -/
def plantForest (s : State) (f : Forest) : State :=
  match heapPop f.queue with
  | none =>
    { s with nodes := [], root := 0, rootValid := false, queue := [], pqSeq := 0, codebook := emptyCodebook }
  | some (r, q) =>
    { s with nodes := f.nodes, root := r.node, rootValid := true, queue := q, pqSeq := f.seq, codebook := emptyCodebook }

/-- RES0 of TREE_BUILD: the weight of the final root, 0 without a tree (R163, R166). -/
def Forest.rootWeight (f : Forest) : DWord :=
  match heapPop f.queue with
  | none => 0
  | some (r, _) => r.weight

/-- The weight check of R160: the counts sum to more than 2^64 - 1. -/
def FreqTable.overflows (f : FreqTable) : Bool := decide (maxCount < f.total)

/-- TREE_BUILD (R163). -/
def execTreeBuild (s : State) : Host.Outcome State Fault Refusal :=
  if s.freq.overflows then .next (s.complete .weightOverflow)
  else
    let f := Forest.build s.freq
    .next ({ plantForest s f with
      res0 := f.rootWeight
      res1 := BitVec.ofNat 64 (leafCount s.freq) }.complete .ok)

/-- The word RES1 that NODE_READ writes (R167): hasR bit 42, hasL bit 41, kind bit 40, sym bits 39:32, R bits
31:16, L bits 15:0, a missing child's index 0 (10_state.md R27). -/
def Node.resultWord (n : Node) : DWord :=
  (((((0#21 ++ BitVec.ofBool (n.child true).isSome) ++ BitVec.ofBool (n.child false).isSome) ++
      BitVec.ofBool n.isLeaf) ++ n.sym) ++ (n.child true).getD 0) ++ (n.child false).getD 0

/-- NODE_READ index: one allocated record to RES0 and RES1; BAD_INDEX from NCOUNT on (R167). -/
def execNodeRead (index : NodeIndex) (s : State) : Host.Outcome State Fault Refusal :=
  match s.nodes[index.toNat]? with
  | none => .next (s.complete .badIndex)
  | some n => .next ({ s with res0 := n.weight, res1 := n.resultWord }.complete .ok)

end Sys2Proof.Machine
end

