-- ==== Sys2Proof/Machine/Codebook.lean ====
section
/-! DEFINITION. The codebook generator (44_codebook.md) and its commands. -/

namespace Sys2Proof.Machine

/-- A code: the choices from the root to a leaf, false = left = 0, true = right = 1 (00_scope.md R12, R14). -/
abbrev Code := List Bool

/-- Σ_j c_j · 2^j: c_0 at bit 0 (R182, 30_encoding.md R101). -/
def codeNat : Code → Nat
  | [] => 0
  | b :: c => b.toNat + 2 * codeNat c

/-- The codebook entry of a code (R182: Record). -/
def CbEntry.ofCode (c : Code) : CbEntry where
  valid := true
  len   := BitVec.ofNat 8 c.length
  bits  := BitVec.ofNat 256 (codeNat c)

/-- Record(s, c) (R182). -/
def Codebook.record (cb : Codebook) (r : Byte × Code) : Codebook := cb.put r.1 (CbEntry.ofCode r.2)

/-- Walk(i, c), left before right, at most `depth` records deep: the symbols and codes of the leaves under i in
the order R182 records them. None where a link leads to no allocated record or a path is longer than `depth`
allows: 10_state.md R28 and R29 rule both out. -/
def walk (nodes : List Node) : (depth i : Nat) → Code → Option (List (Byte × Code))
  | 0, _, _ => none
  | depth + 1, i, c =>
    match nodes[i]? with
    | none => none
    | some (.leaf s _) => some [(s, c)]
    | some (.internal _ l r) =>
      match
        (match l with
          | none => some []
          | some j => walk nodes depth j.toNat (c ++ [false])),
        (match r with
          | none => some []
          | some j => walk nodes depth j.toNat (c ++ [true])) with
      | some below0, some below1 => some (below0 ++ below1)
      | _, _ => none

/-- The records a walk may pass: a code has at most 255 bits, so a path has at most 256 records (10_state.md R29). -/
abbrev walkDepth : Nat := 256

/-- The records CB_GEN makes for a tree: a root that is a Leaf has the code [0] (R182, R183). -/
def codesOf (nodes : List Node) (root : Nat) : Option (List (Byte × Code)) :=
  match nodes[root]? with
  | some (.leaf s _) => some [(s, [false])]
  | _ => walk nodes walkDepth root []

/-- The codebook of the current tree, empty without one (R182). -/
def generateCodebook (s : State) : Option Codebook :=
  if s.rootValid then
    (codesOf s.nodes s.root.toNat).map fun rs => rs.foldl Codebook.record emptyCodebook
  else some emptyCodebook

/-- max { CB_LEN[s] : CB_VALID[s] = 1 }, 0 for an empty codebook (R182, 60_exceptions.md R306). -/
def Codebook.longest (cb : Codebook) : Nat :=
  allSymbols.foldl (fun m s => if (cb.get s).valid then max m (cb.get s).len.toNat else m) 0

/-- CB_GEN: a code for every leaf of the current tree (R182). In an arena that breaks 10_state.md R28 or R29 it
faults (log entry 14); no such arena is reachable. -/
def execCbGen (s : State) : Host.Outcome State Fault Refusal :=
  match generateCodebook s with
  | none => .fault .arenaBroken
  | some cb =>
    .next ({ s with
      codebook := cb
      res0 := BitVec.ofNat 64 cb.count
      res1 := BitVec.ofNat 64 cb.longest }.complete .ok)

/-- The word RES1 that CB_READ writes: {0 (63:9), valid (8), length (7:0)} (R184). -/
def CbEntry.resultWord (e : CbEntry) : DWord := (0#55 ++ BitVec.ofBool e.valid) ++ e.len

/-- CB_READ sym, chunk: 64 code bits to RES0, valid and length to RES1 (R184). A chunk above 3 fails the field
check (30_encoding.md R84(d); log entry 17). -/
def execCbRead (sym : Byte) (chunk : BitVec 16) (s : State) : Host.Outcome State Fault Refusal :=
  if 3 < chunk.toNat then .next (s.complete .illegalCommand)
  else
    .next ({ s with
      res0 := (s.codebook.get sym).bits.extractLsb' (64 * chunk.toNat) 64
      res1 := (s.codebook.get sym).resultWord }.complete .ok)

end Sys2Proof.Machine
end

