-- ==== Sys2Proof/Machine/Control.lean ====
section
/-! DEFINITION. The control commands (49_control.md). -/

namespace Sys2Proof.Machine

/-- NOP: ERR <- OK and nothing else (R290). -/
def execNop (s : State) : Host.Outcome State Fault Refusal := .next (s.complete .ok)

/-- RESET: every item but MEM at its reset value (R291). -/
def execReset (s : State) : Host.Outcome State Fault Refusal := .next (s.resetBlock.complete .ok)

end Sys2Proof.Machine
end

