-- ==== Sys2Proof/Machine/Decoder.lean ====
section
/-! DEFINITION. The whole-buffer decoder (48_decoder.md). -/

namespace Sys2Proof.Machine

/-- The fresh trie: NODE[0] an Internal node of weight 0 with no child (R265). -/
def freshTrie : List Node := [.internal 0 none none]

/-- NODE[NCOUNT] <- n, set child(i, b) <- NCOUNT and hasChild(i, b) <- 1, NCOUNT one up (R266). -/
def addChild (nodes : List Node) (i : Nat) (b : Bool) (n : Node) : List Node :=
  nodes.modify i (fun p => p.setChild b (BitVec.ofNat 16 nodes.length)) ++ [n]

/-- Insert(s, c) from record i on (R266); none is its Fail(MALFORMED_TABLE). Every code has a bit (R262(b)). -/
def trieInsert (s : Byte) : Code → (i : Nat) → List Node → Option (List Node)
  | [], _, _ => none
  | [b], i, nodes =>
    match childOf nodes i b with
    | some _ => none
    | none => some (addChild nodes i b (.leaf s 0))
  | b :: b' :: c, i, nodes =>
    match childOf nodes i b with
    | none => trieInsert s (b' :: c) nodes.length (addChild nodes i b (.internal 0 none none))
    | some j =>
      match nodes[j.toNat]? with
      | some (.internal _ _ _) => trieInsert s (b' :: c) j.toNat nodes
      | _ => none

/-- The parse of the table: the offset q of the next byte, the trie and the codebook so far (R268). -/
structure TableParse where
  offset   : Nat
  nodes    : List Node
  codebook : Codebook
deriving DecidableEq, Repr

/-- The L code bits that start at a MEM address (R268, 30_encoding.md R101). -/
def codeAt (m : Memory) (base len : Nat) : Code := (List.range len).map (m.bitAt base)

/-- One table entry, with the checks (a) to (e) of R262 in their order; none is MALFORMED_TABLE. -/
def parseEntry (m : Memory) (src len : Nat) (t : TableParse) : Option TableParse :=
  if len < t.offset + 2 then none
  else
    let s := m.read (src + t.offset)
    let l := (m.read (src + t.offset + 1)).toNat
    if l = 0 then none
    else if (t.codebook.get s).valid then none
    else if len < t.offset + 2 + ceil8 l then none
    else
      let c := codeAt m (src + t.offset + 2) l
      match trieInsert s c 0 t.nodes with
      | none => none
      | some nodes =>
        some { offset := t.offset + 2 + ceil8 l, nodes := nodes, codebook := t.codebook.record (s, c) }

/-- The entries of the table, `count` of them (R262). -/
def parseEntries (m : Memory) (src len : Nat) : (count : Nat) → TableParse → Option TableParse
  | 0, t => some t
  | count + 1, t =>
    match parseEntry m src len t with
    | none => none
    | some t' => parseEntries m src len count t'

/-- The header and the table (R261, R262); none is MALFORMED_TABLE. -/
def parseTable (m : Memory) (src len : Nat) : Option TableParse :=
  if len < 2 then none
  else if 256 < m.readLE src 2 then none
  else
    parseEntries m src len (m.readLE src 2)
      { offset := 2, nodes := freshTrie, codebook := emptyCodebook }

/-- Walk (R264): the output of the `left` payload bits from bit `pos` on, at record i of the trie with root 0. The
output so far is not needed: an error discards it (R268). -/
def walkPayload (m : Memory) (nodes : List Node) (pay : Nat) :
    (left pos i : Nat) → Except ErrCode (List Byte)
  | 0, _, i => if i = 0 then .ok [] else .error .truncatedPayload
  | left + 1, pos, i =>
    match childOf nodes i (m.bitAt pay pos) with
    | none => .error .undecodable
    | some j =>
      match nodes[j.toNat]? with
      | some (.leaf s _) =>
        match walkPayload m nodes pay left (pos + 1) 0 with
        | .ok out => .ok (s :: out)
        | .error e => .error e
      | _ => walkPayload m nodes pay left (pos + 1) j.toNat

/-- A container read as far as its payload: the table, P, the payload's offset and the decoded output. -/
structure Decoded where
  nodes    : List Node
  codebook : Codebook
  payload  : Nat
  offset   : Nat
  out      : List Byte
deriving DecidableEq, Repr

/-- The container in a region, up to the capacity check (R260 to R264). -/
def decodeContainer (m : Memory) (src len : Nat) : Except ErrCode Decoded :=
  match parseTable m src len with
  | none => .error .malformedTable
  | some t =>
    if len < t.offset + 8 then .error .malformedTable
    else
      let payload := m.readLE (src + t.offset) 8
      let q := t.offset + 8
      if len < q + ceil8 payload then .error .truncatedPayload
      else
        match walkPayload m t.nodes (src + q) payload 0 0 with
        | .error e => .error e
        | .ok out =>
          .ok { nodes := t.nodes, codebook := t.codebook, payload := payload, offset := q, out := out }

/-- Fail (R268, R269), but for the error code: no tree, an empty codebook, OUT_LEN = 0. -/
def State.failDecode (s : State) : State :=
  { s with nodes := [], root := 0, rootValid := false, codebook := emptyCodebook, outLen := 0 }

/-- The state of a decode that completes OK (R268). -/
def writeOutput (s : State) (d : Decoded) : State :=
  { s with
    nodes     := d.nodes
    root      := 0
    rootValid := true
    codebook  := d.codebook
    mem       := s.mem.writeBytes s.dstAddr.toNat d.out
    brBase    := addressReg (s.srcAddr.toNat + d.offset)
    brBytes   := BitVec.ofNat 32 (ceil8 d.payload)
    brLimit   := BitVec.ofNat 64 d.payload
    brPos     := BitVec.ofNat 64 d.payload
    outLen    := BitVec.ofNat 32 d.out.length
    res0      := BitVec.ofNat 64 d.payload
    res1      := BitVec.ofNat 64 (d.offset + ceil8 d.payload) }

/-- DEC_RUN: the container in the source region decoded into the destination region (R268). -/
def execDecRun (s : State) : Host.Outcome State Fault Refusal :=
  if !s.srcInRange || !s.dstInRange then .next ({ s with outLen := 0 }.complete .addrRange)
  else if s.regionsOverlap then .next ({ s with outLen := 0 }.complete .regionOverlap)
  else
    match decodeContainer s.mem s.srcAddr.toNat s.srcLen.toNat with
    | .error e => .next (s.failDecode.complete e)
    | .ok d =>
      if s.dstCap.toNat < d.out.length then
        .next ({ s.failDecode with res0 := BitVec.ofNat 64 d.out.length }.complete .outputOverflow)
      else .next ((writeOutput s d).complete .ok)

end Sys2Proof.Machine
end

