-- ==== Sys2Proof/Machine/FrequencyTable.lean ====
section
/-! DEFINITION. The frequency table commands (41_frequency_table.md). -/

namespace Sys2Proof.Machine

/-- occ[s] = |{ k : byte k = s }|, for the bytes of a region (R125). -/
def occurrences (bytes : List Byte) (s : Byte) : Nat := bytes.count s

/-- The table of the byte counts of an input, every other count gone (47_encoder.md R241). -/
def countsOf (bytes : List Byte) : FreqTable :=
  FreqTable.tabulate fun s => BitVec.ofNat 64 (occurrences bytes s)

/-- The table with the byte counts of a region added (R125). -/
def FreqTable.addCounts (f : FreqTable) (bytes : List Byte) : FreqTable :=
  FreqTable.tabulate fun s => BitVec.ofNat 64 ((f.get s).toNat + occurrences bytes s)

/-- Some count would pass 2^64 - 1 when the byte counts of a region are added (R125). -/
def FreqTable.scanOverflows (f : FreqTable) (bytes : List Byte) : Bool :=
  allSymbols.any fun s => decide (maxCount < (f.get s).toNat + occurrences bytes s)

/-- FT_CLEAR: every count to zero (R121). -/
def execFtClear (s : State) : Host.Outcome State Fault Refusal :=
  .next ({ s with freq := Vector.replicate 256 0 }.complete .ok)

/-- FT_RECORD sym: one more occurrence; a count at 2^64 - 1 is refused with WEIGHT_OVERFLOW (R120, R122). -/
def execFtRecord (sym : Byte) (s : State) : Host.Outcome State Fault Refusal :=
  if (s.freq.get sym).toNat = maxCount then .next (s.complete .weightOverflow)
  else .next ({ s with freq := s.freq.put sym (s.freq.get sym + 1) }.complete .ok)

/-- FT_WRITE sym: the count from ARG, any value (R123). -/
def execFtWrite (sym : Byte) (s : State) : Host.Outcome State Fault Refusal :=
  .next ({ s with freq := s.freq.put sym s.arg }.complete .ok)

/-- FT_READ sym: the count to RES0; RES1 is not written (R124). -/
def execFtRead (sym : Byte) (s : State) : Host.Outcome State Fault Refusal :=
  .next ({ s with res0 := s.freq.get sym }.complete .ok)

/-- FT_SCAN: the byte counts of the source region added, or none of them (R125). -/
def execFtScan (s : State) : Host.Outcome State Fault Refusal :=
  if !s.srcInRange then .next (s.complete .addrRange)
  else if s.freq.scanOverflows s.srcBytes then .next (s.complete .weightOverflow)
  else .next ({ s with freq := s.freq.addCounts s.srcBytes }.complete .ok)

end Sys2Proof.Machine
end

