-- ==== Sys2Proof/Machine/Encoder.lean ====
section
/-! DEFINITION. The whole-buffer encoder (47_encoder.md), with the container it writes (30_encoding.md Part B). -/

namespace Sys2Proof.Machine

/-- P = Σ_s FREQ[s] × CB_LEN[s], the payload's bits (R242). -/
def payloadLength (f : FreqTable) (cb : Codebook) : Nat :=
  (allSymbols.map fun s => (f.get s).toNat * (cb.get s).len.toNat).sum

/-- The container's size in bytes (R245, 30_encoding.md R105). -/
def containerSize (cb : Codebook) (payload : Nat) : Nat :=
  2 + (allSymbols.map fun s => if (cb.get s).valid then 2 + ceil8 (cb.get s).len.toNat else 0).sum + 8 + ceil8 payload

/-- The code_bits bytes of an entry: byte j is CB_BITS[8j+7:8j], its padding bits 0 (R243, 30_encoding.md R101, R104). -/
def CbEntry.codeBytes (e : CbEntry) : List Byte :=
  (List.range (ceil8 e.len.toNat)).map fun j => e.bits.extractLsb' (8 * j) 8

/-- A table entry: symbol, code_bit_length, code_bits (30_encoding.md R97). -/
def entryBytes (s : Byte) (e : CbEntry) : List Byte := s :: e.len :: e.codeBytes

/-- The table: one entry per symbol with a code, in ascending symbol order (30_encoding.md R103). -/
def tableBytes (cb : Codebook) : List Byte :=
  allSymbols.flatMap fun s => if (cb.get s).valid then entryBytes s (cb.get s) else []

/-- What WriteHeaderAndTable writes: symbol_count, the table, payload_bit_length (R243, 30_encoding.md R95, R96). -/
def headerBytes (cb : Codebook) (payload : Nat) : List Byte :=
  leBytes 2 cb.count ++ (tableBytes cb ++ leBytes 8 payload)

/-- The code bits of an entry, c_0 first (10_state.md R32). -/
def CbEntry.code (e : CbEntry) : Code := (List.range e.len.toNat).map e.bits.getLsbD

/-- The payload's bits: the code of each input byte in input order (30_encoding.md R100); none at a byte without
a code (R244, R247). -/
def payloadBits (cb : Codebook) : List Byte → Option (List Bool)
  | [] => some []
  | s :: rest =>
    if (cb.get s).valid then (payloadBits cb rest).map fun bs => (cb.get s).code ++ bs
    else none

/-- Steps 3 to 5 of ENC_RUN (R245): header and table, payload, results. `s` is the state after steps 1 and 2. The
source bytes are those before the write; the overlap check makes the order unobservable (20_memory.md R72; log
entry 16). -/
def writeContainer (s : State) (payload size : Nat) (bits : List Bool) : State :=
  let header := headerBytes s.codebook payload
  let o := s.dstAddr.toNat + header.length
  { s with
    mem      := packBits o (s.mem.writeBytes s.dstAddr.toNat header) 0 bits
    bpBase   := addressReg o
    bpCap    := BitVec.ofNat 32 (ceil8 payload)
    bpBitcnt := BitVec.ofNat 64 bits.length
    outLen   := BitVec.ofNat 32 size
    res0     := BitVec.ofNat 64 payload
    res1     := BitVec.ofNat 64 s.codebook.count }

/-- ENC_RUN from the codebook on (R245): the size check, then the container. `bytes` are the source bytes. -/
def encodeWithCodebook (s : State) (bytes : List Byte) : Host.Outcome State Fault Refusal :=
  let payload := payloadLength s.freq s.codebook
  let size := containerSize s.codebook payload
  if s.dstCap.toNat < size then
    .next ({ s with outLen := 0, res0 := BitVec.ofNat 64 size }.complete .outputOverflow)
  else
    match payloadBits s.codebook bytes with
    | none => .fault .unknownSymbol
    | some bits => .next ((writeContainer s payload size bits).complete .ok)

/-- Steps 1 and 2 of ENC_RUN but for the codebook (R245): FREQ from the source bytes, then the tree. -/
def State.countAndPlant (s : State) : State :=
  plantForest { s with freq := countsOf s.srcBytes } (Forest.build (countsOf s.srcBytes))

/-- ENC_RUN: the source region encoded into a container in the destination region (R245). The weight check inside
the tree step cannot fire (R245); it stands here with the error it would be. -/
def execEncRun (s : State) : Host.Outcome State Fault Refusal :=
  if !s.srcInRange || !s.dstInRange then .next ({ s with outLen := 0 }.complete .addrRange)
  else if s.regionsOverlap then .next ({ s with outLen := 0 }.complete .regionOverlap)
  else if (countsOf s.srcBytes).overflows then .next ({ s with outLen := 0 }.complete .weightOverflow)
  else
    match generateCodebook s.countAndPlant with
    | none => .fault .arenaBroken
    | some cb => encodeWithCodebook { s.countAndPlant with codebook := cb } s.srcBytes

end Sys2Proof.Machine
end

