-- ==== Sys2Proof/Machine/Dispatch.lean ====
section
/-! DEFINITION. The meaning of each command, one arm per constructor of Instr (30_encoding.md R82). -/

namespace Sys2Proof.Machine

def exec (i : Instr) (s : State) : Host.Outcome State Fault Refusal :=
  match i with
  | .nop => Sys2Proof.Machine.execNop s
  | .ftClear => Sys2Proof.Machine.execFtClear s
  | .ftRecord sym => Sys2Proof.Machine.execFtRecord sym s
  | .ftWrite sym => Sys2Proof.Machine.execFtWrite sym s
  | .ftRead sym => Sys2Proof.Machine.execFtRead sym s
  | .ftScan => Sys2Proof.Machine.execFtScan s
  | .pqClear => Sys2Proof.Machine.execPqClear s
  | .pqPush node => Sys2Proof.Machine.execPqPush node s
  | .pqPop => Sys2Proof.Machine.execPqPop s
  | .treeBuild => Sys2Proof.Machine.execTreeBuild s
  | .nodeRead index => Sys2Proof.Machine.execNodeRead index s
  | .cbGen => Sys2Proof.Machine.execCbGen s
  | .cbRead sym chunk => Sys2Proof.Machine.execCbRead sym chunk s
  | .bpInit => Sys2Proof.Machine.execBpInit s
  | .bpPush bit => Sys2Proof.Machine.execBpPush bit s
  | .bpFinish => Sys2Proof.Machine.execBpFinish s
  | .brInit => Sys2Proof.Machine.execBrInit s
  | .brNext => Sys2Proof.Machine.execBrNext s
  | .encRun => Sys2Proof.Machine.execEncRun s
  | .decRun => Sys2Proof.Machine.execDecRun s
  | .reset => Sys2Proof.Machine.execReset s

end Sys2Proof.Machine
end

