-- ==== Sys2Proof/Machine/HostPort.lean ====
section
/-! DEFINITION. The outside's moves: the register window (10_state.md R22 to R25), the MEM port (20_memory.md R62),
issue (60_exceptions.md R300), writes while BUSY (R302) and the reset input (70_reset_and_hazards.md R340). -/

namespace Sys2Proof.Machine

/-- A register access the window admits: an aligned 32-bit word at offset 0x00..0xFC (10_state.md R25(a)). -/
def registerAdmitted (width : AccessWidth) (offset : Nat) : Bool :=
  decide (width = .word) && decide (offset % 4 = 0) && decide (offset < 0x100)

/-- Issue: PENDING <- w and STATUS.BUSY <- 1, nothing else (60_exceptions.md R300). -/
def State.issue (s : State) (w : Word) : State := { s with pending := some w }

/-- The word a host read of the window returns (10_state.md R22): CMD and the reserved offsets read 0. While BUSY
the value at issue is the present one, since no command writes before its completion (20_memory.md R71; R25(e)). -/
def State.readRegister (s : State) (offset : Nat) : Word :=
  match offset with
  | 0x00 => 0
  | 0x04 => s.status
  | 0x08 => s.srcAddr
  | 0x0C => s.srcLen
  | 0x10 => s.dstAddr
  | 0x14 => s.dstCap
  | 0x18 => s.arg.extractLsb' 0 32
  | 0x1C => s.arg.extractLsb' 32 32
  | 0x20 => s.res0.extractLsb' 0 32
  | 0x24 => s.res0.extractLsb' 32 32
  | 0x28 => s.res1.extractLsb' 0 32
  | 0x2C => s.res1.extractLsb' 32 32
  | 0x30 => s.outLen
  | 0x34 => s.pqCount.setWidth 32
  | 0x38 => s.ncount.setWidth 32
  | 0x3C => ((0#15 ++ BitVec.ofBool s.rootValid) ++ s.root)
  | 0x40 => s.cbCount.setWidth 32
  | 0x44 => s.bpBitcnt.extractLsb' 0 32
  | 0x48 => s.bpBitcnt.extractLsb' 32 32
  | 0x4C => s.brPos.extractLsb' 0 32
  | 0x50 => s.brPos.extractLsb' 32 32
  | 0x54 => s.pqSeq
  | _ => 0

/-- A host write of the window while the block is idle (10_state.md R22, R25): CMD issues, an operand register
takes the value, a half of ARG takes its 32 bits, and every other offset ignores the write. -/
def State.writeRegister (s : State) (offset : Nat) (v : Word) : State :=
  match offset with
  | 0x00 => s.issue v
  | 0x08 => { s with srcAddr := v }
  | 0x0C => { s with srcLen := v }
  | 0x10 => { s with dstAddr := v }
  | 0x14 => { s with dstCap := v }
  | 0x18 => { s with arg := s.arg.extractLsb' 32 32 ++ v }
  | 0x1C => { s with arg := v ++ s.arg.extractLsb' 0 32 }
  | _ => s

/-- A host write dropped because BUSY is 1 (60_exceptions.md R302). -/
def State.dropWrite (s : State) : State := { s with ovr := true }

/-- The answer of a host read is kept for the outside. -/
def State.reply (s : State) (r : HostReply) : State := { s with replies := r :: s.replies }

/-- The reset input changes level (70_reset_and_hazards.md R340): asserting it resets the block and abandons a
pending command; releasing it changes no item of the block. -/
def State.setReset (s : State) (asserted : Bool) : State :=
  if asserted then { s.resetBlock with rst := true } else { s with rst := false }

/-- A host access of the window or of MEM, with rst released. -/
def hostAccess (s : State) : HostMove → Host.Outcome State Fault Refusal
  | .readReg width offset =>
    if registerAdmitted width offset then .next (s.reply (.reg (s.readRegister offset)))
    else .refused .registerAccessForm
  | .writeReg width offset v =>
    if !registerAdmitted width offset then .refused .registerAccessForm
    else if s.busy then .next s.dropWrite
    else .next (s.writeRegister offset v)
  | .readMem a =>
    if a < s.cfg.memBytes then .next (s.reply (.byte (s.mem.read a)))
    else .refused .memoryAddress
  | .writeMem a v =>
    if s.cfg.memBytes ≤ a then .refused .memoryAddress
    else if s.busy then .next s.dropWrite
    else .next { s with mem := s.mem.write a v }
  | .rst asserted => .next (s.setReset asserted)

/-- One move of the outside. While rst is asserted host accesses are not admitted (70_reset_and_hazards.md R340). -/
def hostMove (s : State) (m : HostMove) : Host.Outcome State Fault Refusal :=
  match m with
  | .rst asserted => .next (s.setReset asserted)
  | .readReg _ _ | .writeReg _ _ _ | .readMem _ | .writeMem _ _ =>
    if s.rst then .refused .accessInReset else hostAccess s m

/-- Whose turn it is: plain data decides (20_memory.md R71; log entry 1). -/
inductive Turn where
  /-- The pending command completes (60_exceptions.md R301). -/
  | completion (word : Word)
  /-- The outside makes its next move. -/
  | outside (move : HostMove) (rest : List HostEvent)
  /-- The block is idle and no move is to come. -/
  | idle
deriving DecidableEq, Repr

/-- The next event. An asserted reset takes precedence over a completion (70_reset_and_hazards.md R340). While BUSY
the command completes unless the next move falls inside the window (60_exceptions.md R301, R310). -/
def State.turn (s : State) : Turn :=
  match s.host with
  | [] =>
    match s.pending with
    | some w => if s.rst then .idle else .completion w
    | none => .idle
  | e :: rest =>
    match s.pending with
    | some w => if e.inBusy || s.rst then .outside e.move rest else .completion w
    | none => .outside e.move rest

end Sys2Proof.Machine
end

