-- ==== Sys2Proof/Machine/Completion.lean ====
section
/-! DEFINITION. The completion of a command word (60_exceptions.md R301) and where a word waits for it. -/

namespace Sys2Proof.Machine

/-- The completion of a word: decode it, then the command's meaning, or the ILLEGAL_COMMAND outcome, which changes
nothing else (60_exceptions.md R301, R304; 30_encoding.md R83, R84). -/
def completeWord (w : Word) (s : State) : Host.Outcome State Fault Refusal :=
  match decode w with
  | .ok i => exec i s
  | .error _ => .next (s.complete .illegalCommand)

/-- A word waits in PENDING, and the next event is its completion: rst is released and the next outside move does
not fall inside the window. -/
def State.awaitCompletion (s : State) (w : Word) : State :=
  { s with
    pending := some w
    rst := false
    host := match s.host with
      | [] => []
      | e :: rest => { e with inBusy := false } :: rest }

end Sys2Proof.Machine
end

