-- ==== Sys2Proof/Machine/Step.lean ====
section
/-! DEFINITION. One step of the machine: one event of the total order of 20_memory.md R71. -/

namespace Sys2Proof.Machine

/-- One event: the completion of the pending command, the outside's next move, or nothing when the block is idle
and no move is to come (it keeps all state while idle, 60_exceptions.md R316). -/
def step (s : State) : Host.Outcome State Fault Refusal :=
  match s.turn with
  | .completion w => completeWord w s
  | .outside m rest => hostMove { s with host := rest } m
  | .idle => .next s

/-- The state in which the very next step completes the command word `w` (bit 0 the least significant, the bits
above `nbits` zero). The block fetches no instruction: a command word reaches it through CMD, which puts it into
PENDING (60_exceptions.md R300; log entry 4). -/
def State.withFetchWord (s : State) (nbits w : Nat) : State :=
  s.awaitCompletion (BitVec.ofNat 32 (w % 2 ^ nbits))

end Sys2Proof.Machine
end

