-- ==== Sys2Proof/Machine/Assembler.lean ====
section
/-! DEFINITION. The assembler form of a command and the host program's notation (30_encoding.md R86, R87), on
tokens: reading the letters of a text is left to whoever makes the tokens (log entry 23). -/

namespace Sys2Proof.Machine

/-- The mnemonic of a command (30_encoding.md R82). -/
def mnemonicOf : Instr → String
  | .nop => "NOP"
  | .ftClear => "FT_CLEAR"
  | .ftRecord _ => "FT_RECORD"
  | .ftWrite _ => "FT_WRITE"
  | .ftRead _ => "FT_READ"
  | .ftScan => "FT_SCAN"
  | .pqClear => "PQ_CLEAR"
  | .pqPush _ => "PQ_PUSH"
  | .pqPop => "PQ_POP"
  | .treeBuild => "TREE_BUILD"
  | .nodeRead _ => "NODE_READ"
  | .cbGen => "CB_GEN"
  | .cbRead _ _ => "CB_READ"
  | .bpInit => "BP_INIT"
  | .bpPush _ => "BP_PUSH"
  | .bpFinish => "BP_FINISH"
  | .brInit => "BR_INIT"
  | .brNext => "BR_NEXT"
  | .encRun => "ENC_RUN"
  | .decRun => "DEC_RUN"
  | .reset => "RESET"

/-- An operand of an assembler line: a number (decimal or hexadecimal), or a character in quotes, which stands for
its ASCII code (R86; the ASCII table is PRESUMED, from general knowledge as the rule says). -/
inductive AsmOperand where
  | number (n : Nat)
  | char (c : Char)
deriving DecidableEq, Repr

/-- The value of a number operand; a character is for a symbol only (R86). -/
def AsmOperand.numberValue : AsmOperand → Option Nat
  | .number n => some n
  | .char _ => none

/-- The symbol an operand names, 0..255 (R86). A number above 255 and a character beyond ASCII name none: the rule gives no
outcome for them, and the model's choice is log entry 24. -/
def AsmOperand.symbol (o : AsmOperand) : Option Byte :=
  match o with
  | .number n => if n < 256 then some (BitVec.ofNat 8 n) else none
  | .char c => if c.toNat < 128 then some (BitVec.ofNat 8 c.toNat) else none

/-- A 16-bit index operand (R86). A number of 2^16 or more is none, and a character too: the rule gives no outcome for
them, and the model's choice is log entry 24. -/
def AsmOperand.index (o : AsmOperand) : Option (BitVec 16) :=
  match o.numberValue with
  | some n => if n < 2 ^ 16 then some (BitVec.ofNat 16 n) else none
  | none => none

/-- The command of an assembler line: its mnemonic, then its operands (R86). An unknown mnemonic, a wrong number of
operands and an operand that does not fit its field make no command (log entry 24, the model's choice). -/
def parseLine (mnemonic : String) (operands : List AsmOperand) : Option Instr :=
  match mnemonic, operands with
  | "NOP", [] => some .nop
  | "FT_CLEAR", [] => some .ftClear
  | "FT_RECORD", [sym] => sym.symbol.map .ftRecord
  | "FT_WRITE", [sym] => sym.symbol.map .ftWrite
  | "FT_READ", [sym] => sym.symbol.map .ftRead
  | "FT_SCAN", [] => some .ftScan
  | "PQ_CLEAR", [] => some .pqClear
  | "PQ_PUSH", [node] => node.index.map .pqPush
  | "PQ_POP", [] => some .pqPop
  | "TREE_BUILD", [] => some .treeBuild
  | "NODE_READ", [index] => index.index.map .nodeRead
  | "CB_GEN", [] => some .cbGen
  | "CB_READ", [sym, chunk] => sym.symbol.bind fun s => chunk.index.map (.cbRead s)
  | "BP_INIT", [] => some .bpInit
  | "BP_PUSH", [bit] => (bit.numberValue.bind fun n => if n < 256 then some (BitVec.ofNat 8 n) else none).map .bpPush
  | "BP_FINISH", [] => some .bpFinish
  | "BR_INIT", [] => some .brInit
  | "BR_NEXT", [] => some .brNext
  | "ENC_RUN", [] => some .encRun
  | "DEC_RUN", [] => some .decRun
  | "RESET", [] => some .reset
  | _, _ => none

/-- The assembled word {OPC, A, N} of a line (R86). A line may assemble to a word that the field check refuses, as
`BP_PUSH 2` does (95_test_vectors.md V2.5.6). -/
def assemble (mnemonic : String) (operands : List AsmOperand) : Option Word :=
  (parseLine mnemonic operands).map encode

/-- The names of the register window (10_state.md R22). -/
inductive HostReg where
  | cmd | status | srcAddr | srcLen | dstAddr | dstCap | argLo | argHi | res0Lo | res0Hi | res1Lo | res1Hi
  | outLen | pqCount | nodeCount | root | cbCount | bpBitcntLo | bpBitcntHi | brPosLo | brPosHi | pqSeq
deriving DecidableEq, Repr

/-- The offset of a register (10_state.md R22). -/
def HostReg.offset : HostReg → Nat
  | .cmd => 0x00
  | .status => 0x04
  | .srcAddr => 0x08
  | .srcLen => 0x0C
  | .dstAddr => 0x10
  | .dstCap => 0x14
  | .argLo => 0x18
  | .argHi => 0x1C
  | .res0Lo => 0x20
  | .res0Hi => 0x24
  | .res1Lo => 0x28
  | .res1Hi => 0x2C
  | .outLen => 0x30
  | .pqCount => 0x34
  | .nodeCount => 0x38
  | .root => 0x3C
  | .cbCount => 0x40
  | .bpBitcntLo => 0x44
  | .bpBitcntHi => 0x48
  | .brPosLo => 0x4C
  | .brPosHi => 0x50
  | .pqSeq => 0x54

/-- A line of a host program (R87). `wait k` finds BUSY = 1 at its first k polls: k stands for CYCLES, on which
nothing else depends (70_reset_and_hazards.md R357). `racing` is a move made without waiting, inside the window. -/
inductive HostLine where
  | wr (reg : HostReg) (v : Word)
  | wrArg (v : DWord)
  | rd (reg : HostReg)
  | mb (a : Nat) (v : Byte)
  | mbs (a : Nat) (text : List Byte)
  | issue (w : Word)
  | wait (polls : Nat)
  | command (i : Instr) (polls : Nat)
  | racing (m : HostMove)
deriving DecidableEq, Repr

/-- A move made after a WAIT, or while the block is idle. -/
def quietMove (m : HostMove) : HostEvent := { move := m, inBusy := false }

/-- A read of STATUS that finds BUSY = 1. -/
def busyPoll : HostEvent := { move := .readReg .word 0x04, inBusy := true }

/-- WAIT: RD STATUS until bit 0 reads 0 (R87). -/
def waitMoves (polls : Nat) : List HostEvent :=
  List.replicate polls busyPoll ++ [quietMove (.readReg .word 0x04)]

/-- MB a+k, byte k, for each k (R87). -/
def textMoves : Nat → List Byte → List HostEvent
  | _, [] => []
  | a, v :: vs => quietMove (.writeMem a v) :: textMoves (a + 1) vs

/-- The moves of a line (R87). -/
def HostLine.moves : HostLine → List HostEvent
  | .wr reg v => [quietMove (.writeReg .word reg.offset v)]
  | .wrArg v =>
    [quietMove (.writeReg .word 0x18 (v.extractLsb' 0 32)), quietMove (.writeReg .word 0x1C (v.extractLsb' 32 32))]
  | .rd reg => [quietMove (.readReg .word reg.offset)]
  | .mb a v => [quietMove (.writeMem a v)]
  | .mbs a text => textMoves a text
  | .issue w => [quietMove (.writeReg .word 0x00 w)]
  | .wait polls => waitMoves polls
  | .command i polls => quietMove (.writeReg .word 0x00 (encode i)) :: waitMoves polls
  | .racing m => [{ move := m, inBusy := true }]

/-- The moves of a host program, one line after the other (R87). -/
def programMoves (lines : List HostLine) : List HostEvent := lines.flatMap HostLine.moves

end Sys2Proof.Machine
end

