-- ==== Sys2Proof/Safety.lean ====
section
/-! DEFINITION. What claims about the machine are stated with: frames over MEM, the paths and the making of a tree, and the
invariant that every step keeps and that rules every fault out. -/

namespace Sys2Proof.Machine

/-! ## Frames -/

/-- Every byte of MEM reads as before. -/
def SameMem (s t : State) : Prop := ∀ a, t.mem.read a = s.mem.read a

/-- Every byte of MEM outside [lo, lo + n) reads as before. -/
def SameMemOutside (lo n : Nat) (s t : State) : Prop :=
  ∀ a, ¬ (lo ≤ a ∧ a < lo + n) → t.mem.read a = s.mem.read a

/-- What a command's end leaves of the model's own fields, and PENDING empty (60_exceptions.md R301). -/
def Completed (s t : State) : Prop :=
  t.pending = none ∧ t.cfg = s.cfg ∧ t.host = s.host ∧ t.replies = s.replies ∧ t.rst = s.rst

/-- Every item of the state record but MEM is at its reset value (70_reset_and_hazards.md R342); PENDING is empty. -/
def AtResetValues (t : State) : Prop :=
  t.srcAddr = 0 ∧ t.srcLen = 0 ∧ t.dstAddr = 0 ∧ t.dstCap = 0 ∧ t.arg = 0 ∧ t.res0 = 0 ∧ t.res1 = 0 ∧
  t.outLen = 0 ∧ t.status = 0 ∧ t.pending = none ∧ (∀ c, t.freq.get c = 0) ∧ t.ncount = 0 ∧ t.nodes = [] ∧
  t.root = 0 ∧ t.rootValid = false ∧ t.queue = [] ∧ t.pqCount = 0 ∧ t.pqSeq = 0 ∧
  (∀ c, (t.codebook.get c).valid = false ∧ (t.codebook.get c).len = 0 ∧ (t.codebook.get c).bits = 0) ∧
  t.cbCount = 0 ∧ t.bpBase = 0 ∧ t.bpCap = 0 ∧ t.bpBitcnt = 0 ∧ t.brBase = 0 ∧ t.brBytes = 0 ∧ t.brLimit = 0 ∧
  t.brPos = 0

/-! ## Words (30_encoding.md R82 to R84), written on the word's number -/

/-- OPC, bits 31:24 (30_encoding.md R80). -/
def wordOpc (w : Word) : Nat := w.toNat / 2 ^ 24

/-- A, bits 23:16 (30_encoding.md R80). -/
def wordA (w : Word) : Nat := w.toNat / 2 ^ 16 % 2 ^ 8

/-- N, bits 15:0 (30_encoding.md R80). -/
def wordN (w : Word) : Nat := w.toNat % 2 ^ 16

/-- The 21 opcodes of the opcode map (30_encoding.md R82). -/
def definedOpcodes : List Nat :=
  [0x00, 0x10, 0x11, 0x12, 0x13, 0x14, 0x20, 0x21, 0x22, 0x30, 0x31, 0x40, 0x41, 0x50, 0x51, 0x52, 0x60, 0x61, 0x70,
    0x80, 0xFF]

/-- The opcodes whose row has an operand in column A (30_encoding.md R82). -/
def opcodesWithA : List Nat := [0x11, 0x12, 0x13, 0x41, 0x51]

/-- The opcodes whose row has an operand in column N (30_encoding.md R82). -/
def opcodesWithN : List Nat := [0x21, 0x31, 0x41]

/-- The four conditions of the field check (30_encoding.md R84). -/
def legalFields (w : Word) : Prop :=
  (wordOpc w ∉ opcodesWithA → wordA w = 0) ∧ (wordOpc w ∉ opcodesWithN → wordN w = 0) ∧
  (wordOpc w = 0x51 → wordA w ≤ 1) ∧ (wordOpc w = 0x41 → wordN w ≤ 3)

/-! ## Runs of commands -/

/-- The commands one after the other, each completing with ERR = OK. -/
def runOk : List Instr → State → Option State
  | [], s => some s
  | i :: is, s =>
    match exec i s with
    | .next t => if t.err = .ok then runOk is t else none
    | .fault _ => none
    | .refused _ => none

/-- How often a byte stands in the source region: |{ k < SRC_LEN : MEM[SRC_ADDR + k] = c }| (41_frequency_table.md R125). -/
def sourceCount (s : State) (c : Byte) : Nat :=
  ((Finset.range s.srcLen.toNat).filter fun k => s.mem.read (s.srcAddr.toNat + k) = c).card

/-- The source and the destination region are in range and do not overlap (20_memory.md R63, R64). -/
def RegionsOk (s : State) : Prop :=
  s.srcAddr.toNat + s.srcLen.toNat ≤ s.cfg.memBytes ∧ s.dstAddr.toNat + s.dstCap.toNat ≤ s.cfg.memBytes ∧
  ¬ (0 < s.srcLen.toNat ∧ 0 < s.dstCap.toNat ∧ s.srcAddr.toNat < s.dstAddr.toNat + s.dstCap.toNat ∧
      s.dstAddr.toNat < s.srcAddr.toNat + s.srcLen.toNat)

/-! ## Paths (00_scope.md R12, R14) -/

/-- The record a path leads to from record i, the empty path to i itself. -/
def followPath (nodes : List Node) : Nat → Code → Option Node
  | i, [] => nodes[i]?
  | i, b :: c =>
    match childOf nodes i b with
    | none => none
    | some j => followPath nodes j.toNat c

/-- The index a path leads to, where every link on it is present (00_scope.md R14). -/
def pathIndex (nodes : List Node) : Nat → Code → Option Nat
  | i, [] => some i
  | i, b :: c => (childOf nodes i b).bind fun j => pathIndex nodes j.toNat c

/-- The code a symbol has in a codebook (10_state.md R32). -/
def Codebook.codeOf (cb : Codebook) (s : Byte) : Option Code :=
  if (cb.get s).valid then some (cb.get s).code else none

/-! ## Containers (30_encoding.md Part B) -/

/-- The table entries stand at a MEM address, one after the other: symbol, code_bit_length, code_bits, with any
padding bits (30_encoding.md R97, R101, R104). -/
def TableAt (m : Memory) : Nat → List (Byte × Code) → Prop
  | _, [] => True
  | a, e :: es =>
    m.read a = e.1 ∧ (m.read (a + 1)).toNat = e.2.length ∧
    (∀ j (h : j < e.2.length), m.bitAt (a + 2) j = e.2[j]) ∧ TableAt m (a + 2 + (e.2.length + 7) / 8) es

/-- The bytes the table takes (30_encoding.md R105). -/
def tableLength (es : List (Byte × Code)) : Nat := (es.map fun e => 2 + (e.2.length + 7) / 8).sum

/-- A table in order: at most 256 entries (30_encoding.md R96), no symbol twice (R103), codes of 1 to 255 bits of which
none is a prefix of another (R102). -/
structure GoodTable (es : List (Byte × Code)) : Prop where
  count : es.length ≤ 256
  nodup : (es.map Prod.fst).Nodup
  lens  : ∀ e ∈ es, 1 ≤ e.2.length ∧ e.2.length ≤ 255
  free  : es.Pairwise fun d e => ¬ d.2 <+: e.2 ∧ ¬ e.2 <+: d.2

/-- What is wrong with the entry at offset q of a container, when `before` are the entries before it: fewer than 2 bytes
are left, its length is 0, its symbol is in an entry before it, fewer bytes are left than its code needs, or its code
conflicts with one before it (48_decoder.md R262(a) to R262(e)). -/
def BadEntry (m : Memory) (src len : Nat) (before : List (Byte × Code)) (q : Nat) : Prop :=
  let codeLen := (m.read (src + q + 1)).toNat
  let code : Code := (List.range codeLen).map (m.bitAt (src + q + 2))
  len < q + 2 ∨ codeLen = 0 ∨ m.read (src + q) ∈ before.map Prod.fst ∨ len < q + 2 + (codeLen + 7) / 8 ∨
  ∃ e ∈ before, e.2 <+: code ∨ code <+: e.2

/-- The paths that the root and the codes of these entries take up in a trie (48_decoder.md R265, R266). -/
def OnTable (es : List (Byte × Code)) (c : Code) : Prop := c = [] ∨ ∃ e ∈ es, c <+: e.2

/-- The trie that DEC_RUN builds for a table (48_decoder.md R265, R266; 10_state.md R28(b), R28(f)): every weight 0, a Leaf
at the end of each code, an Internal record at the root and at each proper beginning of a code, and no other record;
each record has one path from the root, a child comes after its parent, and the records of an entry come after those
of the entries before it. -/
structure TrieOf (nodes : List Node) (es : List (Byte × Code)) : Prop where
  weights  : ∀ n ∈ nodes, n.weight = 0
  leaf     : ∀ x c, followPath nodes 0 c = some (.leaf x 0) ↔ (x, c) ∈ es
  internal : ∀ c, (∃ l r, followPath nodes 0 c = some (.internal 0 l r)) ↔ c = [] ∨ ∃ e ∈ es, c <+: e.2 ∧ c ≠ e.2
  onePath  : ∀ k, k < nodes.length → ∃ c, pathIndex nodes 0 c = some k ∧ ∀ d, pathIndex nodes 0 d = some k → d = c
  forward  : ∀ i b j, childOf nodes i b = some j → i < j.toNat ∧ j.toNat < nodes.length
  order    : ∀ before after c d i j, es = before ++ after → pathIndex nodes 0 c = some i → pathIndex nodes 0 d = some j →
    OnTable before c → ¬ OnTable before d → i < j

/-- What a DEC_RUN that fails with a code leaves (48_decoder.md R269): no tree, no codes, OUT_LEN = 0, RES0 as before but for
OUTPUT_OVERFLOW, and everything else as it was. -/
def DecodeFails (s t : State) (e : ErrCode) : Prop :=
  (∀ c, t.codebook.get c = { valid := false, len := 0, bits := 0 }) ∧ SameMem s t ∧
  (e ≠ .outputOverflow → t.res0 = s.res0) ∧
  t = { s with nodes := [], root := 0, rootValid := false, codebook := t.codebook, outLen := 0, res0 := t.res0,
               err := e, pending := none }

/-! ## The order of TREE_BUILD (43_tree_builder.md R163, R164) -/

/-- Record j is in the queue when record i is made: it was made before, and no record made before i has it as a child. -/
def waits (nodes : List Node) (i j : Nat) : Prop :=
  j < i ∧ ∀ k b m, k < i → childOf nodes k b = some m → m.toNat ≠ j

/-- The key of record j is below that of record k: the weight and, among equals, the sequence number (42_priority_queue.md
R141), which for a record of TREE_BUILD is its index, as PQ_SEQ and NCOUNT both start at 0 and go up together (R163). -/
def keyBefore (nodes : List Node) (j k : Nat) : Prop :=
  ∃ m n, nodes[j]? = some m ∧ nodes[k]? = some n ∧
    (m.weight.toNat < n.weight.toNat ∨ (m.weight = n.weight ∧ j < k))

/-- Of the records in the queue when record i is made, l has the least key and r the least of the others (R164;
42_priority_queue.md R142). -/
def takesTheTwoLeast (nodes : List Node) (i l r : Nat) : Prop :=
  waits nodes i l ∧ waits nodes i r ∧ keyBefore nodes l r ∧
  ∀ j, waits nodes i j → j ≠ l → j ≠ r → keyBefore nodes r j

/-! ## The invariant -/

/-- MEM is in canonical form and lists no address at or beyond MEM_BYTES (20_memory.md R60). -/
def State.MemOk (s : State) : Prop :=
  s.mem.wf = true ∧ ∀ c ∈ s.mem, c.1 < s.cfg.memBytes

/-- The queue holds at most 256 entries with rising sequence numbers below PQ_SEQ (42_priority_queue.md R140, R143). -/
def State.QueueOk (s : State) : Prop :=
  s.queue.length ≤ pqCap ∧
  s.queue.Pairwise (fun a b => a.seq.toNat < b.seq.toNat) ∧
  ∀ e ∈ s.queue, e.seq.toNat < s.pqSeq.toNat

/-- Every child index of an allocated record is below NCOUNT (10_state.md R28(a)). -/
def childrenAllocated (nodes : List Node) : Prop :=
  ∀ i b j, childOf nodes i b = some j → j.toNat < nodes.length

/-- Every child index is below its parent's, as in a tree of TREE_BUILD, or every one is above it, as in a trie of
DEC_RUN (10_state.md R28(b)). -/
def childrenOrdered (nodes : List Node) : Prop :=
  (∀ i b j, childOf nodes i b = some j → j.toNat < i) ∨ (∀ i b j, childOf nodes i b = some j → i < j.toNat)

/-- Every path from the root ends at an allocated record, and none is longer than 255 (10_state.md R28(a), R29). -/
def pathsBounded (nodes : List Node) (root : Nat) : Prop :=
  ∀ c, c.length = 256 → followPath nodes root c = none

/-- The links of the arena are in order (10_state.md R28(a), R28(b), R28(d), R29). -/
def State.LinksOk (s : State) : Prop :=
  s.nodes.length ≤ 65536 ∧ childrenAllocated s.nodes ∧ childrenOrdered s.nodes ∧
  (s.rootValid = true → s.root.toNat < s.nodes.length ∧ pathsBounded s.nodes s.root.toNat)

/-- ROOT, where ROOT_VALID = 1 (10_state.md R27). -/
def State.rootIndex (s : State) : Option Nat := if s.rootValid then some s.root.toNat else none

/-- Single ownership: an index stands in at most one child field, and exactly the records other than the root stand in
one (10_state.md R28(c)). -/
def singleOwnership (nodes : List Node) (root : Option Nat) : Prop :=
  (∀ i b i' b' j, childOf nodes i b = some j → childOf nodes i' b' = some j → i = i' ∧ b = b') ∧
  ∀ k, k < nodes.length → (root ≠ some k ↔ ∃ i b j, childOf nodes i b = some j ∧ j.toNat = k)

/-- A tree of TREE_BUILD: children before their parents, and every Internal record has two, whose weights make its own
(10_state.md R28(b), R28(e)). -/
def builtShape (nodes : List Node) : Prop :=
  (∀ i b j, childOf nodes i b = some j → j.toNat < i) ∧
  ∀ (i : Nat) (w : DWord) (l r : Option NodeIndex), nodes[i]? = some (.internal w l r) →
    ∃ (j k : NodeIndex) (m n : Node), l = some j ∧ r = some k ∧ nodes[j.toNat]? = some m ∧ nodes[k.toNat]? = some n ∧
      w.toNat = m.weight.toNat + n.weight.toNat

/-- A trie of DEC_RUN: children after their parents, and every weight 0 (10_state.md R28(b), R28(f)). -/
def trieShape (nodes : List Node) : Prop :=
  (∀ i b j, childOf nodes i b = some j → i < j.toNat) ∧ ∀ n ∈ nodes, n.weight = 0

/-- The arena's invariants (10_state.md R28, R29). -/
def State.ArenaOk (s : State) : Prop :=
  s.LinksOk ∧ singleOwnership s.nodes s.rootIndex ∧ (builtShape s.nodes ∨ trieShape s.nodes)

/-- A codebook entry holds a code of 1 to 255 bits with zeros above it, or no code and zeros (10_state.md R32). -/
def CbEntry.Ok (e : CbEntry) : Prop :=
  (e.valid = true → 1 ≤ e.len.toNat ∧ e.bits.toNat < 2 ^ e.len.toNat) ∧
  (e.valid = false → e.len = 0 ∧ e.bits = 0)

/-- Every entry of the codebook is in order (10_state.md R32). -/
def State.CodebookOk (s : State) : Prop := ∀ c, (s.codebook.get c).Ok

/-- BP_BASE + BP_CAP <= MEM_BYTES and BP_BITCNT <= 8 × BP_CAP (10_state.md R33). -/
def State.PackerOk (s : State) : Prop :=
  s.bpBase.toNat + s.bpCap.toNat ≤ s.cfg.memBytes ∧ s.bpBitcnt.toNat ≤ 8 * s.bpCap.toNat

/-- BR_BASE + BR_BYTES <= MEM_BYTES and BR_POS <= BR_LIMIT (10_state.md R34). -/
def State.ReaderOk (s : State) : Prop :=
  s.brBase.toNat + s.brBytes.toNat ≤ s.cfg.memBytes ∧ s.brPos.toNat ≤ s.brLimit.toNat

/-- STATUS.ERR is never UNKNOWN_SYMBOL (60_exceptions.md R308), and no command is pending while rst is asserted
(70_reset_and_hazards.md R340). -/
def State.ControlOk (s : State) : Prop :=
  s.err ≠ .unknownSymbol ∧ (s.rst = true → s.pending = none)

/-- The invariant of the machine: it holds at reset, every step keeps it, and under it no step faults. -/
structure State.Inv (s : State) : Prop where
  mem      : s.MemOk
  queue    : s.QueueOk
  arena    : s.ArenaOk
  codebook : s.CodebookOk
  packer   : s.PackerOk
  reader   : s.ReaderOk
  control  : s.ControlOk

end Sys2Proof.Machine
end

