-- ==== Sys2Proof/Certificates/Slice0/Obligations.lean ====
section
/-! DEFINITION. What is claimed of the model. Each statement's docstring names the rule of spec/ it formalises.
A field update `{ s with … }` states the frame: every field it does not name is unchanged. -/

open Sys2Proof Sys2Proof.Machine

/-! ## The encoding (30_encoding.md) -/

/-- Words written out from 30_encoding.md R82 and the examples of the command rules decode to their commands, and
illegal ones do not decode (R83, R84). -/
def Obligations.SampleWordsDecode : Prop :=
  decode 0x00000000 = .ok .nop ∧ decode 0x12460000 = .ok (.ftWrite 0x46) ∧ decode 0x14000000 = .ok .ftScan ∧
  decode 0x21000007 = .ok (.pqPush 7) ∧ decode 0x3100000A = .ok (.nodeRead 10) ∧
  decode 0x41410002 = .ok (.cbRead 0x41 2) ∧ decode 0x51010000 = .ok (.bpPush 1) ∧
  decode 0x61000000 = .ok .brNext ∧ decode 0x70000000 = .ok .encRun ∧ decode 0x80000000 = .ok .decRun ∧
  decode 0xFF000000 = .ok .reset ∧ decode 0x01000000 = .error (.reservedOpcode 0x01) ∧
  decode 0x51020000 = .error (.fieldCheck 0x51) ∧ decode 0x41410004 = .error (.fieldCheck 0x41) ∧
  decode 0xFF000001 = .error (.fieldCheck 0xFF)

/-- No bit of a command is lost: decoding the assembled word of a legal command gives it back (R80, R82, R85). -/
def Obligations.EncodeThenDecode : Prop :=
  ∀ i : Instr, i.WellFormed → decode (encode i) = .ok i

/-- A word that decodes is the assembled word of the command it decodes to, which is legal (R80, R82, R84, R85). -/
def Obligations.DecodeThenEncode : Prop :=
  ∀ (w : Word) (i : Instr), decode w = .ok i → i.WellFormed ∧ encode i = w

/-- R83: a reserved opcode completes with ILLEGAL_COMMAND, code 5, and changes no other state. -/
def Obligations.ReservedOpcodeIsIllegal : Prop :=
  ErrCode.illegalCommand.number = 5 ∧
  ∀ (s : State) (w : Word), s.turn = .completion w → wordOpc w ∉ definedOpcodes →
    step s = .next { s with err := .illegalCommand, pending := none }

/-- R84, R85: with a defined opcode the four field conditions decide; an illegal word completes with ILLEGAL_COMMAND
and changes no other state, and a legal one is a command. -/
def Obligations.FieldCheckDecidesLegality : Prop :=
  ∀ (s : State) (w : Word), s.turn = .completion w → wordOpc w ∈ definedOpcodes →
    (¬ legalFields w → step s = .next { s with err := .illegalCommand, pending := none }) ∧
    (legalFields w → ∃ i, decode w = .ok i ∧ i.opcode.toNat = wordOpc w ∧ i.fieldA.toNat = wordA w ∧
      i.fieldN.toNat = wordN w)

/-! ## Steps (60_exceptions.md section 1) -/

/-- A step runs the decoded command (R301): with a word in PENDING, rst released and no outside move that falls inside
the window, the step is the command's meaning; otherwise the step is the outside's next move, or nothing when no move
is to come. Which outside moves fall inside the window is the model's own input (log entry 1, DESIGN CHOICE). That a word
pending while rst is asserted is not run (clauses 2 and 3; a state no run reaches) is log entry 5, and that an idle block
with no move to come steps to the same state (clause 3) is log entry 20: both the model's choice, no rule of the spec. -/
def Obligations.StepRunsTheDecodedCommand : Prop :=
  (∀ (s : State) (w : Word) (i : Instr), s.pending = some w → s.rst = false →
    (∀ e ∈ s.host.head?, e.inBusy = false) → decode w = .ok i → step s = exec i s) ∧
  (∀ (s : State) (e : HostEvent) (rest : List HostEvent), s.host = e :: rest →
    (s.pending = none ∨ s.rst = true ∨ e.inBusy = true) → step s = hostMove { s with host := rest } e.move) ∧
  (∀ s : State, s.host = [] → (s.pending = none ∨ s.rst = true) → step s = .next s)

/-- A completed command leaves PENDING empty and BUSY 0, and touches no field that is the model's own (R301). -/
def Obligations.CompletionEndsTheWindow : Prop :=
  ∀ (i : Instr) (s t : State), exec i s = .next t → Completed s t ∧ t.busy = false

/-- R300: a write of CMD while idle latches the word and changes nothing else, and nothing but such a write makes
a command pending. -/
def Obligations.IssueIsTheOnlyStart : Prop :=
  (∀ (s : State) (w : Word), s.busy = false → s.rst = false →
    hostMove s (.writeReg .word 0x00 w) = .next { s with pending := some w }) ∧
  (∀ (s t : State) (w : Word), step s = .next t → s.pending ≠ some w → t.pending = some w →
    s.busy = false ∧ ∃ rest, s.turn = .outside (.writeReg .word 0x00 w) rest)

/-- R302: while BUSY every admitted host write is dropped and sets OVR (a dropped CMD write queues nothing), reads are
answered with the values at issue, since nothing else changes inside the window (10_state.md R25(e), 20_memory.md R62),
and a set OVR stays until the reset input or a RESET command. -/
def Obligations.WritesWhileBusyAreDropped : Prop :=
  (∀ (s : State) (offset : Nat) (v : Word), s.busy = true → s.rst = false → offset % 4 = 0 → offset < 0x100 →
    hostMove s (.writeReg .word offset v) = .next { s with ovr := true } ∧
    hostMove s (.readReg .word offset) = .next { s with replies := .reg (s.readRegister offset) :: s.replies }) ∧
  (∀ (s : State) (a : Nat) (v : Byte), s.busy = true → s.rst = false → a < s.cfg.memBytes →
    hostMove s (.writeMem a v) = .next { s with ovr := true } ∧
    hostMove s (.readMem a) = .next { s with replies := .byte (s.mem.read a) :: s.replies }) ∧
  (∀ s t : State, step s = .next t → s.busy = true → t.busy = true →
    t = { s with host := t.host, replies := t.replies, ovr := t.ovr, rst := t.rst }) ∧
  (∀ s t : State, step s = .next t → s.ovr = true → t.ovr = false →
    (∃ w, s.turn = .completion w ∧ decode w = .ok .reset) ∨ (∃ rest, s.turn = .outside (.rst true) rest))

/-! ## The register window and the MEM port -/

/-- A write of the window while idle (10_state.md R21, R22, R25(b), R25(d)): an operand register takes the value, a
half of ARG changes only its 32 bits, and a read-only register or a reserved offset ignores it. -/
def Obligations.OperandRegisterWrites : Prop :=
  ∀ (s : State) (v : Word), s.busy = false → s.rst = false →
    hostMove s (.writeReg .word 0x08 v) = .next { s with srcAddr := v } ∧
    hostMove s (.writeReg .word 0x0C v) = .next { s with srcLen := v } ∧
    hostMove s (.writeReg .word 0x10 v) = .next { s with dstAddr := v } ∧
    hostMove s (.writeReg .word 0x14 v) = .next { s with dstCap := v } ∧
    (∃ t, hostMove s (.writeReg .word 0x18 v) = .next t ∧ t = { s with arg := t.arg } ∧
      t.arg.toNat % 2 ^ 32 = v.toNat ∧ t.arg.toNat / 2 ^ 32 = s.arg.toNat / 2 ^ 32) ∧
    (∃ t, hostMove s (.writeReg .word 0x1C v) = .next t ∧ t = { s with arg := t.arg } ∧
      t.arg.toNat % 2 ^ 32 = s.arg.toNat % 2 ^ 32 ∧ t.arg.toNat / 2 ^ 32 = v.toNat) ∧
    (∀ k, (k = 1 ∨ 8 ≤ k) → k < 64 → hostMove s (.writeReg .word (4 * k) v) = .next s)

/-- A read of the window (10_state.md R22, R23, R25(c)) answers the register's value and changes nothing else,
busy or not. -/
def Obligations.RegisterWindowReads : Prop :=
  ∀ s : State, s.rst = false →
    (∀ k, k < 64 → hostMove s (.readReg .word (4 * k)) =
      .next { s with replies := .reg (s.readRegister (4 * k)) :: s.replies }) ∧
    s.readRegister 0x00 = 0 ∧ s.readRegister 0x04 = s.status ∧ s.readRegister 0x08 = s.srcAddr ∧
    s.readRegister 0x0C = s.srcLen ∧ s.readRegister 0x10 = s.dstAddr ∧ s.readRegister 0x14 = s.dstCap ∧
    s.readRegister 0x1C ++ s.readRegister 0x18 = s.arg ∧ s.readRegister 0x24 ++ s.readRegister 0x20 = s.res0 ∧
    s.readRegister 0x2C ++ s.readRegister 0x28 = s.res1 ∧ s.readRegister 0x30 = s.outLen ∧
    (s.readRegister 0x34).toNat = s.queue.length % 2 ^ 9 ∧ (s.readRegister 0x38).toNat = s.nodes.length % 2 ^ 17 ∧
    (s.readRegister 0x3C).toNat = s.rootValid.toNat * 2 ^ 16 + s.root.toNat ∧
    (s.readRegister 0x40).toNat = s.codebook.count ∧ s.readRegister 0x48 ++ s.readRegister 0x44 = s.bpBitcnt ∧
    s.readRegister 0x50 ++ s.readRegister 0x4C = s.brPos ∧ s.readRegister 0x54 = s.pqSeq ∧
    (∀ k, 22 ≤ k → k < 64 → s.readRegister (4 * k) = 0)

/-- The fields of STATUS (10_state.md R24): BUSY, OVR, EXH, BIT, ERR, and zeros above; and the number of each result
code in ERR (60_exceptions.md R305). -/
def Obligations.StatusWordLayout : Prop :=
  (∀ s : State,
    s.status.toNat = s.busy.toNat + 2 * s.ovr.toNat + 4 * s.exh.toNat + 8 * s.bit.toNat + 16 * s.err.number.toNat ∧
    (s.busy = true ↔ ∃ w, s.pending = some w)) ∧
  ErrCode.ok.number = 0 ∧ ErrCode.malformedTable.number = 1 ∧ ErrCode.truncatedPayload.number = 2 ∧
  ErrCode.unknownSymbol.number = 3 ∧ ErrCode.undecodable.number = 4 ∧ ErrCode.illegalCommand.number = 5 ∧
  ErrCode.addrRange.number = 6 ∧ ErrCode.regionOverlap.number = 7 ∧ ErrCode.outputOverflow.number = 8 ∧
  ErrCode.pqFull.number = 9 ∧ ErrCode.pqEmpty.number = 10 ∧ ErrCode.weightOverflow.number = 11 ∧
  ErrCode.badIndex.number = 12

/-- R62: the host's MEM port. While BUSY a read returns the byte at issue: no step inside the window changes MEM. -/
def Obligations.HostMemoryPort : Prop :=
  (∀ s t : State, step s = .next t → s.busy = true → t.busy = true → t.mem = s.mem) ∧
  ∀ (s : State) (a : Nat), s.rst = false →
    (s.cfg.memBytes ≤ a → hostMove s (.readMem a) = .refused .memoryAddress ∧
      ∀ v, hostMove s (.writeMem a v) = .refused .memoryAddress) ∧
    (a < s.cfg.memBytes →
      hostMove s (.readMem a) = .next { s with replies := .byte (s.mem.read a) :: s.replies } ∧
      (s.busy = true → ∀ v, hostMove s (.writeMem a v) = .next { s with ovr := true }) ∧
      (s.busy = false → s.mem.wf = true → ∀ v, ∃ t, hostMove s (.writeMem a v) = .next t ∧
        t = { s with mem := t.mem } ∧ t.mem.read a = v ∧ SameMemOutside a 1 s t))

/-- Host accesses the spec does not admit are refused by name: a register access that is not an aligned word inside
the window (10_state.md R25(a)), and any access while rst is asserted (70_reset_and_hazards.md R340). -/
def Obligations.AccessesNotAdmitted : Prop :=
  (∀ (s : State) (width : AccessWidth) (offset : Nat), s.rst = false →
    (width ≠ .word ∨ offset % 4 ≠ 0 ∨ 0x100 ≤ offset) →
    hostMove s (.readReg width offset) = .refused .registerAccessForm ∧
    ∀ v, hostMove s (.writeReg width offset v) = .refused .registerAccessForm) ∧
  (∀ (s : State) (m : HostMove), s.rst = true → (∀ b, m ≠ .rst b) → hostMove s m = .refused .accessInReset)

/-! ## Reset (70_reset_and_hazards.md section 1) -/

/-- The reset input (R340, R342): asserting it abandons a pending command, sets every item but MEM to its reset
value and keeps MEM; releasing it changes no item of the block, which is then ready for an issue. -/
def Obligations.ResetInputClearsTheBlock : Prop :=
  (∀ s : State, ∃ t, hostMove s (.rst true) = .next t ∧ AtResetValues t ∧ t.rst = true ∧ t.mem = s.mem ∧
    t.cfg = s.cfg ∧ t.host = s.host ∧ t.replies = s.replies) ∧
  (∀ s : State, hostMove s (.rst false) = .next { s with rst := false })

/-- R291: RESET sets every item but MEM to its reset value, STATUS the whole of it, and keeps MEM; a RESET word with
a non-zero A or N field fails the field check and resets nothing. -/
def Obligations.ResetCommandClearsTheBlock : Prop :=
  encode .reset = 0xFF000000 ∧
  (∀ s : State, ∃ t, exec .reset s = .next t ∧ AtResetValues t ∧ t.mem = s.mem ∧ SameMem s t ∧ Completed s t) ∧
  (∀ (s : State) (w : Word), s.turn = .completion w → wordOpc w = 0xFF → (wordA w ≠ 0 ∨ wordN w ≠ 0) →
    step s = .next { s with err := .illegalCommand, pending := none })

/-- The state after reset (R342) and at power-on, for every implementation and every MEM_INIT (R341). That
`State.reset` itself has MEM_BYTES = 4096, an empty MEM and no host move is the model's choice (log entries 2, 3, 4). -/
def Obligations.ResetStateHasTheResetValues : Prop :=
  AtResetValues State.reset ∧
  ∀ (cfg : Config) (mem : Memory) (host : List HostEvent),
    AtResetValues (State.powerOn cfg mem host) ∧ (State.powerOn cfg mem host).mem = mem ∧
    (State.powerOn cfg mem host).cfg = cfg

/-! ## Control (49_control.md) -/

/-- R290: NOP clears ERR and changes nothing else. -/
def Obligations.NopClearsErr : Prop :=
  encode .nop = 0x00000000 ∧
  ∀ s : State, ∃ t, exec .nop s = .next t ∧ t = { s with err := .ok, pending := none } ∧ SameMem s t

/-! ## The frequency table (41_frequency_table.md) -/

/-- R121: FT_CLEAR. -/
def Obligations.FtClearZeroesEveryCount : Prop :=
  encode .ftClear = 0x10000000 ∧
  ∀ s : State, ∃ t, exec .ftClear s = .next t ∧ (∀ c, t.freq.get c = 0) ∧
    t = { s with freq := t.freq, err := .ok, pending := none } ∧ SameMem s t

/-- R122, R120: FT_RECORD adds one to one count, and refuses a count at 2^64 - 1. -/
def Obligations.FtRecordCountsOneByte : Prop :=
  (∀ sym : Byte, (encode (.ftRecord sym)).toNat = 0x11000000 + sym.toNat * 2 ^ 16) ∧
  ∀ (s : State) (sym : Byte),
    ((s.freq.get sym).toNat = 2 ^ 64 - 1 →
      exec (.ftRecord sym) s = .next { s with err := .weightOverflow, pending := none }) ∧
    ((s.freq.get sym).toNat ≠ 2 ^ 64 - 1 → ∃ t, exec (.ftRecord sym) s = .next t ∧
      (t.freq.get sym).toNat = (s.freq.get sym).toNat + 1 ∧ (∀ c, c ≠ sym → t.freq.get c = s.freq.get c) ∧
      t = { s with freq := t.freq, err := .ok, pending := none } ∧ SameMem s t)

/-- R123: FT_WRITE sets one count from ARG. -/
def Obligations.FtWriteSetsOneCount : Prop :=
  (∀ sym : Byte, (encode (.ftWrite sym)).toNat = 0x12000000 + sym.toNat * 2 ^ 16) ∧
  ∀ (s : State) (sym : Byte), ∃ t, exec (.ftWrite sym) s = .next t ∧ t.freq.get sym = s.arg ∧
    (∀ c, c ≠ sym → t.freq.get c = s.freq.get c) ∧
    t = { s with freq := t.freq, err := .ok, pending := none } ∧ SameMem s t

/-- R124: FT_READ copies one count to RES0; RES1 is not written. -/
def Obligations.FtReadReturnsOneCount : Prop :=
  (∀ sym : Byte, (encode (.ftRead sym)).toNat = 0x13000000 + sym.toNat * 2 ^ 16) ∧
  ∀ (s : State) (sym : Byte), ∃ t, exec (.ftRead sym) s = .next t ∧
    t = { s with res0 := s.freq.get sym, err := .ok, pending := none } ∧ SameMem s t

/-- R125: FT_SCAN adds the byte counts of the source region, or changes nothing. -/
def Obligations.FtScanAddsTheByteCounts : Prop :=
  encode .ftScan = 0x14000000 ∧
  ∀ s : State,
    (s.cfg.memBytes < s.srcAddr.toNat + s.srcLen.toNat →
      exec .ftScan s = .next { s with err := .addrRange, pending := none }) ∧
    (s.srcAddr.toNat + s.srcLen.toNat ≤ s.cfg.memBytes →
      ((∃ c, 2 ^ 64 - 1 < (s.freq.get c).toNat + sourceCount s c) →
        exec .ftScan s = .next { s with err := .weightOverflow, pending := none }) ∧
      ((∀ c, (s.freq.get c).toNat + sourceCount s c ≤ 2 ^ 64 - 1) → ∃ t, exec .ftScan s = .next t ∧
        (∀ c, (t.freq.get c).toNat = (s.freq.get c).toNat + sourceCount s c) ∧
        t = { s with freq := t.freq, err := .ok, pending := none } ∧ SameMem s t))

/-! ## The priority queue (42_priority_queue.md) -/

/-- R145: PQ_CLEAR. -/
def Obligations.PqClearEmptiesTheQueue : Prop :=
  encode .pqClear = 0x20000000 ∧
  ∀ s : State, ∃ t, exec .pqClear s = .next t ∧
    t = { s with queue := [], pqSeq := 0, err := .ok, pending := none } ∧ SameMem s t

/-- R146, R143: PQ_PUSH adds the entry (ARG, PQ_SEQ, node), and refuses at 256 entries and at PQ_SEQ = 2^32 - 1. -/
def Obligations.PqPushAddsOneEntry : Prop :=
  (∀ node : NodeIndex, (encode (.pqPush node)).toNat = 0x21000000 + node.toNat) ∧
  ∀ (s : State) (node : NodeIndex),
    ((s.queue.length = 256 ∨ s.pqSeq.toNat = 2 ^ 32 - 1) →
      exec (.pqPush node) s = .next { s with err := .pqFull, pending := none }) ∧
    (s.queue.length ≠ 256 → s.pqSeq.toNat ≠ 2 ^ 32 - 1 → ∃ t, exec (.pqPush node) s = .next t ∧
      t.queue.Perm ({ weight := s.arg, seq := s.pqSeq, node := node } :: s.queue) ∧
      t.queue.length = s.queue.length + 1 ∧ t.pqSeq.toNat = s.pqSeq.toNat + 1 ∧
      t = { s with queue := t.queue, pqSeq := t.pqSeq, err := .ok, pending := none } ∧ SameMem s t)

/-- R142, R147: PQ_POP takes out the entry of least weight and, among equals, of least seq, and reports it. -/
def Obligations.PqPopTakesTheLeastKey : Prop :=
  encode .pqPop = 0x22000000 ∧
  ∀ s : State,
    (s.queue = [] → exec .pqPop s = .next { s with err := .pqEmpty, pending := none }) ∧
    (s.queue ≠ [] → ∃ t e, exec .pqPop s = .next t ∧ s.queue.Perm (e :: t.queue) ∧
      (∀ x ∈ t.queue, e.weight.toNat < x.weight.toNat ∨ (e.weight = x.weight ∧ e.seq.toNat ≤ x.seq.toNat)) ∧
      t.res0 = e.weight ∧ t.res1.toNat = e.seq.toNat * 2 ^ 32 + e.node.toNat ∧
      t = { s with queue := t.queue, res0 := t.res0, res1 := t.res1, err := .ok, pending := none } ∧ SameMem s t)

/-! ## Tree construction (43_tree_builder.md) -/

/-- R160 and R166: TREE_BUILD refuses counts that sum to more than 2^64 - 1, and with every count 0 leaves an empty
tree. -/
def Obligations.TreeBuildEdgeCases : Prop :=
  ∀ s : State,
    (2 ^ 64 - 1 < s.freq.total → exec .treeBuild s = .next { s with err := .weightOverflow, pending := none }) ∧
    ((∀ c, s.freq.get c = 0) → ∃ t, exec .treeBuild s = .next t ∧ (∀ c, (t.codebook.get c).valid = false) ∧
      t = { s with nodes := [], root := 0, rootValid := false, queue := [], pqSeq := 0, codebook := t.codebook,
                   res0 := 0, res1 := 0, err := .ok, pending := none } ∧ SameMem s t)

/-- R163, R164: with n >= 1 symbols counted and no overflow, TREE_BUILD completes with 2n - 1 nodes, the root the last
one, the queue empty, PQ_SEQ = 2n - 1, the codebook cleared and RES1 = n. -/
def Obligations.TreeBuildShape : Prop :=
  ∀ (s : State) (n : Nat), s.freq.total ≤ 2 ^ 64 - 1 → n = (allSymbols.filter fun c => s.freq.get c != 0).length →
    1 ≤ n → ∃ t, exec .treeBuild s = .next t ∧ t.nodes.length = 2 * n - 1 ∧ t.root.toNat = 2 * n - 2 ∧
      t.rootValid = true ∧ t.queue = [] ∧ t.pqSeq.toNat = 2 * n - 1 ∧ t.res1.toNat = n ∧
      (∀ c, t.codebook.get c = { valid := false, len := 0, bits := 0 }) ∧
      t = { s with nodes := t.nodes, root := t.root, rootValid := true, queue := [], pqSeq := t.pqSeq,
                   codebook := t.codebook, res0 := t.res0, res1 := t.res1, err := .ok, pending := none } ∧
      SameMem s t

/-- R161 to R164, 42_priority_queue.md R141, R142, and 10_state.md R28(b), R28(e): the leaves are the counted symbols in
ascending order at 0..n-1; every later node is an Internal node with two children at lower indices, its weight their sum,
and of the records in the queue when it was made its left child had the least key and its right child the least of the
others. -/
def Obligations.TreeBuildNodes : Prop :=
  ∀ s t : State, exec .treeBuild s = .next t → t.err = .ok →
    t.nodes.take (allSymbols.filter fun c => s.freq.get c != 0).length =
      (allSymbols.filter fun c => s.freq.get c != 0).map (fun c => Node.leaf c (s.freq.get c)) ∧
    ∀ (i : Nat) (m : Node), (allSymbols.filter fun c => s.freq.get c != 0).length ≤ i → t.nodes[i]? = some m →
      ∃ (l r : NodeIndex) (a b : Node), m = .internal m.weight (some l) (some r) ∧ l.toNat < i ∧ r.toNat < i ∧
        t.nodes[l.toNat]? = some a ∧ t.nodes[r.toNat]? = some b ∧ m.weight.toNat = a.weight.toNat + b.weight.toNat ∧
        takesTheTwoLeast t.nodes i l.toNat r.toNat

/-- R164, R142: with two entries or more in the queue there is a combination: it pops the two least entries a and b, in
that order, and adds an Internal node with left child a, right child b and their weights' sum, pushed with the next
sequence number. With fewer there is none. (TreeBuildNodes says the same of TREE_BUILD's own records.) -/
def Obligations.CombinationTakesTheTwoLeast : Prop :=
  ∀ f : Forest,
    (f.queue.length ≤ 1 → f.combineOnce = none) ∧
    (2 ≤ f.queue.length → ∃ f' a b q, f.combineOnce = some f' ∧ f.queue.Perm (a :: b :: q) ∧
      (∀ x ∈ b :: q, x.before a = false) ∧ (∀ x ∈ q, x.before b = false) ∧
      f'.nodes = f.nodes ++ [.internal (a.weight + b.weight) (some a.node) (some b.node)] ∧
      f'.queue = q ++ [{ weight := a.weight + b.weight, seq := f.seq, node := BitVec.ofNat 16 f.nodes.length }] ∧
      f'.seq = f.seq + 1)

/-- R168: after a TREE_BUILD that completes OK with n >= 1, the root's weight is the sum of the counts, and RES0. -/
def Obligations.RootWeightIsTheSumOfCounts : Prop :=
  ∀ s t : State, exec .treeBuild s = .next t → t.err = .ok → (∃ c, s.freq.get c ≠ 0) →
    ∃ m, t.nodes[t.root.toNat]? = some m ∧ m.weight.toNat = s.freq.total ∧ t.res0 = m.weight

/-- R169: TREE_BUILD's result depends on FREQ alone. -/
def Obligations.TreeBuildDependsOnFreqOnly : Prop :=
  ∀ s s' t t' : State, s.freq = s'.freq → exec .treeBuild s = .next t → exec .treeBuild s' = .next t' →
    t.err = t'.err ∧ (t.err = .ok → t.nodes = t'.nodes ∧ t.root = t'.root ∧ t.rootValid = t'.rootValid ∧
      t.queue = t'.queue ∧ t.pqSeq = t'.pqSeq ∧ t.codebook = t'.codebook ∧ t.res0 = t'.res0 ∧ t.res1 = t'.res1)

/-- R167: NODE_READ reports one allocated record, and BAD_INDEX from NCOUNT on. -/
def Obligations.NodeReadReportsARecord : Prop :=
  (∀ index : NodeIndex, (encode (.nodeRead index)).toNat = 0x31000000 + index.toNat) ∧
  ∀ (s : State) (index : NodeIndex),
    (s.nodes.length ≤ index.toNat → exec (.nodeRead index) s = .next { s with err := .badIndex, pending := none }) ∧
    (∀ n, s.nodes[index.toNat]? = some n → ∃ t, exec (.nodeRead index) s = .next t ∧ t.res0 = n.weight ∧
      t.res1.toNat = (n.child true).isSome.toNat * 2 ^ 42 + (n.child false).isSome.toNat * 2 ^ 41 +
        n.isLeaf.toNat * 2 ^ 40 + n.sym.toNat * 2 ^ 32 + ((n.child true).getD 0).toNat * 2 ^ 16 +
        ((n.child false).getD 0).toNat ∧
      t = { s with res0 := t.res0, res1 := t.res1, err := .ok, pending := none } ∧ SameMem s t)

/-! ## The codebook (44_codebook.md) -/

/-- R182, R183: CB_GEN completes in every arena whose links keep 10_state.md R28(a), R28(b), R28(d) and R29. Without a tree the codebook is
empty; with a Leaf as root its code is [0]; otherwise the codes are the paths from the root to its leaves, and every
leaf's symbol has one. RES0 counts the codes and RES1 is the greatest length. -/
def Obligations.CbGenAssignsThePaths : Prop :=
  ∀ s : State, s.LinksOk → ∃ t, exec .cbGen s = .next t ∧
    t = { s with codebook := t.codebook, res0 := t.res0, res1 := t.res1, err := .ok, pending := none } ∧ SameMem s t ∧
    (s.rootValid = false → (∀ c, t.codebook.codeOf c = none) ∧ t.res0 = 0 ∧ t.res1 = 0) ∧
    (∀ x w, s.rootValid = true → s.nodes[s.root.toNat]? = some (.leaf x w) →
      ∀ c, t.codebook.codeOf c = if c = x then some [false] else none) ∧
    (∀ w l r, s.rootValid = true → s.nodes[s.root.toNat]? = some (.internal w l r) →
      (∀ x c, t.codebook.codeOf x = some c → ∃ w', followPath s.nodes s.root.toNat c = some (.leaf x w')) ∧
      (∀ x c w', followPath s.nodes s.root.toNat c = some (.leaf x w') → ∃ c', t.codebook.codeOf x = some c')) ∧
    t.res0.toNat = (allSymbols.filter fun c => (t.codebook.get c).valid).length ∧
    (∀ x c, t.codebook.codeOf x = some c → 1 ≤ c.length ∧ c.length ≤ t.res1.toNat) ∧
    ((∃ x c, t.codebook.codeOf x = some c) → ∃ x c, t.codebook.codeOf x = some c ∧ c.length = t.res1.toNat) ∧
    ((∀ x, t.codebook.codeOf x = none) → t.res1 = 0)

/-- R185: after CB_GEN no code is a prefix of another symbol's code. -/
def Obligations.CodesArePrefixFree : Prop :=
  ∀ (s t : State) (x y : Byte) (c d : Code), exec .cbGen s = .next t → x ≠ y →
    t.codebook.codeOf x = some c → t.codebook.codeOf y = some d → ¬ c <+: d

/-- R186: after CB_GEN on a tree of TREE_BUILD with n >= 2 leaves the codes are complete (their Kraft sum is 1, here
scaled by 2^255) and CB_COUNT = n; with n = 1 the sum is 1/2. -/
def Obligations.CodesAreComplete : Prop :=
  ∀ (s t u : State) (n : Nat), exec .treeBuild s = .next t → t.err = .ok → exec .cbGen t = .next u →
    n = (allSymbols.filter fun c => s.freq.get c != 0).length → 1 ≤ n →
    u.codebook.count = n ∧
    ((allSymbols.filter fun c => (u.codebook.get c).valid).map
      fun c => 2 ^ (255 - (u.codebook.get c).len.toNat)).sum = if n = 1 then 2 ^ 254 else 2 ^ 255

/-- R184: CB_READ reports 64 code bits, the length and the valid bit; a symbol without a code reads 0 and 0, its entry
being in order (10_state.md R32). -/
def Obligations.CbReadReportsAnEntry : Prop :=
  (∀ (sym : Byte) (chunk : BitVec 16),
    (encode (.cbRead sym chunk)).toNat = 0x41000000 + sym.toNat * 2 ^ 16 + chunk.toNat) ∧
  ∀ (s : State) (sym : Byte) (chunk : BitVec 16), chunk.toNat ≤ 3 → ∃ t, exec (.cbRead sym chunk) s = .next t ∧
    t.res0.toNat = (s.codebook.get sym).bits.toNat / 2 ^ (64 * chunk.toNat) % 2 ^ 64 ∧
    t.res1.toNat = (s.codebook.get sym).valid.toNat * 2 ^ 8 + (s.codebook.get sym).len.toNat ∧
    ((s.codebook.get sym).valid = false → (s.codebook.get sym).Ok → t.res0 = 0 ∧ t.res1 = 0) ∧
    t = { s with res0 := t.res0, res1 := t.res1, err := .ok, pending := none } ∧ SameMem s t

/-! ## The bit packer and the bit reader (45_bit_packer.md, 46_bit_reader.md) -/

/-- R200, R220: BP_INIT and BR_INIT check their region and set their unit's registers, and nothing else. -/
def Obligations.PackerAndReaderInit : Prop :=
  encode .bpInit = 0x50000000 ∧ encode .brInit = 0x60000000 ∧
  ∀ s : State,
    (s.cfg.memBytes < s.dstAddr.toNat + s.dstCap.toNat →
      exec .bpInit s = .next { s with err := .addrRange, pending := none }) ∧
    (s.dstAddr.toNat + s.dstCap.toNat ≤ s.cfg.memBytes → ∃ t, exec .bpInit s = .next t ∧
      t = { s with bpBase := s.dstAddr, bpCap := s.dstCap, bpBitcnt := 0, err := .ok, pending := none } ∧
      SameMem s t) ∧
    (s.cfg.memBytes < s.srcAddr.toNat + s.srcLen.toNat →
      exec .brInit s = .next { s with err := .addrRange, pending := none }) ∧
    (s.srcAddr.toNat + s.srcLen.toNat ≤ s.cfg.memBytes → ∃ t, exec .brInit s = .next t ∧
      t = { s with brBase := s.srcAddr, brBytes := s.srcLen, brLimit := s.arg, brPos := 0, err := .ok,
                   pending := none } ∧ SameMem s t)

/-- R201: BP_PUSH refuses a full buffer, and otherwise writes one bit of one byte: the first bit of a byte rewrites
it, a later one changes only its place. -/
def Obligations.BpPushPacksOneBit : Prop :=
  encode (.bpPush 0) = 0x51000000 ∧ encode (.bpPush 1) = 0x51010000 ∧
  ∀ (s : State) (bit : Byte), bit.toNat ≤ 1 → s.mem.wf = true → s.PackerOk →
    (s.bpBitcnt.toNat = 8 * s.bpCap.toNat →
      exec (.bpPush bit) s = .next { s with err := .outputOverflow, pending := none }) ∧
    (s.bpBitcnt.toNat ≠ 8 * s.bpCap.toNat → ∃ t, exec (.bpPush bit) s = .next t ∧
      t.bpBitcnt.toNat = s.bpBitcnt.toNat + 1 ∧
      (s.bpBitcnt.toNat % 8 = 0 → t.mem.read s.packAddress = bit) ∧
      (s.bpBitcnt.toNat % 8 ≠ 0 → ∀ j, j < 8 → (t.mem.read s.packAddress).getLsbD j =
        if j = s.bpBitcnt.toNat % 8 then bit.getLsbD 0 else (s.mem.read s.packAddress).getLsbD j) ∧
      SameMemOutside s.packAddress 1 s t ∧
      t = { s with mem := t.mem, bpBitcnt := t.bpBitcnt, err := .ok, pending := none })

/-- R202: BP_FINISH reports the bit and the byte count and changes no packer state. -/
def Obligations.BpFinishReportsTheCounts : Prop :=
  encode .bpFinish = 0x52000000 ∧
  ∀ s : State, ∃ t, exec .bpFinish s = .next t ∧ t.res0 = s.bpBitcnt ∧
    t.res1.toNat = (s.bpBitcnt.toNat + 7) / 8 ∧
    t = { s with res0 := t.res0, res1 := t.res1, err := .ok, pending := none } ∧ SameMem s t

/-- R221, R222: BR_NEXT reports exhaustion, the end of the buffer, or the next bit. -/
def Obligations.BrNextReadsOneBit : Prop :=
  encode .brNext = 0x61000000 ∧
  ∀ s : State, s.ReaderOk →
    (s.brPos = s.brLimit → ∃ t, exec .brNext s = .next t ∧
      t = { s with exh := true, bit := false, err := .ok, pending := none } ∧ SameMem s t) ∧
    (s.brPos ≠ s.brLimit → s.brBytes.toNat ≤ s.brPos.toNat / 8 →
      exec .brNext s = .next { s with err := .truncatedPayload, pending := none }) ∧
    (s.brPos ≠ s.brLimit → s.brPos.toNat / 8 < s.brBytes.toNat → ∃ t, exec .brNext s = .next t ∧
      t.brPos.toNat = s.brPos.toNat + 1 ∧
      t = { s with brPos := t.brPos, exh := false, err := .ok, pending := none,
                   bit := (s.mem.read (s.brBase.toNat + s.brPos.toNat / 8)).getLsbD (s.brPos.toNat % 8) } ∧
      SameMem s t)

/-- R223: bits pushed after BP_INIT come back in order from BR_NEXT, and then exhaustion, from any later state `u` that
kept the packed bytes. -/
def Obligations.PackedBitsReadBack : Prop :=
  ∀ (s : State) (bits : List Bool), s.mem.wf = true → s.dstAddr.toNat + s.dstCap.toNat ≤ s.cfg.memBytes →
    (bits.length + 7) / 8 ≤ s.dstCap.toNat →
    ∃ t, runOk (.bpInit :: bits.map fun b => .bpPush (if b then 1 else 0)) s = some t ∧
      ∀ u : State, u.cfg = s.cfg → u.srcAddr = s.dstAddr → u.srcLen.toNat = (bits.length + 7) / 8 →
        u.arg.toNat = bits.length →
        (∀ k, k < (bits.length + 7) / 8 → u.mem.read (s.dstAddr.toNat + k) = t.mem.read (s.dstAddr.toNat + k)) →
        (∀ k (hk : k < bits.length), ∃ v, runOk (.brInit :: List.replicate (k + 1) .brNext) u = some v ∧
          v.exh = false ∧ v.bit = bits[k]) ∧
        (∃ v, runOk (.brInit :: List.replicate (bits.length + 1) .brNext) u = some v ∧ v.exh = true)

/-- Three forms of the model's stops (log entries 14, 15), all in states that `StepKeepsTheInvariant` says no run reaches:
BP_PUSH of a packer that is not full, and BR_NEXT with bits and bytes left, at an address at or beyond MEM_BYTES (10_state.md
R33, R34), and CB_GEN with a root that is not allocated (R28(d)). The stop is the model's, not the spec's. -/
def Obligations.StopsOutsideTheInvariant : Prop :=
  (∀ (s : State) (bit : Byte), bit.toNat ≤ 1 → s.bpBitcnt.toNat ≠ 8 * s.bpCap.toNat →
    s.cfg.memBytes ≤ s.packAddress → exec (.bpPush bit) s = .fault .memOutOfRange) ∧
  (∀ s : State, s.brPos ≠ s.brLimit → s.brPos.toNat / 8 < s.brBytes.toNat → s.cfg.memBytes ≤ s.readAddress →
    exec .brNext s = .fault .memOutOfRange) ∧
  (∀ s : State, s.rootValid = true → s.nodes[s.root.toNat]? = none → exec .cbGen s = .fault .arenaBroken)

/-! ## The encoder and the decoder (47_encoder.md, 48_decoder.md) -/

/-- R245, R268, 60_exceptions.md R304, R307: ENC_RUN and DEC_RUN check the ranges first and the overlap next, and such
an error changes OUT_LEN alone. -/
def Obligations.EncoderAndDecoderRegionErrors : Prop :=
  ∀ (s : State) (i : Instr), i = .encRun ∨ i = .decRun →
    ((s.cfg.memBytes < s.srcAddr.toNat + s.srcLen.toNat ∨ s.cfg.memBytes < s.dstAddr.toNat + s.dstCap.toNat) →
      exec i s = .next { s with outLen := 0, err := .addrRange, pending := none }) ∧
    (s.srcAddr.toNat + s.srcLen.toNat ≤ s.cfg.memBytes → s.dstAddr.toNat + s.dstCap.toNat ≤ s.cfg.memBytes →
      0 < s.srcLen.toNat → 0 < s.dstCap.toNat → s.srcAddr.toNat < s.dstAddr.toNat + s.dstCap.toNat →
      s.dstAddr.toNat < s.srcAddr.toNat + s.srcLen.toNat →
      exec i s = .next { s with outLen := 0, err := .regionOverlap, pending := none })

/-- R241, R245, R247: with its regions in order ENC_RUN always completes, FREQ holding the input's counts: with the
container written and reported, or, when it does not fit, with OUTPUT_OVERFLOW, the needed size in RES0, and MEM, the
packer and RES1 as before. -/
def Obligations.EncRunCompletes : Prop :=
  ∀ s : State, RegionsOk s → ∃ (t : State) (P size : Nat), exec .encRun s = .next t ∧
    (∀ c, (t.freq.get c).toNat = sourceCount s c) ∧
    P = (allSymbols.map fun c => sourceCount s c * (t.codebook.get c).len.toNat).sum ∧
    size = 2 + (allSymbols.map fun c => if (t.codebook.get c).valid then
      2 + ((t.codebook.get c).len.toNat + 7) / 8 else 0).sum + 8 + (P + 7) / 8 ∧
    (s.dstCap.toNat < size → t.res0.toNat = size ∧ SameMem s t ∧
      t = { s with freq := t.freq, nodes := t.nodes, root := t.root, rootValid := t.rootValid, queue := t.queue,
                   pqSeq := t.pqSeq, codebook := t.codebook, outLen := 0, res0 := t.res0,
                   err := .outputOverflow, pending := none }) ∧
    (size ≤ s.dstCap.toNat → t.outLen.toNat = size ∧ t.res0.toNat = P ∧ t.res1.toNat = t.codebook.count ∧
      t.bpCap.toNat = (P + 7) / 8 ∧ t.bpBitcnt.toNat = P ∧
      (s.dstAddr.toNat + (size - (P + 7) / 8) < 2 ^ 32 → t.bpBase.toNat = s.dstAddr.toNat + (size - (P + 7) / 8)) ∧
      SameMemOutside s.dstAddr.toNat size s t ∧
      t = { s with freq := t.freq, nodes := t.nodes, root := t.root, rootValid := t.rootValid, queue := t.queue,
                   pqSeq := t.pqSeq, codebook := t.codebook, bpBase := t.bpBase, bpCap := t.bpCap,
                   bpBitcnt := t.bpBitcnt, outLen := t.outLen, res0 := t.res0, res1 := t.res1, mem := t.mem,
                   err := .ok, pending := none })

/-- R245 steps 1 and 2, and 60_exceptions.md R304: after OK and after OUTPUT_OVERFLOW alike, FREQ holds the input's
counts, and the tree and the codebook are those of TREE_BUILD and CB_GEN on these counts. -/
def Obligations.EncRunBuildsTheTreeOfItsInput : Prop :=
  ∀ s t : State, exec .encRun s = .next t → t.err = .ok ∨ t.err = .outputOverflow →
    (∀ c, (t.freq.get c).toNat = sourceCount s c) ∧
    ∃ u v, exec .treeBuild { s with freq := t.freq } = .next u ∧
      u.err = .ok ∧ exec .cbGen u = .next v ∧ t.nodes = v.nodes ∧ t.root = v.root ∧ t.rootValid = v.rootValid ∧
      t.queue = v.queue ∧ t.pqSeq = v.pqSeq ∧ t.codebook = v.codebook

/-- R243, R244, 30_encoding.md R95, R97, R100, R101, R103, R104: the bytes of the container that ENC_RUN writes:
symbol_count, the entries in ascending symbol order, payload_bit_length, and the codes of the input bytes, in input
order, with zero padding. -/
def Obligations.EncRunWritesTheContainer : Prop :=
  ∀ s t : State, s.mem.wf = true → exec .encRun s = .next t → t.err = .ok →
    ∀ (table : List Byte) (payload : List Bool),
      table = (allSymbols.filter fun c => (t.codebook.get c).valid).flatMap (fun c =>
        c :: (t.codebook.get c).len :: (List.range (((t.codebook.get c).len.toNat + 7) / 8)).map
          (fun j => BitVec.ofNat 8 ((t.codebook.get c).bits.toNat / 2 ^ (8 * j)))) →
      payload = ((List.range s.srcLen.toNat).map fun k => s.mem.read (s.srcAddr.toNat + k)).flatMap (fun c =>
        (List.range (t.codebook.get c).len.toNat).map (t.codebook.get c).bits.getLsbD) →
      t.outLen.toNat = 2 + table.length + 8 + (payload.length + 7) / 8 ∧
      t.mem.readLE s.dstAddr.toNat 2 = t.codebook.count ∧
      t.mem.readBytes (s.dstAddr.toNat + 2) table.length = table ∧
      t.mem.readLE (s.dstAddr.toNat + 2 + table.length) 8 = payload.length ∧
      ∀ k, k < 8 * ((payload.length + 7) / 8) →
        t.mem.bitAt (s.dstAddr.toNat + 2 + table.length + 8) k = payload.getD k false

/-- R246: the empty input. -/
def Obligations.EncRunOfTheEmptyInput : Prop :=
  ∀ s : State, s.mem.wf = true → RegionsOk s → s.srcLen = 0 → ∃ t, exec .encRun s = .next t ∧
    (∀ c, t.freq.get c = 0) ∧ t.rootValid = false ∧ t.nodes = [] ∧ (∀ c, (t.codebook.get c).valid = false) ∧
    (10 ≤ s.dstCap.toNat → t.err = .ok ∧ t.mem.readBytes s.dstAddr.toNat 10 = [0, 0, 0, 0, 0, 0, 0, 0, 0, 0] ∧
      t.outLen = 10 ∧ t.res0 = 0 ∧ t.res1 = 0) ∧
    (s.dstCap.toNat < 10 → t.err = .outputOverflow ∧ t.outLen = 0 ∧ t.res0 = 10)

/-- R248: an input of one distinct byte c: one Leaf, the code [0], and the container's bytes. -/
def Obligations.EncRunOfASingleSymbol : Prop :=
  ∀ (s : State) (c : Byte), s.mem.wf = true → RegionsOk s → 1 ≤ s.srcLen.toNat →
    (∀ k, k < s.srcLen.toNat → s.mem.read (s.srcAddr.toNat + k) = c) →
    13 + (s.srcLen.toNat + 7) / 8 ≤ s.dstCap.toNat → ∃ t, exec .encRun s = .next t ∧ t.err = .ok ∧
      (∃ w, t.nodes = [.leaf c w]) ∧ t.codebook.codeOf c = some [false] ∧ t.res0.toNat = s.srcLen.toNat ∧
      t.outLen.toNat = 13 + (s.srcLen.toNat + 7) / 8 ∧
      t.mem.readBytes s.dstAddr.toNat (13 + (s.srcLen.toNat + 7) / 8) =
        [1, 0, c, 1, 0] ++ leBytes 8 s.srcLen.toNat ++ List.replicate ((s.srcLen.toNat + 7) / 8) 0

/-- R260, R265 to R269: with its regions in order DEC_RUN always completes. OK: the output is written, the table is in
order, the arena holds its trie and the codebook exactly its entries, and the reader, RES0 and RES1 stand at the payload's
end (BR_BASE where SRC_ADDR + q fits 32 bits: log entry 12 is the model's choice beyond). Otherwise one of the four
failures through Fail, OUTPUT_OVERFLOW with the needed length in RES0. -/
def Obligations.DecRunCompletes : Prop :=
  ∀ s : State, RegionsOk s → ∃ t : State, exec .decRun s = .next t ∧
    ((t.err = .ok ∧ t.outLen.toNat ≤ s.dstCap.toNat ∧ SameMemOutside s.dstAddr.toNat t.outLen.toNat s t ∧
      t = { s with nodes := t.nodes, root := 0, rootValid := true, codebook := t.codebook, brBase := t.brBase,
                   brBytes := t.brBytes, brLimit := t.brLimit, brPos := t.brPos, outLen := t.outLen,
                   res0 := t.res0, res1 := t.res1, mem := t.mem, err := .ok, pending := none } ∧
      ∃ (entries : List (Byte × Code)) (q P : Nat), GoodTable entries ∧
        s.mem.readLE s.srcAddr.toNat 2 = entries.length ∧ TableAt s.mem (s.srcAddr.toNat + 2) entries ∧
        q = 2 + tableLength entries ∧ P = s.mem.readLE (s.srcAddr.toNat + q) 8 ∧
        TrieOf t.nodes entries ∧ (∀ x c, t.codebook.codeOf x = some c ↔ (x, c) ∈ entries) ∧
        (∀ x, (t.codebook.get x).Ok) ∧ q + 8 + (P + 7) / 8 ≤ s.srcLen.toNat ∧
        (s.srcAddr.toNat + (q + 8) < 2 ^ 32 → t.brBase.toNat = s.srcAddr.toNat + (q + 8)) ∧
        t.brBytes.toNat = (P + 7) / 8 ∧ t.brLimit.toNat = P ∧ t.brPos.toNat = P ∧ t.res0.toNat = P ∧
        t.res1.toNat = q + 8 + (P + 7) / 8) ∨
     ((t.err = .malformedTable ∨ t.err = .truncatedPayload ∨ t.err = .undecodable ∨ t.err = .outputOverflow) ∧
      DecodeFails s t t.err ∧ (t.err = .outputOverflow → s.dstCap.toNat < t.res0.toNat)))

/-- R261, R262, R263: when DEC_RUN fails with MALFORMED_TABLE: a header shorter than 2 bytes, a symbol_count above 256,
after any entries in order a bad one (R262(a) to R262(e)), or fewer than 8 bytes after the last entry. -/
def Obligations.DecRunChecksTheHeader : Prop :=
  ∀ s : State, RegionsOk s →
    ((s.srcLen.toNat < 2 ∨
        256 < (s.mem.read s.srcAddr.toNat).toNat + 256 * (s.mem.read (s.srcAddr.toNat + 1)).toNat) →
      ∃ t, exec .decRun s = .next t ∧ DecodeFails s t .malformedTable) ∧
    ∀ (before : List (Byte × Code)) (q : Nat), GoodTable before → TableAt s.mem (s.srcAddr.toNat + 2) before →
      q = 2 + tableLength before → q ≤ s.srcLen.toNat →
      (before.length < s.mem.readLE s.srcAddr.toNat 2 →
        BadEntry s.mem s.srcAddr.toNat s.srcLen.toNat before q →
        ∃ t, exec .decRun s = .next t ∧ DecodeFails s t .malformedTable) ∧
      (before.length = s.mem.readLE s.srcAddr.toNat 2 → s.srcLen.toNat < q + 8 →
        ∃ t, exec .decRun s = .next t ∧ DecodeFails s t .malformedTable)

/-- R262, R263, R264, R267, R269: what DEC_RUN does with a container whose table is in order and whose P is in the source
region. With fewer than ceil8(P) bytes after P: TRUNCATED_PAYLOAD. With a payload that is the codes of `outs`: OK and the
symbols of `outs` as output, or OUTPUT_OVERFLOW when they do not fit. With the codes of `outs` and then bits that are a
beginning of a code: TRUNCATED_PAYLOAD. With the codes of `outs` and then bits that leave the trie: UNDECODABLE. -/
def Obligations.DecRunDecodesAContainer : Prop :=
  ∀ (s : State) (entries : List (Byte × Code)) (q P : Nat), RegionsOk s → GoodTable entries →
    s.mem.readLE s.srcAddr.toNat 2 = entries.length → TableAt s.mem (s.srcAddr.toNat + 2) entries →
    q = 2 + tableLength entries → q + 8 ≤ s.srcLen.toNat → s.mem.readLE (s.srcAddr.toNat + q) 8 = P →
    (s.srcLen.toNat < q + 8 + (P + 7) / 8 → ∃ t, exec .decRun s = .next t ∧ DecodeFails s t .truncatedPayload) ∧
    ∀ (outs : List (Byte × Code)) (rest : Code), q + 8 + (P + 7) / 8 ≤ s.srcLen.toNat → (∀ o ∈ outs, o ∈ entries) →
      P = (outs.flatMap Prod.snd ++ rest).length →
      (∀ k (h : k < (outs.flatMap Prod.snd ++ rest).length),
        s.mem.bitAt (s.srcAddr.toNat + q + 8) k = (outs.flatMap Prod.snd ++ rest)[k]) →
      (rest = [] → outs.length ≤ s.dstCap.toNat → ∃ t, exec .decRun s = .next t ∧ t.err = .ok ∧
        t.outLen.toNat = outs.length ∧ t.res0.toNat = P ∧ t.res1.toNat = q + 8 + (P + 7) / 8 ∧
        (s.mem.wf = true → ∀ k (h : k < outs.length), t.mem.read (s.dstAddr.toNat + k) = outs[k].1) ∧
        SameMemOutside s.dstAddr.toNat outs.length s t ∧
        (∀ x c, t.codebook.codeOf x = some c ↔ (x, c) ∈ entries)) ∧
      (rest = [] → s.dstCap.toNat < outs.length → ∃ t, exec .decRun s = .next t ∧
        DecodeFails s t .outputOverflow ∧ t.res0.toNat = outs.length) ∧
      (rest ≠ [] → (∃ e ∈ entries, rest <+: e.2 ∧ rest ≠ e.2) →
        ∃ t, exec .decRun s = .next t ∧ DecodeFails s t .truncatedPayload) ∧
      (rest ≠ [] → (∀ e ∈ entries, ¬ rest <+: e.2 ∧ ¬ e.2 <+: rest) →
        ∃ t, exec .decRun s = .next t ∧ DecodeFails s t .undecodable)

/-- R272: a table of two entries where one code is a prefix of the other fails with MALFORMED_TABLE in either entry
order; no byte of MEM is written and OUT_LEN = 0. -/
def Obligations.ConflictingTableIsMalformed : Prop :=
  ∀ (s : State) (src l1 l2 e2 : Nat), RegionsOk s → src = s.srcAddr.toNat → 4 ≤ s.srcLen.toNat →
    s.mem.readLE src 2 = 2 → l1 = (s.mem.read (src + 3)).toNat → e2 = 4 + (l1 + 7) / 8 →
    e2 + 2 ≤ s.srcLen.toNat → l2 = (s.mem.read (src + e2 + 1)).toNat → e2 + 2 + (l2 + 7) / 8 ≤ s.srcLen.toNat →
    1 ≤ l1 → 1 ≤ l2 →
    ((List.range l1).map (s.mem.bitAt (src + 4)) <+: (List.range l2).map (s.mem.bitAt (src + e2 + 2)) ∨
     (List.range l2).map (s.mem.bitAt (src + e2 + 2)) <+: (List.range l1).map (s.mem.bitAt (src + 4))) →
    ∃ t, exec .decRun s = .next t ∧ t.err = .malformedTable ∧ t.outLen = 0 ∧ t.rootValid = false ∧ SameMem s t

/-- R271: decode(encode(x)) = x. If ENC_RUN completes OK, then DEC_RUN on its container, wherever the output goes,
completes OK with the input as output and the encoder's codebook. -/
def Obligations.DecodeOfEncodeIsTheInput : Prop :=
  ∀ s t u : State, s.mem.wf = true → exec .encRun s = .next t → t.err = .ok → u.mem.wf = true → RegionsOk u →
    u.srcAddr = s.dstAddr → t.outLen.toNat ≤ u.srcLen.toNat → s.srcLen.toNat ≤ u.dstCap.toNat →
    (∀ k, k < t.outLen.toNat → u.mem.read (s.dstAddr.toNat + k) = t.mem.read (s.dstAddr.toNat + k)) →
    ∃ v, exec .decRun u = .next v ∧ v.err = .ok ∧ v.outLen = s.srcLen ∧ v.codebook = t.codebook ∧
      ∀ k, k < s.srcLen.toNat → v.mem.read (u.dstAddr.toNat + k) = s.mem.read (s.srcAddr.toNat + k)

/-! ## The whole machine -/

/-- 10_state.md R21: no command but RESET changes an operand register. -/
def Obligations.CommandsKeepTheOperandRegisters : Prop :=
  ∀ (i : Instr) (s t : State), exec i s = .next t → i ≠ .reset →
    t.srcAddr = s.srcAddr ∧ t.srcLen = s.srcLen ∧ t.dstAddr = s.dstAddr ∧ t.dstCap = s.dstCap ∧ t.arg = s.arg

/-- 20_memory.md R61: only BP_PUSH, ENC_RUN and DEC_RUN write MEM. -/
def Obligations.OtherCommandsKeepMem : Prop :=
  ∀ (i : Instr) (s t : State), exec i s = .next t → (∀ b, i ≠ .bpPush b) → i ≠ .encRun → i ≠ .decRun →
    t.mem = s.mem ∧ SameMem s t

/-- The canonical form of MEM is kept by every step, from every state that has it (20_memory.md R60). -/
def Obligations.StepKeepsMemoryCanonical : Prop :=
  ∀ s t : State, s.mem.wf = true → step s = .next t → t.mem.wf = true

/-- The invariant holds at reset, and at power-on for every canonical MEM_INIT inside MEM (70_reset_and_hazards.md
R342, R341). -/
def Obligations.ResetMeetsTheInvariant : Prop :=
  State.reset.Inv ∧ ∀ (cfg : Config) (mem : Memory) (host : List HostEvent), mem.wf = true →
    (∀ c ∈ mem, c.1 < cfg.memBytes) → (State.powerOn cfg mem host).Inv

/-- Every step keeps the invariant: MEM's form, the queue (42_priority_queue.md R140, R143), the arena (10_state.md
R28(a) to R28(f), R29), the codebook (R32), the packer (R33), the reader (R34), and ERR never UNKNOWN_SYMBOL (60_exceptions.md
R308). -/
def Obligations.StepKeepsTheInvariant : Prop :=
  ∀ s t : State, s.Inv → step s = .next t → t.Inv

/-- Every command completes in every state that meets the invariant (70_reset_and_hazards.md R344, R357): the step at
a pending command is a next state with BUSY = 0, and no step faults (47_encoder.md R247, 60_exceptions.md R308). -/
def Obligations.EveryCommandCompletes : Prop :=
  (∀ (s : State) (w : Word), s.Inv → s.turn = .completion w → ∃ t, step s = .next t ∧ t.busy = false) ∧
  (∀ (s : State) (f : Fault), s.Inv → step s ≠ .fault f)
end

