-- ==== Sys2Proof/Laws/State.lean ====
section
/-! SUPPORT. One lemma per field per update of the state, each true by rfl, so that no later proof unfolds a record
update. -/

namespace Sys2Proof.Machine

variable (s : State)


/-! ### State.complete -/

@[simp] theorem State.complete_cfg (code : ErrCode) : (s.complete code).cfg = s.cfg := rfl
@[simp] theorem State.complete_host (code : ErrCode) : (s.complete code).host = s.host := rfl
@[simp] theorem State.complete_replies (code : ErrCode) : (s.complete code).replies = s.replies := rfl
@[simp] theorem State.complete_rst (code : ErrCode) : (s.complete code).rst = s.rst := rfl
@[simp] theorem State.complete_srcAddr (code : ErrCode) : (s.complete code).srcAddr = s.srcAddr := rfl
@[simp] theorem State.complete_srcLen (code : ErrCode) : (s.complete code).srcLen = s.srcLen := rfl
@[simp] theorem State.complete_dstAddr (code : ErrCode) : (s.complete code).dstAddr = s.dstAddr := rfl
@[simp] theorem State.complete_dstCap (code : ErrCode) : (s.complete code).dstCap = s.dstCap := rfl
@[simp] theorem State.complete_arg (code : ErrCode) : (s.complete code).arg = s.arg := rfl
@[simp] theorem State.complete_res0 (code : ErrCode) : (s.complete code).res0 = s.res0 := rfl
@[simp] theorem State.complete_res1 (code : ErrCode) : (s.complete code).res1 = s.res1 := rfl
@[simp] theorem State.complete_outLen (code : ErrCode) : (s.complete code).outLen = s.outLen := rfl
@[simp] theorem State.complete_ovr (code : ErrCode) : (s.complete code).ovr = s.ovr := rfl
@[simp] theorem State.complete_exh (code : ErrCode) : (s.complete code).exh = s.exh := rfl
@[simp] theorem State.complete_bit (code : ErrCode) : (s.complete code).bit = s.bit := rfl
@[simp] theorem State.complete_err (code : ErrCode) : (s.complete code).err = code := rfl
@[simp] theorem State.complete_pending (code : ErrCode) : (s.complete code).pending = none := rfl
@[simp] theorem State.complete_freq (code : ErrCode) : (s.complete code).freq = s.freq := rfl
@[simp] theorem State.complete_nodes (code : ErrCode) : (s.complete code).nodes = s.nodes := rfl
@[simp] theorem State.complete_root (code : ErrCode) : (s.complete code).root = s.root := rfl
@[simp] theorem State.complete_rootValid (code : ErrCode) : (s.complete code).rootValid = s.rootValid := rfl
@[simp] theorem State.complete_queue (code : ErrCode) : (s.complete code).queue = s.queue := rfl
@[simp] theorem State.complete_pqSeq (code : ErrCode) : (s.complete code).pqSeq = s.pqSeq := rfl
@[simp] theorem State.complete_codebook (code : ErrCode) : (s.complete code).codebook = s.codebook := rfl
@[simp] theorem State.complete_bpBase (code : ErrCode) : (s.complete code).bpBase = s.bpBase := rfl
@[simp] theorem State.complete_bpCap (code : ErrCode) : (s.complete code).bpCap = s.bpCap := rfl
@[simp] theorem State.complete_bpBitcnt (code : ErrCode) : (s.complete code).bpBitcnt = s.bpBitcnt := rfl
@[simp] theorem State.complete_brBase (code : ErrCode) : (s.complete code).brBase = s.brBase := rfl
@[simp] theorem State.complete_brBytes (code : ErrCode) : (s.complete code).brBytes = s.brBytes := rfl
@[simp] theorem State.complete_brLimit (code : ErrCode) : (s.complete code).brLimit = s.brLimit := rfl
@[simp] theorem State.complete_brPos (code : ErrCode) : (s.complete code).brPos = s.brPos := rfl
@[simp] theorem State.complete_mem (code : ErrCode) : (s.complete code).mem = s.mem := rfl

/-! ### State.setReadFlags -/

@[simp] theorem State.setReadFlags_cfg (exh bit : Bool) : (s.setReadFlags exh bit).cfg = s.cfg := rfl
@[simp] theorem State.setReadFlags_host (exh bit : Bool) : (s.setReadFlags exh bit).host = s.host := rfl
@[simp] theorem State.setReadFlags_replies (exh bit : Bool) : (s.setReadFlags exh bit).replies = s.replies := rfl
@[simp] theorem State.setReadFlags_rst (exh bit : Bool) : (s.setReadFlags exh bit).rst = s.rst := rfl
@[simp] theorem State.setReadFlags_srcAddr (exh bit : Bool) : (s.setReadFlags exh bit).srcAddr = s.srcAddr := rfl
@[simp] theorem State.setReadFlags_srcLen (exh bit : Bool) : (s.setReadFlags exh bit).srcLen = s.srcLen := rfl
@[simp] theorem State.setReadFlags_dstAddr (exh bit : Bool) : (s.setReadFlags exh bit).dstAddr = s.dstAddr := rfl
@[simp] theorem State.setReadFlags_dstCap (exh bit : Bool) : (s.setReadFlags exh bit).dstCap = s.dstCap := rfl
@[simp] theorem State.setReadFlags_arg (exh bit : Bool) : (s.setReadFlags exh bit).arg = s.arg := rfl
@[simp] theorem State.setReadFlags_res0 (exh bit : Bool) : (s.setReadFlags exh bit).res0 = s.res0 := rfl
@[simp] theorem State.setReadFlags_res1 (exh bit : Bool) : (s.setReadFlags exh bit).res1 = s.res1 := rfl
@[simp] theorem State.setReadFlags_outLen (exh bit : Bool) : (s.setReadFlags exh bit).outLen = s.outLen := rfl
@[simp] theorem State.setReadFlags_ovr (exh bit : Bool) : (s.setReadFlags exh bit).ovr = s.ovr := rfl
@[simp] theorem State.setReadFlags_exh (exh bit : Bool) : (s.setReadFlags exh bit).exh = exh := rfl
@[simp] theorem State.setReadFlags_bit (exh bit : Bool) : (s.setReadFlags exh bit).bit = bit := rfl
@[simp] theorem State.setReadFlags_err (exh bit : Bool) : (s.setReadFlags exh bit).err = s.err := rfl
@[simp] theorem State.setReadFlags_pending (exh bit : Bool) : (s.setReadFlags exh bit).pending = s.pending := rfl
@[simp] theorem State.setReadFlags_freq (exh bit : Bool) : (s.setReadFlags exh bit).freq = s.freq := rfl
@[simp] theorem State.setReadFlags_nodes (exh bit : Bool) : (s.setReadFlags exh bit).nodes = s.nodes := rfl
@[simp] theorem State.setReadFlags_root (exh bit : Bool) : (s.setReadFlags exh bit).root = s.root := rfl
@[simp] theorem State.setReadFlags_rootValid (exh bit : Bool) : (s.setReadFlags exh bit).rootValid = s.rootValid := rfl
@[simp] theorem State.setReadFlags_queue (exh bit : Bool) : (s.setReadFlags exh bit).queue = s.queue := rfl
@[simp] theorem State.setReadFlags_pqSeq (exh bit : Bool) : (s.setReadFlags exh bit).pqSeq = s.pqSeq := rfl
@[simp] theorem State.setReadFlags_codebook (exh bit : Bool) : (s.setReadFlags exh bit).codebook = s.codebook := rfl
@[simp] theorem State.setReadFlags_bpBase (exh bit : Bool) : (s.setReadFlags exh bit).bpBase = s.bpBase := rfl
@[simp] theorem State.setReadFlags_bpCap (exh bit : Bool) : (s.setReadFlags exh bit).bpCap = s.bpCap := rfl
@[simp] theorem State.setReadFlags_bpBitcnt (exh bit : Bool) : (s.setReadFlags exh bit).bpBitcnt = s.bpBitcnt := rfl
@[simp] theorem State.setReadFlags_brBase (exh bit : Bool) : (s.setReadFlags exh bit).brBase = s.brBase := rfl
@[simp] theorem State.setReadFlags_brBytes (exh bit : Bool) : (s.setReadFlags exh bit).brBytes = s.brBytes := rfl
@[simp] theorem State.setReadFlags_brLimit (exh bit : Bool) : (s.setReadFlags exh bit).brLimit = s.brLimit := rfl
@[simp] theorem State.setReadFlags_brPos (exh bit : Bool) : (s.setReadFlags exh bit).brPos = s.brPos := rfl
@[simp] theorem State.setReadFlags_mem (exh bit : Bool) : (s.setReadFlags exh bit).mem = s.mem := rfl

/-! ### State.issue -/

@[simp] theorem State.issue_cfg (w : Word) : (s.issue w).cfg = s.cfg := rfl
@[simp] theorem State.issue_host (w : Word) : (s.issue w).host = s.host := rfl
@[simp] theorem State.issue_replies (w : Word) : (s.issue w).replies = s.replies := rfl
@[simp] theorem State.issue_rst (w : Word) : (s.issue w).rst = s.rst := rfl
@[simp] theorem State.issue_srcAddr (w : Word) : (s.issue w).srcAddr = s.srcAddr := rfl
@[simp] theorem State.issue_srcLen (w : Word) : (s.issue w).srcLen = s.srcLen := rfl
@[simp] theorem State.issue_dstAddr (w : Word) : (s.issue w).dstAddr = s.dstAddr := rfl
@[simp] theorem State.issue_dstCap (w : Word) : (s.issue w).dstCap = s.dstCap := rfl
@[simp] theorem State.issue_arg (w : Word) : (s.issue w).arg = s.arg := rfl
@[simp] theorem State.issue_res0 (w : Word) : (s.issue w).res0 = s.res0 := rfl
@[simp] theorem State.issue_res1 (w : Word) : (s.issue w).res1 = s.res1 := rfl
@[simp] theorem State.issue_outLen (w : Word) : (s.issue w).outLen = s.outLen := rfl
@[simp] theorem State.issue_ovr (w : Word) : (s.issue w).ovr = s.ovr := rfl
@[simp] theorem State.issue_exh (w : Word) : (s.issue w).exh = s.exh := rfl
@[simp] theorem State.issue_bit (w : Word) : (s.issue w).bit = s.bit := rfl
@[simp] theorem State.issue_err (w : Word) : (s.issue w).err = s.err := rfl
@[simp] theorem State.issue_pending (w : Word) : (s.issue w).pending = some w := rfl
@[simp] theorem State.issue_freq (w : Word) : (s.issue w).freq = s.freq := rfl
@[simp] theorem State.issue_nodes (w : Word) : (s.issue w).nodes = s.nodes := rfl
@[simp] theorem State.issue_root (w : Word) : (s.issue w).root = s.root := rfl
@[simp] theorem State.issue_rootValid (w : Word) : (s.issue w).rootValid = s.rootValid := rfl
@[simp] theorem State.issue_queue (w : Word) : (s.issue w).queue = s.queue := rfl
@[simp] theorem State.issue_pqSeq (w : Word) : (s.issue w).pqSeq = s.pqSeq := rfl
@[simp] theorem State.issue_codebook (w : Word) : (s.issue w).codebook = s.codebook := rfl
@[simp] theorem State.issue_bpBase (w : Word) : (s.issue w).bpBase = s.bpBase := rfl
@[simp] theorem State.issue_bpCap (w : Word) : (s.issue w).bpCap = s.bpCap := rfl
@[simp] theorem State.issue_bpBitcnt (w : Word) : (s.issue w).bpBitcnt = s.bpBitcnt := rfl
@[simp] theorem State.issue_brBase (w : Word) : (s.issue w).brBase = s.brBase := rfl
@[simp] theorem State.issue_brBytes (w : Word) : (s.issue w).brBytes = s.brBytes := rfl
@[simp] theorem State.issue_brLimit (w : Word) : (s.issue w).brLimit = s.brLimit := rfl
@[simp] theorem State.issue_brPos (w : Word) : (s.issue w).brPos = s.brPos := rfl
@[simp] theorem State.issue_mem (w : Word) : (s.issue w).mem = s.mem := rfl

/-! ### State.dropWrite -/

@[simp] theorem State.dropWrite_cfg : (s.dropWrite).cfg = s.cfg := rfl
@[simp] theorem State.dropWrite_host : (s.dropWrite).host = s.host := rfl
@[simp] theorem State.dropWrite_replies : (s.dropWrite).replies = s.replies := rfl
@[simp] theorem State.dropWrite_rst : (s.dropWrite).rst = s.rst := rfl
@[simp] theorem State.dropWrite_srcAddr : (s.dropWrite).srcAddr = s.srcAddr := rfl
@[simp] theorem State.dropWrite_srcLen : (s.dropWrite).srcLen = s.srcLen := rfl
@[simp] theorem State.dropWrite_dstAddr : (s.dropWrite).dstAddr = s.dstAddr := rfl
@[simp] theorem State.dropWrite_dstCap : (s.dropWrite).dstCap = s.dstCap := rfl
@[simp] theorem State.dropWrite_arg : (s.dropWrite).arg = s.arg := rfl
@[simp] theorem State.dropWrite_res0 : (s.dropWrite).res0 = s.res0 := rfl
@[simp] theorem State.dropWrite_res1 : (s.dropWrite).res1 = s.res1 := rfl
@[simp] theorem State.dropWrite_outLen : (s.dropWrite).outLen = s.outLen := rfl
@[simp] theorem State.dropWrite_ovr : (s.dropWrite).ovr = true := rfl
@[simp] theorem State.dropWrite_exh : (s.dropWrite).exh = s.exh := rfl
@[simp] theorem State.dropWrite_bit : (s.dropWrite).bit = s.bit := rfl
@[simp] theorem State.dropWrite_err : (s.dropWrite).err = s.err := rfl
@[simp] theorem State.dropWrite_pending : (s.dropWrite).pending = s.pending := rfl
@[simp] theorem State.dropWrite_freq : (s.dropWrite).freq = s.freq := rfl
@[simp] theorem State.dropWrite_nodes : (s.dropWrite).nodes = s.nodes := rfl
@[simp] theorem State.dropWrite_root : (s.dropWrite).root = s.root := rfl
@[simp] theorem State.dropWrite_rootValid : (s.dropWrite).rootValid = s.rootValid := rfl
@[simp] theorem State.dropWrite_queue : (s.dropWrite).queue = s.queue := rfl
@[simp] theorem State.dropWrite_pqSeq : (s.dropWrite).pqSeq = s.pqSeq := rfl
@[simp] theorem State.dropWrite_codebook : (s.dropWrite).codebook = s.codebook := rfl
@[simp] theorem State.dropWrite_bpBase : (s.dropWrite).bpBase = s.bpBase := rfl
@[simp] theorem State.dropWrite_bpCap : (s.dropWrite).bpCap = s.bpCap := rfl
@[simp] theorem State.dropWrite_bpBitcnt : (s.dropWrite).bpBitcnt = s.bpBitcnt := rfl
@[simp] theorem State.dropWrite_brBase : (s.dropWrite).brBase = s.brBase := rfl
@[simp] theorem State.dropWrite_brBytes : (s.dropWrite).brBytes = s.brBytes := rfl
@[simp] theorem State.dropWrite_brLimit : (s.dropWrite).brLimit = s.brLimit := rfl
@[simp] theorem State.dropWrite_brPos : (s.dropWrite).brPos = s.brPos := rfl
@[simp] theorem State.dropWrite_mem : (s.dropWrite).mem = s.mem := rfl

/-! ### State.reply -/

@[simp] theorem State.reply_cfg (r : HostReply) : (s.reply r).cfg = s.cfg := rfl
@[simp] theorem State.reply_host (r : HostReply) : (s.reply r).host = s.host := rfl
@[simp] theorem State.reply_replies (r : HostReply) : (s.reply r).replies = r :: s.replies := rfl
@[simp] theorem State.reply_rst (r : HostReply) : (s.reply r).rst = s.rst := rfl
@[simp] theorem State.reply_srcAddr (r : HostReply) : (s.reply r).srcAddr = s.srcAddr := rfl
@[simp] theorem State.reply_srcLen (r : HostReply) : (s.reply r).srcLen = s.srcLen := rfl
@[simp] theorem State.reply_dstAddr (r : HostReply) : (s.reply r).dstAddr = s.dstAddr := rfl
@[simp] theorem State.reply_dstCap (r : HostReply) : (s.reply r).dstCap = s.dstCap := rfl
@[simp] theorem State.reply_arg (r : HostReply) : (s.reply r).arg = s.arg := rfl
@[simp] theorem State.reply_res0 (r : HostReply) : (s.reply r).res0 = s.res0 := rfl
@[simp] theorem State.reply_res1 (r : HostReply) : (s.reply r).res1 = s.res1 := rfl
@[simp] theorem State.reply_outLen (r : HostReply) : (s.reply r).outLen = s.outLen := rfl
@[simp] theorem State.reply_ovr (r : HostReply) : (s.reply r).ovr = s.ovr := rfl
@[simp] theorem State.reply_exh (r : HostReply) : (s.reply r).exh = s.exh := rfl
@[simp] theorem State.reply_bit (r : HostReply) : (s.reply r).bit = s.bit := rfl
@[simp] theorem State.reply_err (r : HostReply) : (s.reply r).err = s.err := rfl
@[simp] theorem State.reply_pending (r : HostReply) : (s.reply r).pending = s.pending := rfl
@[simp] theorem State.reply_freq (r : HostReply) : (s.reply r).freq = s.freq := rfl
@[simp] theorem State.reply_nodes (r : HostReply) : (s.reply r).nodes = s.nodes := rfl
@[simp] theorem State.reply_root (r : HostReply) : (s.reply r).root = s.root := rfl
@[simp] theorem State.reply_rootValid (r : HostReply) : (s.reply r).rootValid = s.rootValid := rfl
@[simp] theorem State.reply_queue (r : HostReply) : (s.reply r).queue = s.queue := rfl
@[simp] theorem State.reply_pqSeq (r : HostReply) : (s.reply r).pqSeq = s.pqSeq := rfl
@[simp] theorem State.reply_codebook (r : HostReply) : (s.reply r).codebook = s.codebook := rfl
@[simp] theorem State.reply_bpBase (r : HostReply) : (s.reply r).bpBase = s.bpBase := rfl
@[simp] theorem State.reply_bpCap (r : HostReply) : (s.reply r).bpCap = s.bpCap := rfl
@[simp] theorem State.reply_bpBitcnt (r : HostReply) : (s.reply r).bpBitcnt = s.bpBitcnt := rfl
@[simp] theorem State.reply_brBase (r : HostReply) : (s.reply r).brBase = s.brBase := rfl
@[simp] theorem State.reply_brBytes (r : HostReply) : (s.reply r).brBytes = s.brBytes := rfl
@[simp] theorem State.reply_brLimit (r : HostReply) : (s.reply r).brLimit = s.brLimit := rfl
@[simp] theorem State.reply_brPos (r : HostReply) : (s.reply r).brPos = s.brPos := rfl
@[simp] theorem State.reply_mem (r : HostReply) : (s.reply r).mem = s.mem := rfl

/-! ### State.failDecode -/

@[simp] theorem State.failDecode_cfg : (s.failDecode).cfg = s.cfg := rfl
@[simp] theorem State.failDecode_host : (s.failDecode).host = s.host := rfl
@[simp] theorem State.failDecode_replies : (s.failDecode).replies = s.replies := rfl
@[simp] theorem State.failDecode_rst : (s.failDecode).rst = s.rst := rfl
@[simp] theorem State.failDecode_srcAddr : (s.failDecode).srcAddr = s.srcAddr := rfl
@[simp] theorem State.failDecode_srcLen : (s.failDecode).srcLen = s.srcLen := rfl
@[simp] theorem State.failDecode_dstAddr : (s.failDecode).dstAddr = s.dstAddr := rfl
@[simp] theorem State.failDecode_dstCap : (s.failDecode).dstCap = s.dstCap := rfl
@[simp] theorem State.failDecode_arg : (s.failDecode).arg = s.arg := rfl
@[simp] theorem State.failDecode_res0 : (s.failDecode).res0 = s.res0 := rfl
@[simp] theorem State.failDecode_res1 : (s.failDecode).res1 = s.res1 := rfl
@[simp] theorem State.failDecode_outLen : (s.failDecode).outLen = 0 := rfl
@[simp] theorem State.failDecode_ovr : (s.failDecode).ovr = s.ovr := rfl
@[simp] theorem State.failDecode_exh : (s.failDecode).exh = s.exh := rfl
@[simp] theorem State.failDecode_bit : (s.failDecode).bit = s.bit := rfl
@[simp] theorem State.failDecode_err : (s.failDecode).err = s.err := rfl
@[simp] theorem State.failDecode_pending : (s.failDecode).pending = s.pending := rfl
@[simp] theorem State.failDecode_freq : (s.failDecode).freq = s.freq := rfl
@[simp] theorem State.failDecode_nodes : (s.failDecode).nodes = [] := rfl
@[simp] theorem State.failDecode_root : (s.failDecode).root = 0 := rfl
@[simp] theorem State.failDecode_rootValid : (s.failDecode).rootValid = false := rfl
@[simp] theorem State.failDecode_queue : (s.failDecode).queue = s.queue := rfl
@[simp] theorem State.failDecode_pqSeq : (s.failDecode).pqSeq = s.pqSeq := rfl
@[simp] theorem State.failDecode_codebook : (s.failDecode).codebook = emptyCodebook := rfl
@[simp] theorem State.failDecode_bpBase : (s.failDecode).bpBase = s.bpBase := rfl
@[simp] theorem State.failDecode_bpCap : (s.failDecode).bpCap = s.bpCap := rfl
@[simp] theorem State.failDecode_bpBitcnt : (s.failDecode).bpBitcnt = s.bpBitcnt := rfl
@[simp] theorem State.failDecode_brBase : (s.failDecode).brBase = s.brBase := rfl
@[simp] theorem State.failDecode_brBytes : (s.failDecode).brBytes = s.brBytes := rfl
@[simp] theorem State.failDecode_brLimit : (s.failDecode).brLimit = s.brLimit := rfl
@[simp] theorem State.failDecode_brPos : (s.failDecode).brPos = s.brPos := rfl
@[simp] theorem State.failDecode_mem : (s.failDecode).mem = s.mem := rfl

/-! ### State.resetBlock -/

@[simp] theorem State.resetBlock_cfg : (s.resetBlock).cfg = s.cfg := rfl
@[simp] theorem State.resetBlock_host : (s.resetBlock).host = s.host := rfl
@[simp] theorem State.resetBlock_replies : (s.resetBlock).replies = s.replies := rfl
@[simp] theorem State.resetBlock_rst : (s.resetBlock).rst = s.rst := rfl
@[simp] theorem State.resetBlock_srcAddr : (s.resetBlock).srcAddr = 0 := rfl
@[simp] theorem State.resetBlock_srcLen : (s.resetBlock).srcLen = 0 := rfl
@[simp] theorem State.resetBlock_dstAddr : (s.resetBlock).dstAddr = 0 := rfl
@[simp] theorem State.resetBlock_dstCap : (s.resetBlock).dstCap = 0 := rfl
@[simp] theorem State.resetBlock_arg : (s.resetBlock).arg = 0 := rfl
@[simp] theorem State.resetBlock_res0 : (s.resetBlock).res0 = 0 := rfl
@[simp] theorem State.resetBlock_res1 : (s.resetBlock).res1 = 0 := rfl
@[simp] theorem State.resetBlock_outLen : (s.resetBlock).outLen = 0 := rfl
@[simp] theorem State.resetBlock_ovr : (s.resetBlock).ovr = false := rfl
@[simp] theorem State.resetBlock_exh : (s.resetBlock).exh = false := rfl
@[simp] theorem State.resetBlock_bit : (s.resetBlock).bit = false := rfl
@[simp] theorem State.resetBlock_err : (s.resetBlock).err = .ok := rfl
@[simp] theorem State.resetBlock_pending : (s.resetBlock).pending = none := rfl
@[simp] theorem State.resetBlock_freq : (s.resetBlock).freq = Vector.replicate 256 0 := rfl
@[simp] theorem State.resetBlock_nodes : (s.resetBlock).nodes = [] := rfl
@[simp] theorem State.resetBlock_root : (s.resetBlock).root = 0 := rfl
@[simp] theorem State.resetBlock_rootValid : (s.resetBlock).rootValid = false := rfl
@[simp] theorem State.resetBlock_queue : (s.resetBlock).queue = [] := rfl
@[simp] theorem State.resetBlock_pqSeq : (s.resetBlock).pqSeq = 0 := rfl
@[simp] theorem State.resetBlock_codebook : (s.resetBlock).codebook = emptyCodebook := rfl
@[simp] theorem State.resetBlock_bpBase : (s.resetBlock).bpBase = 0 := rfl
@[simp] theorem State.resetBlock_bpCap : (s.resetBlock).bpCap = 0 := rfl
@[simp] theorem State.resetBlock_bpBitcnt : (s.resetBlock).bpBitcnt = 0 := rfl
@[simp] theorem State.resetBlock_brBase : (s.resetBlock).brBase = 0 := rfl
@[simp] theorem State.resetBlock_brBytes : (s.resetBlock).brBytes = 0 := rfl
@[simp] theorem State.resetBlock_brLimit : (s.resetBlock).brLimit = 0 := rfl
@[simp] theorem State.resetBlock_brPos : (s.resetBlock).brPos = 0 := rfl
@[simp] theorem State.resetBlock_mem : (s.resetBlock).mem = s.mem := rfl

/-! ### State.awaitCompletion -/

@[simp] theorem State.awaitCompletion_cfg (w : Word) : (s.awaitCompletion w).cfg = s.cfg := rfl
@[simp] theorem State.awaitCompletion_replies (w : Word) : (s.awaitCompletion w).replies = s.replies := rfl
@[simp] theorem State.awaitCompletion_rst (w : Word) : (s.awaitCompletion w).rst = false := rfl
@[simp] theorem State.awaitCompletion_srcAddr (w : Word) : (s.awaitCompletion w).srcAddr = s.srcAddr := rfl
@[simp] theorem State.awaitCompletion_srcLen (w : Word) : (s.awaitCompletion w).srcLen = s.srcLen := rfl
@[simp] theorem State.awaitCompletion_dstAddr (w : Word) : (s.awaitCompletion w).dstAddr = s.dstAddr := rfl
@[simp] theorem State.awaitCompletion_dstCap (w : Word) : (s.awaitCompletion w).dstCap = s.dstCap := rfl
@[simp] theorem State.awaitCompletion_arg (w : Word) : (s.awaitCompletion w).arg = s.arg := rfl
@[simp] theorem State.awaitCompletion_res0 (w : Word) : (s.awaitCompletion w).res0 = s.res0 := rfl
@[simp] theorem State.awaitCompletion_res1 (w : Word) : (s.awaitCompletion w).res1 = s.res1 := rfl
@[simp] theorem State.awaitCompletion_outLen (w : Word) : (s.awaitCompletion w).outLen = s.outLen := rfl
@[simp] theorem State.awaitCompletion_ovr (w : Word) : (s.awaitCompletion w).ovr = s.ovr := rfl
@[simp] theorem State.awaitCompletion_exh (w : Word) : (s.awaitCompletion w).exh = s.exh := rfl
@[simp] theorem State.awaitCompletion_bit (w : Word) : (s.awaitCompletion w).bit = s.bit := rfl
@[simp] theorem State.awaitCompletion_err (w : Word) : (s.awaitCompletion w).err = s.err := rfl
@[simp] theorem State.awaitCompletion_pending (w : Word) : (s.awaitCompletion w).pending = some w := rfl
@[simp] theorem State.awaitCompletion_freq (w : Word) : (s.awaitCompletion w).freq = s.freq := rfl
@[simp] theorem State.awaitCompletion_nodes (w : Word) : (s.awaitCompletion w).nodes = s.nodes := rfl
@[simp] theorem State.awaitCompletion_root (w : Word) : (s.awaitCompletion w).root = s.root := rfl
@[simp] theorem State.awaitCompletion_rootValid (w : Word) : (s.awaitCompletion w).rootValid = s.rootValid := rfl
@[simp] theorem State.awaitCompletion_queue (w : Word) : (s.awaitCompletion w).queue = s.queue := rfl
@[simp] theorem State.awaitCompletion_pqSeq (w : Word) : (s.awaitCompletion w).pqSeq = s.pqSeq := rfl
@[simp] theorem State.awaitCompletion_codebook (w : Word) : (s.awaitCompletion w).codebook = s.codebook := rfl
@[simp] theorem State.awaitCompletion_bpBase (w : Word) : (s.awaitCompletion w).bpBase = s.bpBase := rfl
@[simp] theorem State.awaitCompletion_bpCap (w : Word) : (s.awaitCompletion w).bpCap = s.bpCap := rfl
@[simp] theorem State.awaitCompletion_bpBitcnt (w : Word) : (s.awaitCompletion w).bpBitcnt = s.bpBitcnt := rfl
@[simp] theorem State.awaitCompletion_brBase (w : Word) : (s.awaitCompletion w).brBase = s.brBase := rfl
@[simp] theorem State.awaitCompletion_brBytes (w : Word) : (s.awaitCompletion w).brBytes = s.brBytes := rfl
@[simp] theorem State.awaitCompletion_brLimit (w : Word) : (s.awaitCompletion w).brLimit = s.brLimit := rfl
@[simp] theorem State.awaitCompletion_brPos (w : Word) : (s.awaitCompletion w).brPos = s.brPos := rfl
@[simp] theorem State.awaitCompletion_mem (w : Word) : (s.awaitCompletion w).mem = s.mem := rfl

/-! ### State.powerOn -/

@[simp] theorem State.powerOn_cfg (cfg : Config) (mem : Memory) (host : List HostEvent) : (State.powerOn cfg mem host).cfg = cfg := rfl
@[simp] theorem State.powerOn_host (cfg : Config) (mem : Memory) (host : List HostEvent) : (State.powerOn cfg mem host).host = host := rfl
@[simp] theorem State.powerOn_replies (cfg : Config) (mem : Memory) (host : List HostEvent) : (State.powerOn cfg mem host).replies = [] := rfl
@[simp] theorem State.powerOn_rst (cfg : Config) (mem : Memory) (host : List HostEvent) : (State.powerOn cfg mem host).rst = false := rfl
@[simp] theorem State.powerOn_srcAddr (cfg : Config) (mem : Memory) (host : List HostEvent) : (State.powerOn cfg mem host).srcAddr = 0 := rfl
@[simp] theorem State.powerOn_srcLen (cfg : Config) (mem : Memory) (host : List HostEvent) : (State.powerOn cfg mem host).srcLen = 0 := rfl
@[simp] theorem State.powerOn_dstAddr (cfg : Config) (mem : Memory) (host : List HostEvent) : (State.powerOn cfg mem host).dstAddr = 0 := rfl
@[simp] theorem State.powerOn_dstCap (cfg : Config) (mem : Memory) (host : List HostEvent) : (State.powerOn cfg mem host).dstCap = 0 := rfl
@[simp] theorem State.powerOn_arg (cfg : Config) (mem : Memory) (host : List HostEvent) : (State.powerOn cfg mem host).arg = 0 := rfl
@[simp] theorem State.powerOn_res0 (cfg : Config) (mem : Memory) (host : List HostEvent) : (State.powerOn cfg mem host).res0 = 0 := rfl
@[simp] theorem State.powerOn_res1 (cfg : Config) (mem : Memory) (host : List HostEvent) : (State.powerOn cfg mem host).res1 = 0 := rfl
@[simp] theorem State.powerOn_outLen (cfg : Config) (mem : Memory) (host : List HostEvent) : (State.powerOn cfg mem host).outLen = 0 := rfl
@[simp] theorem State.powerOn_ovr (cfg : Config) (mem : Memory) (host : List HostEvent) : (State.powerOn cfg mem host).ovr = false := rfl
@[simp] theorem State.powerOn_exh (cfg : Config) (mem : Memory) (host : List HostEvent) : (State.powerOn cfg mem host).exh = false := rfl
@[simp] theorem State.powerOn_bit (cfg : Config) (mem : Memory) (host : List HostEvent) : (State.powerOn cfg mem host).bit = false := rfl
@[simp] theorem State.powerOn_err (cfg : Config) (mem : Memory) (host : List HostEvent) : (State.powerOn cfg mem host).err = .ok := rfl
@[simp] theorem State.powerOn_pending (cfg : Config) (mem : Memory) (host : List HostEvent) : (State.powerOn cfg mem host).pending = none := rfl
@[simp] theorem State.powerOn_freq (cfg : Config) (mem : Memory) (host : List HostEvent) : (State.powerOn cfg mem host).freq = Vector.replicate 256 0 := rfl
@[simp] theorem State.powerOn_nodes (cfg : Config) (mem : Memory) (host : List HostEvent) : (State.powerOn cfg mem host).nodes = [] := rfl
@[simp] theorem State.powerOn_root (cfg : Config) (mem : Memory) (host : List HostEvent) : (State.powerOn cfg mem host).root = 0 := rfl
@[simp] theorem State.powerOn_rootValid (cfg : Config) (mem : Memory) (host : List HostEvent) : (State.powerOn cfg mem host).rootValid = false := rfl
@[simp] theorem State.powerOn_queue (cfg : Config) (mem : Memory) (host : List HostEvent) : (State.powerOn cfg mem host).queue = [] := rfl
@[simp] theorem State.powerOn_pqSeq (cfg : Config) (mem : Memory) (host : List HostEvent) : (State.powerOn cfg mem host).pqSeq = 0 := rfl
@[simp] theorem State.powerOn_codebook (cfg : Config) (mem : Memory) (host : List HostEvent) : (State.powerOn cfg mem host).codebook = emptyCodebook := rfl
@[simp] theorem State.powerOn_bpBase (cfg : Config) (mem : Memory) (host : List HostEvent) : (State.powerOn cfg mem host).bpBase = 0 := rfl
@[simp] theorem State.powerOn_bpCap (cfg : Config) (mem : Memory) (host : List HostEvent) : (State.powerOn cfg mem host).bpCap = 0 := rfl
@[simp] theorem State.powerOn_bpBitcnt (cfg : Config) (mem : Memory) (host : List HostEvent) : (State.powerOn cfg mem host).bpBitcnt = 0 := rfl
@[simp] theorem State.powerOn_brBase (cfg : Config) (mem : Memory) (host : List HostEvent) : (State.powerOn cfg mem host).brBase = 0 := rfl
@[simp] theorem State.powerOn_brBytes (cfg : Config) (mem : Memory) (host : List HostEvent) : (State.powerOn cfg mem host).brBytes = 0 := rfl
@[simp] theorem State.powerOn_brLimit (cfg : Config) (mem : Memory) (host : List HostEvent) : (State.powerOn cfg mem host).brLimit = 0 := rfl
@[simp] theorem State.powerOn_brPos (cfg : Config) (mem : Memory) (host : List HostEvent) : (State.powerOn cfg mem host).brPos = 0 := rfl
@[simp] theorem State.powerOn_mem (cfg : Config) (mem : Memory) (host : List HostEvent) : (State.powerOn cfg mem host).mem = mem := rfl

end Sys2Proof.Machine
end

