-- ==== Sys2Proof/Laws/Memory.lean ====
section
/-! SUPPORT. The laws of MEM: a read after a write, the canonical form, and runs of bytes. -/

namespace Sys2Proof.Machine

/-! ### One byte -/

theorem Memory.read_cons (b : Nat) (v : Byte) (m : Memory) (a : Nat) :
    Memory.read ((b, v) :: m) a = if b = a then v else Memory.read m a := rfl

theorem Memory.read_cell_append_ne {a b : Nat} (v : Byte) (m : Memory) (h : b ≠ a) :
    Memory.read (Memory.cell a v ++ m) b = Memory.read m b := by
  unfold Memory.cell
  split
  · rfl
  · simp [Memory.read_cons, Ne.symm h]

/-- A write leaves every other address alone, in any memory. -/
theorem Memory.read_write_ne (m : Memory) {a b : Nat} (v : Byte) (h : b ≠ a) :
    (m.write a v).read b = m.read b := by
  induction m with
  | nil => simpa [Memory.write] using Memory.read_cell_append_ne v [] h
  | cons c m ih =>
    obtain ⟨c, w⟩ := c
    unfold Memory.write
    split
    · exact Memory.read_cell_append_ne v _ h
    · split
      · subst_vars
        rw [Memory.read_cell_append_ne v _ h, Memory.read_cons, if_neg (Ne.symm h)]
      · simp [Memory.read_cons, ih]

/-- An address below every listed one reads as unlisted. -/
theorem Memory.read_of_wfAbove {lo : Nat} {m : Memory} (hm : Memory.wfAbove lo m = true) {a : Nat} (h : a < lo) :
    m.read a = Memory.unlisted := by
  induction m generalizing lo with
  | nil => rfl
  | cons c m ih =>
    obtain ⟨c, w⟩ := c
    simp only [Memory.wfAbove, Bool.and_eq_true, decide_eq_true_eq] at hm
    rw [Memory.read_cons, if_neg (by omega)]
    exact ih hm.2 (by omega)

theorem Memory.wfAbove_mono {lo lo' : Nat} {m : Memory} (hm : Memory.wfAbove lo m = true) (h : lo' ≤ lo) :
    Memory.wfAbove lo' m = true := by
  cases m with
  | nil => rfl
  | cons c m =>
    obtain ⟨c, w⟩ := c
    simp only [Memory.wfAbove, Bool.and_eq_true, decide_eq_true_eq] at hm ⊢
    exact ⟨⟨by omega, hm.1.2⟩, hm.2⟩

theorem Memory.read_cell_append_self {a : Nat} (v : Byte) {m : Memory} (hm : Memory.wfAbove (a + 1) m = true) :
    Memory.read (Memory.cell a v ++ m) a = v := by
  unfold Memory.cell
  split
  · next h => simpa [h] using Memory.read_of_wfAbove hm (Nat.lt_succ_self a)
  · simp [Memory.read_cons]

theorem Memory.read_write_self_above {lo : Nat} {m : Memory} (hm : Memory.wfAbove lo m = true) (a : Nat) (v : Byte) :
    (m.write a v).read a = v := by
  induction m generalizing lo with
  | nil => simpa [Memory.write] using Memory.read_cell_append_self (m := []) v rfl
  | cons c m ih =>
    obtain ⟨c, w⟩ := c
    have hm' := hm
    simp only [Memory.wfAbove, Bool.and_eq_true, decide_eq_true_eq] at hm'
    unfold Memory.write
    split
    · next h =>
      refine Memory.read_cell_append_self v ?_
      simp only [Memory.wfAbove, Bool.and_eq_true, decide_eq_true_eq]
      exact ⟨⟨by omega, hm'.1.2⟩, hm'.2⟩
    · split
      · next h => subst h; exact Memory.read_cell_append_self v hm'.2
      · next h => rw [Memory.read_cons, if_neg (Ne.symm h)]; exact ih hm'.2

/-- A read after a write to the same address gives the value written. -/
theorem Memory.read_write_self {m : Memory} (hm : m.wf = true) (a : Nat) (v : Byte) : (m.write a v).read a = v :=
  Memory.read_write_self_above hm a v

theorem Memory.wfAbove_cell_append {lo a : Nat} (v : Byte) {m : Memory} (ha : lo ≤ a)
    (hm : Memory.wfAbove (a + 1) m = true) : Memory.wfAbove lo (Memory.cell a v ++ m) = true := by
  unfold Memory.cell
  split
  · exact Memory.wfAbove_mono hm (by omega)
  · next h => simpa [Memory.wfAbove, ha, h] using hm

theorem Memory.wfAbove_write {lo : Nat} {m : Memory} (hm : Memory.wfAbove lo m = true) {a : Nat} (ha : lo ≤ a)
    (v : Byte) : Memory.wfAbove lo (m.write a v) = true := by
  induction m generalizing lo with
  | nil => simpa [Memory.write] using Memory.wfAbove_cell_append (m := []) v ha rfl
  | cons c m ih =>
    obtain ⟨c, w⟩ := c
    have hm' := hm
    simp only [Memory.wfAbove, Bool.and_eq_true, decide_eq_true_eq] at hm'
    unfold Memory.write
    split
    · next h =>
      refine Memory.wfAbove_cell_append v ha ?_
      simp only [Memory.wfAbove, Bool.and_eq_true, decide_eq_true_eq]
      exact ⟨⟨by omega, hm'.1.2⟩, hm'.2⟩
    · split
      · next h => subst h; exact Memory.wfAbove_cell_append v ha hm'.2
      · next h1 h2 =>
        simp only [Memory.wfAbove, Bool.and_eq_true, decide_eq_true_eq]
        exact ⟨hm'.1, ih hm'.2 (by omega)⟩

/-- A write keeps the canonical form. -/
theorem Memory.wf_write {m : Memory} (hm : m.wf = true) (a : Nat) (v : Byte) : (m.write a v).wf = true :=
  Memory.wfAbove_write hm (Nat.zero_le a) v

/-- A write lists no new address but the one written. -/
theorem Memory.mem_write {m : Memory} {a : Nat} {v : Byte} {c : Host.Cell} (h : c ∈ m.write a v) : c.1 = a ∨ c ∈ m := by
  have hcell : ∀ {c : Host.Cell}, c ∈ Memory.cell a v → c.1 = a := by
    intro c hc
    unfold Memory.cell at hc
    split at hc
    · simp at hc
    · simp at hc; simp [hc]
  induction m with
  | nil => exact .inl (hcell h)
  | cons d m ih =>
    obtain ⟨d, w⟩ := d
    unfold Memory.write at h
    split at h
    · rcases List.mem_append.1 h with h | h
      · exact .inl (hcell h)
      · exact .inr h
    · split at h
      · rcases List.mem_append.1 h with h | h
        · exact .inl (hcell h)
        · exact .inr (List.mem_cons_of_mem _ h)
      · rcases List.mem_cons.1 h with h | h
        · exact .inr (h ▸ List.mem_cons_self)
        · exact (ih h).imp_right (List.mem_cons_of_mem _)

theorem Memory.ext_above {lo : Nat} {m m' : Memory} (hm : Memory.wfAbove lo m = true) (hm' : Memory.wfAbove lo m' = true)
    (h : ∀ a, m.read a = m'.read a) : m = m' := by
  induction m generalizing lo m' with
  | nil =>
    cases m' with
    | nil => rfl
    | cons c m' =>
      obtain ⟨c, w⟩ := c
      simp only [Memory.wfAbove, Bool.and_eq_true, bne_iff_ne, ne_eq] at hm'
      have := h c
      simp [Memory.read_cons] at this
      exact absurd this.symm hm'.1.2
  | cons c m ih =>
    obtain ⟨c, w⟩ := c
    have hw := hm
    simp only [Memory.wfAbove, Bool.and_eq_true, decide_eq_true_eq, bne_iff_ne, ne_eq] at hw
    cases m' with
    | nil =>
      have := h c
      simp [Memory.read_cons] at this
      exact absurd this hw.1.2
    | cons d m' =>
      obtain ⟨d, x⟩ := d
      have hx := hm'
      simp only [Memory.wfAbove, Bool.and_eq_true, decide_eq_true_eq, bne_iff_ne, ne_eq] at hx
      have hcd : c = d := by
        rcases Nat.lt_trichotomy c d with hlt | heq | hgt
        · have := h c
          rw [Memory.read_cons, if_pos rfl, Memory.read_cons, if_neg (by omega),
            Memory.read_of_wfAbove hx.2 (by omega)] at this
          exact absurd this hw.1.2
        · exact heq
        · have := h d
          rw [Memory.read_cons, if_neg (by omega), Memory.read_cons, if_pos rfl,
            Memory.read_of_wfAbove hw.2 (by omega)] at this
          exact absurd this.symm hx.1.2
      subst hcd
      have hv : w = x := by simpa [Memory.read_cons] using h c
      subst hv
      congr 1
      refine ih hw.2 hx.2 fun a => ?_
      by_cases ha : c = a
      · subst ha
        rw [Memory.read_of_wfAbove hw.2 (by omega), Memory.read_of_wfAbove hx.2 (by omega)]
      · simpa [Memory.read_cons, ha] using h a

/-- Two canonical memories that read alike at every address are equal data. -/
theorem Memory.ext_read {m m' : Memory} (hm : m.wf = true) (hm' : m'.wf = true) (h : ∀ a, m.read a = m'.read a) :
    m = m' :=
  Memory.ext_above hm hm' h

/-! ### Runs of bytes -/

@[simp] theorem Memory.writeBytes_nil (m : Memory) (a : Nat) : m.writeBytes a [] = m := rfl

theorem Memory.writeBytes_cons (m : Memory) (a : Nat) (v : Byte) (vs : List Byte) :
    m.writeBytes a (v :: vs) = (m.write a v).writeBytes (a + 1) vs := rfl

theorem Memory.wf_writeBytes {m : Memory} (hm : m.wf = true) (a : Nat) (vs : List Byte) :
    (m.writeBytes a vs).wf = true := by
  induction vs generalizing m a with
  | nil => exact hm
  | cons v vs ih => exact ih (Memory.wf_write hm a v) (a + 1)

theorem Memory.mem_writeBytes {m : Memory} {a : Nat} {vs : List Byte} {c : Host.Cell} (h : c ∈ m.writeBytes a vs) :
    (a ≤ c.1 ∧ c.1 < a + vs.length) ∨ c ∈ m := by
  induction vs generalizing m a with
  | nil => exact .inr h
  | cons v vs ih =>
    rcases ih h with h | h
    · left; simp only [List.length_cons]; omega
    · rcases Memory.mem_write h with h | h
      · left; simp only [List.length_cons]; omega
      · exact .inr h

/-- Bytes outside the run read as before, in any memory. -/
theorem Memory.read_writeBytes_outside (m : Memory) {a b : Nat} (vs : List Byte) (h : ¬ (a ≤ b ∧ b < a + vs.length)) :
    (m.writeBytes a vs).read b = m.read b := by
  induction vs generalizing m a with
  | nil => rfl
  | cons v vs ih =>
    simp only [List.length_cons] at h
    rw [Memory.writeBytes_cons, ih _ (by omega), Memory.read_write_ne _ _ (by omega)]

theorem Memory.read_writeBytes_inside {m : Memory} (hm : m.wf = true) (a : Nat) (vs : List Byte) {k : Nat}
    (hk : k < vs.length) : (m.writeBytes a vs).read (a + k) = vs[k] := by
  induction vs generalizing m a k with
  | nil => simp at hk
  | cons v vs ih =>
    rw [Memory.writeBytes_cons]
    cases k with
    | zero =>
      rw [Memory.read_writeBytes_outside _ _ (by omega)]
      exact Memory.read_write_self hm a v
    | succ k =>
      have := ih (Memory.wf_write hm a v) (a + 1) (k := k) (by simpa using hk)
      rw [show a + (k + 1) = a + 1 + k by omega, this]
      rfl

@[simp] theorem Memory.length_readBytes (m : Memory) (a n : Nat) : (m.readBytes a n).length = n := by
  induction n generalizing a with
  | zero => rfl
  | succ n ih => simp [Memory.readBytes, ih]

theorem Memory.getElem_readBytes (m : Memory) (a n k : Nat) (h : k < (m.readBytes a n).length) :
    (m.readBytes a n)[k] = m.read (a + k) := by
  induction n generalizing a k with
  | zero => simp [Memory.readBytes] at h
  | succ n ih =>
    cases k with
    | zero => rfl
    | succ k =>
      simp only [Memory.readBytes, List.getElem_cons_succ]
      rw [ih, show a + 1 + k = a + (k + 1) by omega]

theorem Memory.readBytes_congr {m m' : Memory} {a n : Nat} (h : ∀ k < n, m.read (a + k) = m'.read (a + k)) :
    m.readBytes a n = m'.readBytes a n := by
  apply List.ext_getElem
  · simp
  · intro k h1 h2
    rw [Memory.getElem_readBytes, Memory.getElem_readBytes]
    exact h k (by simpa using h1)

/-- Reading back a run of bytes that was written. -/
theorem Memory.readBytes_writeBytes {m : Memory} (hm : m.wf = true) (a : Nat) (vs : List Byte) :
    (m.writeBytes a vs).readBytes a vs.length = vs := by
  apply List.ext_getElem
  · simp
  · intro k h1 h2
    rw [Memory.getElem_readBytes, Memory.read_writeBytes_inside hm a vs h2]

/-! ### Little-endian numbers -/

@[simp] theorem length_leBytes (n v : Nat) : (leBytes n v).length = n := by
  induction n generalizing v with
  | zero => rfl
  | succ n ih => simp [leBytes, ih]

/-- MemRead of the bytes MemWrite stored gives the value, reduced to n bytes (20_memory.md R65). -/
theorem Memory.readLE_of_bytes {m : Memory} {a n v : Nat}
    (h : ∀ k (hk : k < (leBytes n v).length), m.read (a + k) = (leBytes n v)[k]) :
    m.readLE a n = v % 256 ^ n := by
  induction n generalizing a v with
  | zero => simp [Memory.readLE, Nat.mod_one]
  | succ n ih =>
    have h0 := h 0 (by simp)
    simp only [leBytes, List.getElem_cons_zero, Nat.add_zero] at h0
    have ht : m.readLE (a + 1) n = v / 256 % 256 ^ n := by
      refine ih fun k hk => ?_
      have := h (k + 1) (by simpa [leBytes] using hk)
      simpa [leBytes, Nat.add_assoc, Nat.add_comm 1 k] using this
    rw [Memory.readLE, h0, ht, BitVec.toNat_ofNat, show (256 : Nat) ^ (n + 1) = 256 * 256 ^ n from pow_succ' 256 n]
    exact (Nat.mod_mul (x := v) (a := 256) (b := 256 ^ n)).symm

end Sys2Proof.Machine
end

