-- ==== Sys2Proof/Laws/Bits.lean ====
section
/-! SUPPORT. Packed bits in MEM (30_encoding.md R100, 45_bit_packer.md R201, R203). -/

namespace Sys2Proof.Machine

/-- What a push leaves of a byte: its own bit, zeros for the others if it is the byte's first, and else the old ones. -/
theorem packByte_getLsbD (old : Byte) {k j : Nat} (hk : k < 8) (hj : j < 8) (b : Bool) :
    (packByte old k b).getLsbD j = if j = k then b else if k = 0 then false else old.getLsbD j := by
  unfold packByte
  by_cases h0 : k = 0
  · subst h0
    rw [if_pos rfl]
    by_cases hj0 : j = 0
    · subst hj0
      simp
    · rw [if_neg hj0, if_pos rfl]
      simp [BitVec.getLsbD_setWidth, hj0]
  · rw [if_neg h0, if_neg h0]
    simp only [BitVec.getLsbD_or, BitVec.getLsbD_and, BitVec.getLsbD_not, BitVec.getLsbD_shiftLeft,
      BitVec.getLsbD_setWidth, BitVec.getLsbD_ofBool, hj, decide_true, Bool.true_and, BitVec.getLsbD_one]
    by_cases hjk : j = k
    · subst hjk
      simp
    · rw [if_neg hjk]
      by_cases hlt : j < k
      · simp [hlt]
      · have : j - k ≠ 0 := by omega
        simp [hlt, this]

/-- A push changes one address. -/
theorem packBit_read_ne (m : Memory) {base n a : Nat} (b : Bool) (h : a ≠ base + n / 8) :
    (packBit m base n b).read a = m.read a :=
  Memory.read_write_ne _ _ h

theorem packBit_wf {m : Memory} (hm : m.wf = true) (base n : Nat) (b : Bool) : (packBit m base n b).wf = true :=
  Memory.wf_write hm _ _

theorem packBit_mem {m : Memory} {base n : Nat} {b : Bool} {c : Host.Cell} (h : c ∈ packBit m base n b) :
    c.1 = base + n / 8 ∨ c ∈ m :=
  Memory.mem_write h

/-- The packed stream after one push. -/
theorem bitAt_packBit {m : Memory} (hm : m.wf = true) (base n k : Nat) (b : Bool) :
    (packBit m base n b).bitAt base k =
      if k = n then b else if n % 8 = 0 ∧ k / 8 = n / 8 then false else m.bitAt base k := by
  unfold Memory.bitAt
  by_cases hd : k / 8 = n / 8
  · rw [hd]
    unfold packBit
    rw [Memory.read_write_self hm, packByte_getLsbD _ (Nat.mod_lt _ (by decide)) (Nat.mod_lt _ (by decide))]
    by_cases hkn : k = n
    · subst hkn; simp
    · rw [if_neg (by omega), if_neg hkn]
      simp
  · rw [packBit_read_ne _ _ (by omega), if_neg (by rintro rfl; exact hd rfl), if_neg (by simp [hd])]

theorem packBits_append (base : Nat) (m : Memory) (n : Nat) (bs cs : List Bool) :
    packBits base m n (bs ++ cs) = packBits base (packBits base m n bs) (n + bs.length) cs := by
  induction bs generalizing m n with
  | nil => rfl
  | cons b bs ih =>
    rw [List.cons_append, packBits, packBits, ih, List.length_cons]
    congr 1
    omega

theorem packBits_wf {m : Memory} (hm : m.wf = true) (base n : Nat) (bs : List Bool) :
    (packBits base m n bs).wf = true := by
  induction bs generalizing m n with
  | nil => exact hm
  | cons b bs ih => exact ih (packBit_wf hm base n b) (n + 1)

/-- Pushes leave every byte alone that holds none of their bits. -/
theorem packBits_read_outside (m : Memory) {base n a : Nat} (bs : List Bool)
    (h : ∀ k, n ≤ k → k < n + bs.length → a ≠ base + k / 8) : (packBits base m n bs).read a = m.read a := by
  induction bs generalizing m n with
  | nil => rfl
  | cons b bs ih =>
    rw [packBits, ih _ fun k h1 h2 => h k (by omega) (by simp only [List.length_cons]; omega)]
    exact packBit_read_ne _ _ (h n (Nat.le_refl _) (by simp))

theorem packBits_mem {m : Memory} {base n : Nat} {bs : List Bool} {c : Host.Cell} (h : c ∈ packBits base m n bs) :
    (∃ k, n ≤ k ∧ k < n + bs.length ∧ c.1 = base + k / 8) ∨ c ∈ m := by
  induction bs generalizing m n with
  | nil => exact .inr h
  | cons b bs ih =>
    rcases ih h with ⟨k, h1, h2, h3⟩ | h
    · exact .inl ⟨k, by omega, by simp only [List.length_cons]; omega, h3⟩
    · rcases packBit_mem h with h | h
      · exact .inl ⟨n, Nat.le_refl _, by simp, h⟩
      · exact .inr h

/-- The packed stream after pushes from bit 0 on: the bits in order, then zeros up to the end of the last byte (R203),
then the bits of before. -/
theorem bitAt_packBits {m : Memory} (hm : m.wf = true) (base : Nat) (bs : List Bool) (k : Nat) :
    (packBits base m 0 bs).bitAt base k =
      if k < 8 * ceil8 bs.length then bs.getD k false else m.bitAt base k := by
  induction bs using List.reverseRecOn generalizing k with
  | nil => simp [packBits, ceil8]
  | append_singleton bs b ih =>
    rw [packBits_append, packBits, packBits, bitAt_packBit (packBits_wf hm base 0 bs), Nat.zero_add, ih]
    simp only [List.length_append, List.length_singleton, ceil8] at *
    by_cases hk : k = bs.length
    · subst hk
      rw [if_pos rfl, if_pos (by omega)]
      simp
    · rw [if_neg hk]
      by_cases h8 : bs.length % 8 = 0
      · by_cases hd : k / 8 = bs.length / 8
        · rw [if_pos ⟨h8, hd⟩, if_pos (by omega), List.getD_eq_default]
          simp only [List.length_append, List.length_singleton]
          omega
        · rw [if_neg (by simp [hd])]
          by_cases hlt : k < bs.length
          · rw [if_pos (by omega), if_pos (by omega), List.getD_append _ _ _ _ hlt]
          · rw [if_neg (by omega), if_neg (by omega)]
      · rw [if_neg (by simp [h8])]
        by_cases hlt : k < bs.length
        · rw [if_pos (by omega), if_pos (by omega), List.getD_append _ _ _ _ hlt]
        · by_cases hin : k < 8 * ((bs.length + 7) / 8)
          · rw [if_pos hin, if_pos (by omega), List.getD_eq_default _ _ (by omega), List.getD_eq_default]
            simp only [List.length_append, List.length_singleton]
            omega
          · rw [if_neg hin, if_neg (by omega)]

/-- The stream depends only on the bytes that hold it. -/
theorem bitAt_congr {m m' : Memory} {base base' k : Nat}
    (h : m.read (base + k / 8) = m'.read (base' + k / 8)) : m.bitAt base k = m'.bitAt base' k := by
  unfold Memory.bitAt
  rw [h]

/-- A byte is known by its eight bits. -/
theorem read_eq_of_bits {m m' : Memory} {base base' i : Nat}
    (h : ∀ k, k / 8 = i → m.bitAt base k = m'.bitAt base' k) : m.read (base + i) = m'.read (base' + i) := by
  apply BitVec.eq_of_getLsbD_eq
  intro j hj
  have := h (8 * i + j) (by omega)
  unfold Memory.bitAt at this
  rwa [show (8 * i + j) / 8 = i by omega, show (8 * i + j) % 8 = j by omega] at this

end Sys2Proof.Machine
end

