-- ==== Sys2Proof/Laws/Queue.lean ====
section
/-! SUPPORT. The pop law (42_priority_queue.md R142): what heapPop can answer. -/

namespace Sys2Proof.Machine

theorem PqEntry.before_iff (a b : PqEntry) :
    a.before b = true ↔ a.weight.toNat < b.weight.toNat ∨ (a.weight = b.weight ∧ a.seq.toNat < b.seq.toNat) := by
  simp [PqEntry.before]

/-- One key is not before another exactly when the other is at most it, in the lexicographic order (R141). -/
theorem PqEntry.not_before_iff (a b : PqEntry) :
    a.before b = false ↔
      b.weight.toNat < a.weight.toNat ∨ (a.weight = b.weight ∧ b.seq.toNat ≤ a.seq.toNat) := by
  rw [← Bool.not_eq_true, PqEntry.before_iff]
  constructor
  · intro h
    by_cases e : a.weight = b.weight
    · exact .inr ⟨e, Nat.le_of_not_lt fun h' => h (.inr ⟨e, h'⟩)⟩
    · have hne : a.weight.toNat ≠ b.weight.toNat := fun h' => e (BitVec.eq_of_toNat_eq h')
      exact .inl (Nat.lt_of_le_of_ne (Nat.le_of_not_lt fun h' => h (.inl h')) hne.symm)
  · rintro (h | ⟨e, h⟩) (h' | ⟨e', h'⟩)
    · omega
    · rw [e'] at h; omega
    · rw [e] at h'; omega
    · omega

theorem PqEntry.not_before_trans {a b c : PqEntry} (h1 : a.before b = false) (h2 : b.before c = false) :
    a.before c = false := by
  rw [PqEntry.not_before_iff] at *
  rcases h1 with h1 | ⟨e1, h1⟩ <;> rcases h2 with h2 | ⟨e2, h2⟩
  · left; omega
  · left; rw [← e2]; exact h1
  · left; rw [e1]; exact h2
  · right; exact ⟨e1.trans e2, by omega⟩

theorem PqEntry.before_asymm {a b : PqEntry} (h : a.before b = true) : b.before a = false := by
  rw [PqEntry.before_iff] at h
  rw [PqEntry.not_before_iff]
  rcases h with h | ⟨e, h⟩
  · exact .inl h
  · exact .inr ⟨e.symm, by omega⟩

@[simp] theorem heapPop_nil : heapPop [] = none := rfl

theorem heapPop_eq_none {q : List PqEntry} : heapPop q = none ↔ q = [] := by
  cases q with
  | nil => simp
  | cons e q =>
    simp only [heapPop]
    split
    · simp
    · split <;> simp

/-- Everything a pop can answer: the popped entry and the others are the queue, in the same order but for the
popped one, and no other entry has a lesser key (R142). -/
theorem heapPop_spec {q r : List PqEntry} {e : PqEntry} (h : heapPop q = some (e, r)) :
    q.Perm (e :: r) ∧ r.Sublist q ∧ ∀ x ∈ r, x.before e = false := by
  induction q generalizing e r with
  | nil => simp at h
  | cons a q ih =>
    simp only [heapPop] at h
    split at h
    · next hq =>
      rw [heapPop_eq_none] at hq
      simp only [Option.some.injEq, Prod.mk.injEq] at h
      obtain ⟨rfl, rfl⟩ := h
      subst hq
      simp
    · next m r' hq =>
      obtain ⟨hp, hs, hl⟩ := ih hq
      split at h
      · next hb =>
        simp only [Option.some.injEq, Prod.mk.injEq] at h
        obtain ⟨rfl, rfl⟩ := h
        refine ⟨(hp.cons a).trans (List.Perm.swap _ _ _), hs.cons_cons a, ?_⟩
        intro x hx
        rcases List.mem_cons.1 hx with rfl | hx
        · exact PqEntry.before_asymm hb
        · exact hl x hx
      · next hb =>
        simp only [Option.some.injEq, Prod.mk.injEq] at h
        obtain ⟨rfl, rfl⟩ := h
        refine ⟨List.Perm.refl _, List.sublist_cons_self _ _, ?_⟩
        intro x hx
        have hm : m.before a = false := by simpa using hb
        rcases List.mem_cons.1 (hp.subset hx) with rfl | hx
        · exact hm
        · exact PqEntry.not_before_trans (hl x hx) hm

theorem heapPop_length {q r : List PqEntry} {e : PqEntry} (h : heapPop q = some (e, r)) : q.length = r.length + 1 := by
  simpa using (heapPop_spec h).1.length_eq

theorem heapPop_mem {q r : List PqEntry} {e : PqEntry} (h : heapPop q = some (e, r)) : e ∈ q :=
  (heapPop_spec h).1.symm.subset List.mem_cons_self

theorem exists_heapPop {q : List PqEntry} (h : q ≠ []) : ∃ e r, heapPop q = some (e, r) := by
  cases hp : heapPop q with
  | none => exact absurd (heapPop_eq_none.1 hp) h
  | some x => exact ⟨x.1, x.2, rfl⟩

/-- A pop of a queue whose entries carry data leaves the others' data in their order. -/
theorem heapPop_map {α : Type} (key : α → PqEntry) {ps : List α} {e : PqEntry} {r : List PqEntry}
    (h : heapPop (ps.map key) = some (e, r)) :
    ∃ p ps', ps.Perm (p :: ps') ∧ key p = e ∧ ps'.map key = r := by
  induction ps generalizing e r with
  | nil => simp at h
  | cons a ps ih =>
    simp only [List.map_cons, heapPop] at h
    split at h
    · next hq =>
      rw [heapPop_eq_none] at hq
      simp only [Option.some.injEq, Prod.mk.injEq] at h
      have : ps = [] := by simpa using hq
      subst this
      exact ⟨a, [], List.Perm.refl _, h.1, by simpa using h.2⟩
    · next m r' hq =>
      obtain ⟨p, ps', hp, hk, hr⟩ := ih hq
      split at h
      · simp only [Option.some.injEq, Prod.mk.injEq] at h
        exact ⟨p, a :: ps', (hp.cons a).trans (List.Perm.swap _ _ _), hk.trans h.1, by simpa [hr] using h.2⟩
      · simp only [Option.some.injEq, Prod.mk.injEq] at h
        exact ⟨a, ps, List.Perm.refl _, h.1, h.2⟩

end Sys2Proof.Machine
end

