-- ==== Sys2Proof/Laws/Tables.lean ====
section
/-! SUPPORT. The laws of the symbol-indexed tables: FREQ, the codebook, and the list of all symbols. -/

namespace Sys2Proof.Machine

/-! ### All symbols -/

@[simp] theorem length_allSymbols : allSymbols.length = 256 := by simp [allSymbols]

@[simp] theorem mem_allSymbols (s : Byte) : s ∈ allSymbols := by
  simp only [allSymbols, List.mem_map, List.mem_range]
  exact ⟨s.toNat, s.isLt, by simp⟩

theorem nodup_allSymbols : allSymbols.Nodup := by
  unfold allSymbols
  refine List.Nodup.map_on ?_ List.nodup_range
  intro a ha b hb h
  simp only [List.mem_range] at ha hb
  have := congrArg BitVec.toNat h
  simpa [Nat.mod_eq_of_lt ha, Nat.mod_eq_of_lt hb] using this

@[simp] theorem any_allSymbols (p : Byte → Bool) : allSymbols.any p = true ↔ ∃ s, p s = true := by
  simp [List.any_eq_true]

/-! ### FREQ -/

theorem FreqTable.get_put (f : FreqTable) (s t : Byte) (v : DWord) :
    (f.put s v).get t = if t = s then v else f.get t := by
  unfold FreqTable.put FreqTable.get
  rw [Vector.getElem_set]
  by_cases h : t = s
  · simp [h]
  · rw [if_neg h, if_neg (fun e => h (BitVec.eq_of_toNat_eq e.symm))]

@[simp] theorem FreqTable.get_put_self (f : FreqTable) (s : Byte) (v : DWord) : (f.put s v).get s = v := by
  simp [FreqTable.get_put]

@[simp] theorem FreqTable.get_tabulate (g : Byte → DWord) (s : Byte) : (FreqTable.tabulate g).get s = g s := by
  simp [FreqTable.tabulate, FreqTable.get, allSymbols]

@[simp] theorem FreqTable.get_replicate (v : DWord) (s : Byte) : FreqTable.get (Vector.replicate 256 v) s = v := by
  simp [FreqTable.get]

theorem FreqTable.ext_get {f g : FreqTable} (h : ∀ s, f.get s = g.get s) : f = g := by
  apply Vector.ext
  intro i hi
  have := h (BitVec.ofNat 8 i)
  have e : (BitVec.ofNat 8 i).toNat = i := by simpa using hi
  simpa [FreqTable.get, e] using this

theorem FreqTable.scanOverflows_iff (f : FreqTable) (bytes : List Byte) :
    f.scanOverflows bytes = true ↔ ∃ s, 2 ^ 64 - 1 < (f.get s).toNat + bytes.count s := by
  rw [FreqTable.scanOverflows, any_allSymbols]
  exact exists_congr fun s => decide_eq_true_iff

/-! ### The codebook -/

theorem Codebook.get_put (cb : Codebook) (s t : Byte) (e : CbEntry) :
    (cb.put s e).get t = if t = s then e else cb.get t := by
  unfold Codebook.put Codebook.get
  rw [Vector.getElem_set]
  by_cases h : t = s
  · simp [h]
  · rw [if_neg h, if_neg (fun e => h (BitVec.eq_of_toNat_eq e.symm))]

@[simp] theorem Codebook.get_emptyCodebook (s : Byte) :
    Codebook.get emptyCodebook s = { valid := false, len := 0, bits := 0 } := by
  simp [Codebook.get, emptyCodebook]

theorem Codebook.ext_get {cb cb' : Codebook} (h : ∀ s, cb.get s = cb'.get s) : cb = cb' := by
  apply Vector.ext
  intro i hi
  have := h (BitVec.ofNat 8 i)
  have e : (BitVec.ofNat 8 i).toNat = i := by simpa using hi
  simpa [Codebook.get, e] using this

theorem Codebook.get_record (cb : Codebook) (r : Byte × Code) (t : Byte) :
    (cb.record r).get t = if t = r.1 then CbEntry.ofCode r.2 else cb.get t := Codebook.get_put _ _ _ _

@[simp] theorem Codebook.count_emptyCodebook : Codebook.count emptyCodebook = 0 := by
  simp [Codebook.count]

theorem Codebook.count_le (cb : Codebook) : cb.count ≤ 256 := by
  unfold Codebook.count
  exact le_trans List.countP_le_length (by simp)

end Sys2Proof.Machine
end

