-- ==== Sys2Proof/Laws/Forest.lean ====
section
/-! SUPPORT. Tree construction (43_tree_builder.md R160 to R166) seen as trees: which tree hangs at an arena index, what a
combination does to the trees of the queue, and what the whole construction answers. -/

namespace Sys2Proof.Machine

/-! ### Trees -/

/-- A full binary tree with symbols at its leaves. -/
inductive CodeTree where
  | leaf (s : Byte)
  | node (l r : CodeTree)

/-- The symbols at the leaves, left to right. -/
def CodeTree.leaves : CodeTree → List Byte
  | .leaf s => [s]
  | .node l r => l.leaves ++ r.leaves

/-- The sum of the counts of the leaves' symbols. -/
def CodeTree.weight (freq : FreqTable) : CodeTree → Nat
  | .leaf s => (freq.get s).toNat
  | .node l r => l.weight freq + r.weight freq

/-- The length of the longest path. -/
def CodeTree.height : CodeTree → Nat
  | .leaf _ => 0
  | .node l r => max l.height r.height + 1

/-- The symbols with their paths, left before right (44_codebook.md R182: Walk). -/
def CodeTree.codes : CodeTree → Code → List (Byte × Code)
  | .leaf s, c => [(s, c)]
  | .node l r, c => l.codes (c ++ [false]) ++ r.codes (c ++ [true])

/-- The tree that hangs at an arena index: records of the tree's form, with the weights of the counts. -/
def Holds (freq : FreqTable) (nodes : List Node) : Nat → CodeTree → Prop
  | i, .leaf s => nodes[i]? = some (.leaf s (freq.get s))
  | i, .node l r =>
    ∃ (w : DWord) (a b : NodeIndex), nodes[i]? = some (.internal w (some a) (some b)) ∧
      w.toNat = l.weight freq + r.weight freq ∧ Holds freq nodes a.toNat l ∧ Holds freq nodes b.toNat r

theorem CodeTree.leaves_pos (t : CodeTree) : 1 ≤ t.leaves.length := by
  induction t with
  | leaf s => exact Nat.le_refl 1
  | node l r ihl ihr => simp only [CodeTree.leaves, List.length_append]; omega

/-- A full binary tree with n leaves is at most n - 1 deep (10_state.md R29). -/
theorem CodeTree.height_lt (t : CodeTree) : t.height < t.leaves.length := by
  induction t with
  | leaf s => exact Nat.one_pos
  | node l r ihl ihr =>
    have := l.leaves_pos
    have := r.leaves_pos
    simp only [CodeTree.leaves, CodeTree.height, List.length_append]
    omega

theorem CodeTree.weight_eq_sum (freq : FreqTable) (t : CodeTree) :
    t.weight freq = (t.leaves.map fun s => (freq.get s).toNat).sum := by
  induction t with
  | leaf s => simp [CodeTree.weight, CodeTree.leaves]
  | node l r ihl ihr => simp [CodeTree.weight, CodeTree.leaves, ihl, ihr]

theorem CodeTree.codes_fst (t : CodeTree) (c : Code) : (t.codes c).map Prod.fst = t.leaves := by
  induction t generalizing c with
  | leaf s => rfl
  | node l r ihl ihr => simp [CodeTree.codes, CodeTree.leaves, ihl, ihr]

theorem CodeTree.length_codes (t : CodeTree) (c : Code) : (t.codes c).length = t.leaves.length := by
  rw [← t.codes_fst c, List.length_map]

theorem CodeTree.codes_length {t : CodeTree} {c : Code} {e : Byte × Code} (h : e ∈ t.codes c) :
    c.length ≤ e.2.length ∧ e.2.length ≤ c.length + t.height := by
  induction t generalizing c with
  | leaf s =>
    simp only [CodeTree.codes, List.mem_singleton] at h
    subst h
    exact ⟨Nat.le_refl _, Nat.le_add_right _ _⟩
  | node l r ihl ihr =>
    simp only [CodeTree.codes, List.mem_append] at h
    simp only [CodeTree.height]
    rcases h with h | h
    · have := ihl h
      simp only [List.length_append, List.length_singleton] at this
      omega
    · have := ihr h
      simp only [List.length_append, List.length_singleton] at this
      omega

/-- The Kraft sum of a full binary tree, scaled by a power of two above every length (44_codebook.md R186). -/
theorem CodeTree.kraft (t : CodeTree) (c : Code) (m : Nat) (h : c.length + t.height ≤ m) :
    ((t.codes c).map fun e => 2 ^ (m - e.2.length)).sum = 2 ^ (m - c.length) := by
  induction t generalizing c with
  | leaf s => simp [CodeTree.codes]
  | node l r ihl ihr =>
    simp only [CodeTree.height] at h
    simp only [CodeTree.codes, List.map_append, List.sum_append]
    rw [ihl _ (by simp only [List.length_append, List.length_singleton]; omega),
      ihr _ (by simp only [List.length_append, List.length_singleton]; omega)]
    simp only [List.length_append, List.length_singleton]
    rw [← two_mul, ← pow_succ']
    congr 1
    omega

/-! ### Trees in the arena -/

theorem Holds.append {freq : FreqTable} {nodes : List Node} {i : Nat} {t : CodeTree} (h : Holds freq nodes i t)
    (more : List Node) : Holds freq (nodes ++ more) i t := by
  have grow : ∀ {i : Nat} {n : Node}, nodes[i]? = some n → (nodes ++ more)[i]? = some n := by
    intro i n hn
    rw [List.getElem?_append_left (List.getElem?_eq_some_iff.1 hn).1]
    exact hn
  induction t generalizing i with
  | leaf s => exact grow h
  | node l r ihl ihr =>
    obtain ⟨w, a, b, h1, h2, h3, h4⟩ := h
    exact ⟨w, a, b, grow h1, h2, ihl h3, ihr h4⟩

/-- The record at a tree's root carries the tree's weight. -/
theorem Holds.root {freq : FreqTable} {nodes : List Node} {i : Nat} {t : CodeTree} (h : Holds freq nodes i t) :
    ∃ n, nodes[i]? = some n ∧ n.weight.toNat = t.weight freq := by
  cases t with
  | leaf s => exact ⟨_, h, rfl⟩
  | node l r =>
    obtain ⟨w, a, b, h1, h2, -⟩ := h
    exact ⟨_, h1, h2⟩

/-- The walk of a tree answers its codes (44_codebook.md R182). -/
theorem Holds.walk {freq : FreqTable} {nodes : List Node} {i depth : Nat} {t : CodeTree} (h : Holds freq nodes i t)
    (hd : t.height < depth) (c : Code) : walk nodes depth i c = some (t.codes c) := by
  induction t generalizing i depth c with
  | leaf s =>
    obtain ⟨d, rfl⟩ : ∃ d, depth = d + 1 := ⟨depth - 1, by omega⟩
    have h : nodes[i]? = some (.leaf s (freq.get s)) := h
    simp [Machine.walk, h, CodeTree.codes]
  | node l r ihl ihr =>
    obtain ⟨d, rfl⟩ : ∃ d, depth = d + 1 := ⟨depth - 1, by omega⟩
    obtain ⟨w, a, b, h1, -, h3, h4⟩ := h
    simp only [CodeTree.height] at hd
    simp [Machine.walk, h1, ihl h3 (by omega : l.height < d), ihr h4 (by omega : r.height < d), CodeTree.codes]

/-! ### The symbols with a count -/

/-- The symbols with a count above 0, in ascending order (R162). -/
def counted (freq : FreqTable) : List Byte := allSymbols.filter fun s => freq.get s != 0

theorem length_counted_le (freq : FreqTable) : (counted freq).length ≤ 256 :=
  le_trans (List.length_filter_le _ _) (by simp)

theorem leafCount_eq (freq : FreqTable) : leafCount freq = (counted freq).length := List.countP_eq_length_filter ..

theorem mem_counted (freq : FreqTable) (s : Byte) : s ∈ counted freq ↔ freq.get s ≠ 0 := by
  simp [counted]

theorem nodup_counted (freq : FreqTable) : (counted freq).Nodup := nodup_allSymbols.filter _

/-- The counts above 0 make the total. -/
theorem total_eq_sum_counted (freq : FreqTable) :
    freq.total = ((counted freq).map fun s => (freq.get s).toNat).sum := by
  unfold FreqTable.total counted
  generalize allSymbols = L
  induction L with
  | nil => rfl
  | cons s L ih =>
    by_cases h : freq.get s = 0
    · simp [h] at ih ⊢
      exact ih
    · have h' : (freq.get s != 0) = true := by simpa using h
      rw [List.filter_cons_of_pos (p := fun s => freq.get s != 0) h', List.map_cons, List.map_cons, List.sum_cons, List.sum_cons, ih]

/-! ### Ownership (10_state.md R28(c)) -/

theorem childOf_concat (nodes : List Node) (n : Node) (i : Nat) (b : Bool) :
    childOf (nodes ++ [n]) i b = if i = nodes.length then n.child b else childOf nodes i b := by
  unfold childOf
  by_cases h : i < nodes.length
  · rw [List.getElem?_append_left h, if_neg (by omega)]
  · by_cases he : i = nodes.length
    · subst he
      simp
    · rw [if_neg he, List.getElem?_eq_none (by simp; omega), List.getElem?_eq_none (by omega)]

/-- A forest's ownership: an index stands in at most one child field, and the records that stand in none are the roots. -/
structure Owned (nodes : List Node) (roots : List Nat) : Prop where
  inside : ∀ i b j, childOf nodes i b = some j → j.toNat < nodes.length
  once   : ∀ i b i' b' j, childOf nodes i b = some j → childOf nodes i' b' = some j → i = i' ∧ b = b'
  below  : ∀ k ∈ roots, k < nodes.length
  nodup  : roots.Nodup
  roots  : ∀ k, k < nodes.length → (k ∉ roots ↔ ∃ i b j, childOf nodes i b = some j ∧ j.toNat = k)

theorem owned_nil : Owned [] [] where
  inside := by simp [childOf]
  once := by simp [childOf]
  below := by simp
  nodup := List.nodup_nil
  roots := by simp

/-- One more record without a child is one more root. -/
theorem Owned.leaf {nodes : List Node} {roots : List Nat} (h : Owned nodes roots) {n : Node} (hn : ∀ b, n.child b = none) :
    Owned (nodes ++ [n]) (roots ++ [nodes.length]) := by
  have hc : ∀ i b, childOf (nodes ++ [n]) i b = childOf nodes i b := by
    intro i b
    rw [childOf_concat]
    split
    · next e => rw [hn, e, childOf, List.getElem?_eq_none (Nat.le_refl _)]; rfl
    · rfl
  constructor
  · intro i b j hj
    rw [hc] at hj
    have := h.inside i b j hj
    rw [List.length_append, List.length_singleton]
    omega
  · intro i b i' b' j h1 h2
    rw [hc] at h1 h2
    exact h.once i b i' b' j h1 h2
  · intro k hk
    rw [List.length_append, List.length_singleton]
    rcases List.mem_append.1 hk with hk | hk
    · have := h.below k hk
      omega
    · rw [List.mem_singleton.1 hk]
      omega
  · rw [List.nodup_append]
    refine ⟨h.nodup, by simp, ?_⟩
    intro k hk l hl
    rw [List.mem_singleton.1 hl]
    exact Nat.ne_of_lt (h.below k hk)
  · intro k hk
    rw [List.length_append, List.length_singleton] at hk
    simp only [hc, List.mem_append, List.mem_singleton, not_or]
    by_cases he : k = nodes.length
    · refine ⟨fun e => absurd he e.2, ?_⟩
      rintro ⟨i, b, j, hj, rfl⟩
      have := h.inside i b j hj
      omega
    · rw [← h.roots k (by omega)]
      exact ⟨fun e => e.1, fun e => ⟨e, he⟩⟩

/-- Two roots become the children of one more record, which is a root. -/
theorem Owned.node {nodes : List Node} {roots rest : List Nat} {w : DWord} {l r : NodeIndex} (h : Owned nodes roots)
    (hp : roots.Perm (l.toNat :: r.toNat :: rest)) :
    Owned (nodes ++ [.internal w (some l) (some r)]) (rest ++ [nodes.length]) := by
  have hnd := hp.nodup_iff.1 h.nodup
  simp only [List.nodup_cons, List.mem_cons, not_or] at hnd
  have hl : l.toNat ∈ roots := hp.mem_iff.2 (by simp)
  have hr : r.toNat ∈ roots := hp.mem_iff.2 (by simp)
  have free : ∀ k ∈ roots, ∀ i b (j : NodeIndex), childOf nodes i b = some j → j.toNat ≠ k := by
    rintro k hk i b j hj rfl
    exact (h.roots _ (h.below _ hk)).2 ⟨i, b, j, hj, rfl⟩ hk
  constructor
  · intro i b j hj
    rw [List.length_append, List.length_singleton]
    rw [childOf_concat] at hj
    split at hj
    · cases b <;> cases hj
      · have := h.below _ hl
        omega
      · have := h.below _ hr
        omega
    · have := h.inside i b j hj
      omega
  · intro i b i' b' j h1 h2
    rw [childOf_concat] at h1 h2
    split at h1
    · next e1 =>
      split at h2
      · next e2 =>
        refine ⟨by omega, ?_⟩
        cases b <;> cases b' <;> cases h1
        · rfl
        · cases h2
          exact absurd rfl hnd.1.1
        · cases h2
          exact absurd rfl hnd.1.1
        · rfl
      · exfalso
        cases b <;> cases h1
        · exact free _ hl _ _ _ h2 rfl
        · exact free _ hr _ _ _ h2 rfl
    · split at h2
      · exfalso
        cases b' <;> cases h2
        · exact free _ hl _ _ _ h1 rfl
        · exact free _ hr _ _ _ h1 rfl
      · exact h.once i b i' b' j h1 h2
  · intro k hk
    rw [List.length_append, List.length_singleton]
    rcases List.mem_append.1 hk with hk | hk
    · have := h.below k (hp.mem_iff.2 (by simp [hk]))
      omega
    · rw [List.mem_singleton.1 hk]
      omega
  · rw [List.nodup_append]
    refine ⟨hnd.2.2, by simp, ?_⟩
    intro k hk m hm
    rw [List.mem_singleton.1 hm]
    exact Nat.ne_of_lt (h.below k (hp.mem_iff.2 (by simp [hk])))
  · intro k hk
    rw [List.length_append, List.length_singleton] at hk
    simp only [List.mem_append, List.mem_singleton, not_or]
    by_cases he : k = nodes.length
    · refine ⟨fun e => absurd he e.2, ?_⟩
      rintro ⟨i, b, j, hj, rfl⟩
      rw [childOf_concat] at hj
      split at hj
      · cases b <;> cases hj
        · have := h.below _ hl
          omega
        · have := h.below _ hr
          omega
      · have := h.inside i b j hj
        omega
    · have old := h.roots k (by omega)
      rw [hp.mem_iff, List.mem_cons, List.mem_cons] at old
      constructor
      · rintro ⟨hk', -⟩
        by_cases h1 : k = l.toNat
        · exact ⟨nodes.length, false, l, by rw [childOf_concat, if_pos rfl]; rfl, h1.symm⟩
        · by_cases h2 : k = r.toNat
          · exact ⟨nodes.length, true, r, by rw [childOf_concat, if_pos rfl]; rfl, h2.symm⟩
          · obtain ⟨i, b, j, hj, hjk⟩ := old.1 (by rintro (e | e | e) <;> contradiction)
            refine ⟨i, b, j, ?_, hjk⟩
            rw [childOf_concat, if_neg]
            · exact hj
            · rintro rfl
              rw [childOf, List.getElem?_eq_none (Nat.le_refl _)] at hj
              cases hj
      · rintro ⟨i, b, j, hj, rfl⟩
        refine ⟨fun hm => ?_, he⟩
        rw [childOf_concat] at hj
        split at hj
        · cases b <;> cases hj
          · exact hnd.1.2 hm
          · exact hnd.2.1 hm
        · exact old.2 ⟨i, b, j, hj, rfl⟩ (.inr (.inr hm))

theorem Owned.singleOwnership {nodes : List Node} {r : Nat} (h : Owned nodes [r]) :
    singleOwnership nodes (some r) := by
  refine ⟨h.once, fun k hk => ?_⟩
  rw [← h.roots k hk, List.mem_singleton, ne_eq, Option.some.injEq, eq_comm]

/-! ### The two least (43_tree_builder.md R164) -/

/-- The records that wait when the next record is made are the roots. -/
theorem Owned.waits_iff {nodes : List Node} {roots : List Nat} (h : Owned nodes roots) (j : Nat) :
    waits nodes nodes.length j ↔ j ∈ roots := by
  constructor
  · rintro ⟨hj, hw⟩
    by_contra hn
    obtain ⟨k, b, m, hm, e⟩ := (h.roots j hj).1 hn
    refine hw k b m ?_ hm e
    by_contra hk
    rw [childOf, List.getElem?_eq_none (by omega)] at hm
    cases hm
  · intro hj
    have hl := h.below j hj
    exact ⟨hl, fun k b m _ hm e => (h.roots j hl).2 ⟨k, b, m, hm, e⟩ hj⟩

theorem waits_append {nodes : List Node} {i : Nat} (hi : i ≤ nodes.length) (more : List Node) (j : Nat) :
    waits (nodes ++ more) i j ↔ waits nodes i j := by
  have hc : ∀ k b, k < i → childOf (nodes ++ more) k b = childOf nodes k b := by
    intro k b hk
    rw [childOf, childOf, List.getElem?_append_left (by omega)]
  constructor
  · rintro ⟨hj, h⟩
    exact ⟨hj, fun k b m hk hm => h k b m hk (by rw [hc k b hk]; exact hm)⟩
  · rintro ⟨hj, h⟩
    exact ⟨hj, fun k b m hk hm => h k b m hk (by rw [← hc k b hk]; exact hm)⟩

theorem keyBefore.append {nodes : List Node} {j k : Nat} (h : keyBefore nodes j k) (more : List Node) :
    keyBefore (nodes ++ more) j k := by
  obtain ⟨m, n, hm, hn, hk⟩ := h
  refine ⟨m, n, ?_, ?_, hk⟩
  · rw [List.getElem?_append_left (List.getElem?_eq_some_iff.1 hm).1, hm]
  · rw [List.getElem?_append_left (List.getElem?_eq_some_iff.1 hn).1, hn]

/-- What a record took stays so when more records are made. -/
theorem takesTheTwoLeast.append {nodes : List Node} {i l r : Nat} (h : takesTheTwoLeast nodes i l r)
    (hi : i ≤ nodes.length) (more : List Node) : takesTheTwoLeast (nodes ++ more) i l r := by
  obtain ⟨hl, hr, hlr, ho⟩ := h
  refine ⟨(waits_append hi more l).2 hl, (waits_append hi more r).2 hr, hlr.append more, fun j hj h1 h2 => ?_⟩
  exact (ho j ((waits_append hi more j).1 hj) h1 h2).append more

/-- A queue entry stands for a record of the arena: its weight is the record's and its sequence number the index (R163). -/
def PqEntry.standsFor (nodes : List Node) (e : PqEntry) : Prop :=
  (∃ n, nodes[e.node.toNat]? = some n ∧ n.weight = e.weight) ∧ e.seq.toNat = e.node.toNat

theorem PqEntry.standsFor.append {nodes : List Node} {e : PqEntry} (h : e.standsFor nodes) (more : List Node) :
    e.standsFor (nodes ++ more) := by
  obtain ⟨⟨n, hn, hw⟩, hs⟩ := h
  exact ⟨⟨n, by rw [List.getElem?_append_left (List.getElem?_eq_some_iff.1 hn).1, hn], hw⟩, hs⟩

/-- The entry that a new record is pushed with stands for it (R161, R163). -/
theorem PqEntry.standsFor_new {nodes : List Node} (h : nodes.length < 2 ^ 16) (n : Node) :
    PqEntry.standsFor (nodes ++ [n])
      { weight := n.weight, seq := BitVec.ofNat 32 nodes.length, node := BitVec.ofNat 16 nodes.length } := by
  have h16 : (BitVec.ofNat 16 nodes.length).toNat = nodes.length := by
    rw [BitVec.toNat_ofNat, Nat.mod_eq_of_lt h]
  refine ⟨⟨n, by simp [h16], rfl⟩, ?_⟩
  rw [h16, BitVec.toNat_ofNat, Nat.mod_eq_of_lt (by omega)]

/-- An entry popped before another one has the lesser key (42_priority_queue.md R141, R142). -/
theorem keyBefore_of_before {nodes : List Node} {a x : PqEntry} (ha : a.standsFor nodes) (hx : x.standsFor nodes)
    (h : x.before a = false) (hne : a.node.toNat ≠ x.node.toNat) : keyBefore nodes a.node.toNat x.node.toNat := by
  obtain ⟨⟨m, hm, wm⟩, sa⟩ := ha
  obtain ⟨⟨n, hn, wn⟩, sx⟩ := hx
  refine ⟨m, n, hm, hn, ?_⟩
  simp only [PqEntry.before, Bool.or_eq_false_iff, decide_eq_false_iff_not, Bool.and_eq_false_iff] at h
  rw [wm, wn]
  by_cases he : a.weight = x.weight
  · exact .inr ⟨he, by rcases h.2 with h | h <;> [exact absurd he.symm h; omega]⟩
  · refine .inl ?_
    have : a.weight.toNat ≠ x.weight.toNat := fun e => he (BitVec.eq_of_toNat_eq e)
    omega

/-- The record made from two popped entries takes the two least (R164). -/
theorem Owned.takesTheTwoLeast {nodes : List Node} {queue q : List PqEntry} {a b : PqEntry} (n : Node)
    (h : Owned nodes (queue.map fun e => e.node.toNat)) (hs : ∀ e ∈ queue, e.standsFor nodes)
    (hp : queue.Perm (a :: b :: q)) (ha : ∀ x ∈ b :: q, x.before a = false) (hb : ∀ x ∈ q, x.before b = false) :
    takesTheTwoLeast (nodes ++ [n]) nodes.length a.node.toNat b.node.toNat := by
  refine takesTheTwoLeast.append ?_ (Nat.le_refl _) _
  have hnd := (hp.map fun e => e.node.toNat).nodup_iff.1 h.nodup
  simp only [List.map_cons, List.nodup_cons, List.mem_cons, not_or] at hnd
  have ma : a ∈ queue := hp.mem_iff.2 (by simp)
  have mb : b ∈ queue := hp.mem_iff.2 (by simp)
  refine ⟨(h.waits_iff _).2 (List.mem_map_of_mem ma), (h.waits_iff _).2 (List.mem_map_of_mem mb),
    keyBefore_of_before (hs a ma) (hs b mb) (ha b (by simp)) hnd.1.1, fun j hj h1 h2 => ?_⟩
  obtain ⟨x, hx, rfl⟩ := List.mem_map.1 ((h.waits_iff j).1 hj)
  have hxq : x ∈ q := by
    rcases List.mem_cons.1 (hp.mem_iff.1 hx) with rfl | hx
    · exact absurd rfl h1
    · rcases List.mem_cons.1 hx with rfl | hx
      · exact absurd rfl h2
      · exact hx
  exact keyBefore_of_before (hs b mb) (hs x hx) (hb x hxq) (Ne.symm h2)

/-! ### The construction -/

/-- The forest while it is built for the symbols `syms`: each queue entry stands for the tree at its node, and the trees'
leaves are the symbols. -/
structure Forest.Grows (freq : FreqTable) (syms : List Byte) (f : Forest) (ps : List (PqEntry × CodeTree)) : Prop where
  queue  : f.queue = ps.map Prod.fst
  holds  : ∀ p ∈ ps, Holds freq f.nodes p.1.node.toNat p.2
  weight : ∀ p ∈ ps, p.1.weight.toNat = p.2.weight freq
  leaves : (ps.flatMap fun p => p.2.leaves).Perm syms
  size   : f.nodes.length + f.queue.length = 2 * syms.length
  seq    : f.seq = BitVec.ofNat 32 f.nodes.length
  first  : f.nodes.take syms.length = syms.map fun s => .leaf s (freq.get s)
  later  : ∀ (i : Nat) (m : Node), syms.length ≤ i → f.nodes[i]? = some m →
    ∃ (l r : NodeIndex) (a b : Node), m = .internal m.weight (some l) (some r) ∧ l.toNat < i ∧ r.toNat < i ∧
      f.nodes[l.toNat]? = some a ∧ f.nodes[r.toNat]? = some b ∧ m.weight.toNat = a.weight.toNat + b.weight.toNat
  last   : ∀ e, f.queue.getLast? = some e → e.node.toNat + 1 = f.nodes.length
  owned  : Owned f.nodes (f.queue.map fun e => e.node.toNat)
  stands : ∀ e ∈ f.queue, e.standsFor f.nodes
  picked : ∀ (i : Nat) (w : DWord) (l r : NodeIndex), f.nodes[i]? = some (.internal w (some l) (some r)) →
    takesTheTwoLeast f.nodes i l.toNat r.toNat

theorem Forest.empty_grows (freq : FreqTable) : Forest.empty.Grows freq [] [] where
  queue := rfl
  holds := by simp
  weight := by simp
  leaves := List.Perm.refl _
  size := rfl
  seq := rfl
  first := rfl
  later := by simp [Forest.empty]
  last := by simp [Forest.empty]
  owned := owned_nil
  stands := by simp [Forest.empty]
  picked := by simp [Forest.empty]

/-- Seeding adds one leaf (R162). -/
theorem Forest.Grows.addLeaf {freq : FreqTable} {syms : List Byte} {f : Forest} {ps : List (PqEntry × CodeTree)}
    (h : f.Grows freq syms ps) (hs : f.nodes.length = syms.length) (hl : syms.length < 256) (s : Byte) :
    ∃ e, (f.addNode (.leaf s (freq.get s))).Grows freq (syms ++ [s]) (ps ++ [(e, .leaf s)]) := by
  refine ⟨{ weight := freq.get s, seq := f.seq, node := BitVec.ofNat 16 f.nodes.length }, ?_⟩
  have hi : (BitVec.ofNat 16 f.nodes.length).toNat = f.nodes.length := by simp; omega
  constructor
  · simp [Forest.addNode, heapPush, h.queue, Node.weight]
  · intro p hp
    rcases List.mem_append.1 hp with hp | hp
    · exact (h.holds p hp).append _
    · rw [List.mem_singleton.1 hp]
      simp [Holds, Forest.addNode, hi]
  · intro p hp
    rcases List.mem_append.1 hp with hp | hp
    · exact h.weight p hp
    · rw [List.mem_singleton.1 hp]
      rfl
  · simpa [CodeTree.leaves] using h.leaves.append_right [s]
  · have := h.size
    simp only [Forest.addNode, heapPush, List.length_append, List.length_singleton]
    omega
  · simp [Forest.addNode, h.seq, BitVec.ofNat_add]
  · have := h.first
    rw [← hs, List.take_length] at this
    simp only [Forest.addNode, List.length_append, List.length_singleton, List.map_append, List.map_cons, List.map_nil]
    rw [← hs, List.take_of_length_le (by simp), this]
  · intro i m hi hm
    simp only [Forest.addNode] at hm
    simp only [List.length_append, List.length_singleton] at hi
    rw [List.getElem?_eq_none (by simp; omega)] at hm
    cases hm
  · intro e he
    simp only [Forest.addNode, heapPush, List.getLast?_concat, Option.some.injEq] at he
    subst he
    simp only [Forest.addNode, List.length_append, List.length_singleton, hi]
  · have := h.owned.leaf (n := .leaf s (freq.get s)) fun _ => rfl
    simpa [Forest.addNode, heapPush, hi] using this
  · intro e he
    rcases List.mem_append.1 he with he | he
    · exact (h.stands e he).append _
    · rw [List.mem_singleton.1 he, h.seq]
      exact PqEntry.standsFor_new (by omega) _
  · intro i w l r hn
    simp only [Forest.addNode] at hn ⊢
    by_cases hlt : i < f.nodes.length
    · rw [List.getElem?_append_left hlt] at hn
      exact (h.picked i w l r hn).append (Nat.le_of_lt hlt) _
    · rw [List.getElem?_append_right (by omega)] at hn
      have := List.mem_singleton.1 (List.mem_of_getElem? hn)
      cases this

/-- After seeding: the leaves of the counted symbols, in the queue in ascending order (R162). -/
theorem Forest.seed_grows (freq : FreqTable) :
    (∃ ps, (Forest.seed freq).Grows freq (counted freq) ps) ∧ (Forest.seed freq).nodes.length = (counted freq).length := by
  have key : ∀ (L done : List Byte) (f : Forest), done.length + L.length ≤ 256 → (∃ ps, f.Grows freq done ps) →
      f.nodes.length = done.length →
      (∃ ps, (L.foldl (Forest.seedSymbol freq) f).Grows freq (done ++ L.filter fun s => freq.get s != 0) ps) ∧
      (L.foldl (Forest.seedSymbol freq) f).nodes.length = (done ++ L.filter fun s => freq.get s != 0).length := by
    intro L
    induction L with
    | nil => intro done f _ hg hl; simpa using ⟨hg, hl⟩
    | cons s L ih =>
      intro done f hd hg hl
      simp only [List.length_cons] at hd
      rw [List.foldl_cons]
      by_cases h0 : freq.get s = 0
      · rw [Forest.seedSymbol, if_pos h0, List.filter_cons_of_neg (by simp [h0])]
        exact ih done f (by omega) hg hl
      · rw [Forest.seedSymbol, if_neg h0, List.filter_cons_of_pos (by simpa using h0)]
        obtain ⟨ps, hg⟩ := hg
        obtain ⟨e, hg'⟩ := hg.addLeaf hl (by omega) s
        have := ih (done ++ [s]) _ (by simp; omega) ⟨_, hg'⟩ (by simp [Forest.addNode, hl])
        simpa using this
  have := key allSymbols [] Forest.empty (by simp) ⟨[], Forest.empty_grows freq⟩ rfl
  exact this

/-- One combination (R164): two trees of the queue become one. -/
theorem Forest.Grows.combineOnce {freq : FreqTable} {syms : List Byte} {f f' : Forest} {ps : List (PqEntry × CodeTree)}
    (h : f.Grows freq syms ps) (hl : syms.length ≤ 256) (ht : (syms.map fun s => (freq.get s).toNat).sum ≤ maxCount)
    (hc : f.combineOnce = some f') :
    (∃ ps', f'.Grows freq syms ps') ∧ f'.queue.length + 1 = f.queue.length := by
  unfold Forest.combineOnce at hc
  split at hc
  · cases hc
  next a q1 h1 =>
  split at hc
  · cases hc
  next b q2 h2 =>
  cases hc
  obtain ⟨p1, -, m1⟩ := heapPop_spec h1
  obtain ⟨p2, -, m2⟩ := heapPop_spec h2
  have hpick := h.owned.takesTheTwoLeast (.internal (a.weight + b.weight) (some a.node) (some b.node)) h.stands
    (p1.trans (p2.cons _)) (fun x hx => m1 x (p2.mem_iff.2 hx)) m2
  have hsub : ∀ e ∈ q2, e ∈ f.queue := fun e he => (p1.trans (p2.cons _)).mem_iff.2 (by simp [he])
  rw [h.queue] at h1
  obtain ⟨⟨a', ta⟩, ps1, hp1, ha, hq1⟩ := heapPop_map Prod.fst h1
  rw [← hq1] at h2
  obtain ⟨⟨b', tb⟩, ps2, hp2, hb, hq2⟩ := heapPop_map Prod.fst h2
  simp only at ha hb
  subst ha hb
  have hp : ps.Perm ((a', ta) :: (b', tb) :: ps2) := hp1.trans (hp2.cons _)
  have ma : (a', ta) ∈ ps := hp.mem_iff.2 (by simp)
  have mb : (b', tb) ∈ ps := hp.mem_iff.2 (by simp)
  have wa := h.weight _ ma
  have wb := h.weight _ mb
  simp only at wa wb
  have hlen : f.queue.length = q2.length + 2 := by
    rw [h.queue, List.length_map, hp.length_eq, ← hq2]
    simp
  have hleaves : (ta.leaves ++ tb.leaves ++ ps2.flatMap fun p => p.2.leaves).Perm syms := by
    refine List.Perm.trans ?_ h.leaves
    have := (hp.flatMap_right fun p => p.2.leaves).symm
    simpa using this
  have hsum : ta.weight freq + tb.weight freq ≤ maxCount := by
    have := (hleaves.map fun s => (freq.get s).toNat).sum_eq
    rw [List.map_append, List.map_append, List.sum_append, List.sum_append, ← CodeTree.weight_eq_sum,
      ← CodeTree.weight_eq_sum] at this
    omega
  have hw : (a'.weight + b'.weight).toNat = ta.weight freq + tb.weight freq := by
    rw [BitVec.toNat_add, wa, wb]
    unfold maxCount at hsum
    omega
  have hsz := h.size
  have hi : (BitVec.ofNat 16 f.nodes.length).toNat = f.nodes.length := by simp; omega
  have hn : syms.length ≤ f.nodes.length := by
    have := h.leaves.length_eq
    have h2 : ps.length ≤ (ps.flatMap fun p => p.2.leaves).length := by
      clear * -
      induction ps with
      | nil => simp
      | cons p ps ih =>
        have := p.2.leaves_pos
        simp only [List.flatMap_cons, List.length_append, List.length_cons]
        omega
    have h3 : f.queue.length = ps.length := by rw [h.queue, List.length_map]
    omega
  refine ⟨⟨ps2 ++ [({ weight := a'.weight + b'.weight, seq := f.seq, node := BitVec.ofNat 16 f.nodes.length },
    .node ta tb)], ?_⟩, ?_⟩
  · constructor
    · simp [Forest.addNode, heapPush, Node.weight, hq2]
    · intro p hp'
      rcases List.mem_append.1 hp' with hp' | hp'
      · exact (h.holds p (hp.mem_iff.2 (by simp [hp']))).append _
      · rw [List.mem_singleton.1 hp']
        refine ⟨a'.weight + b'.weight, a'.node, b'.node, ?_, hw, (h.holds _ ma).append _, (h.holds _ mb).append _⟩
        simp [Forest.addNode, hi]
    · intro p hp'
      rcases List.mem_append.1 hp' with hp' | hp'
      · exact h.weight p (hp.mem_iff.2 (by simp [hp']))
      · rw [List.mem_singleton.1 hp']
        exact hw
    · refine List.Perm.trans ?_ hleaves
      simp only [List.flatMap_append, List.flatMap_cons, List.flatMap_nil, List.append_nil, CodeTree.leaves]
      exact List.perm_append_comm
    · simp only [Forest.addNode, heapPush, List.length_append, List.length_singleton]
      omega
    · simp [Forest.addNode, h.seq, BitVec.ofNat_add]
    · rw [Forest.addNode, List.take_append_of_le_length hn]
      exact h.first
    · intro i m him hm
      have grow : ∀ {i : Nat} {n : Node}, f.nodes[i]? = some n →
          (f.nodes ++ [Node.internal (a'.weight + b'.weight) (some a'.node) (some b'.node)])[i]? = some n := by
        intro i n hn
        rw [List.getElem?_append_left (List.getElem?_eq_some_iff.1 hn).1]
        exact hn
      simp only [Forest.addNode] at hm ⊢
      by_cases hlt : i < f.nodes.length
      · rw [List.getElem?_append_left hlt] at hm
        obtain ⟨l, r, a, b, e1, e2, e3, e4, e5, e6⟩ := h.later i m him hm
        exact ⟨l, r, a, b, e1, e2, e3, grow e4, grow e5, e6⟩
      · have hie : i = f.nodes.length := by
          have := (List.getElem?_eq_some_iff.1 hm).1
          simp only [List.length_append, List.length_singleton] at this
          omega
        subst hie
        simp at hm
        subst hm
        obtain ⟨na, ea, wa'⟩ := (h.holds _ ma).root
        obtain ⟨nb, eb, wb'⟩ := (h.holds _ mb).root
        refine ⟨a'.node, b'.node, na, nb, rfl, (List.getElem?_eq_some_iff.1 ea).1, (List.getElem?_eq_some_iff.1 eb).1,
          grow ea, grow eb, ?_⟩
        simp only [Node.weight] at *
        rw [hw, wa', wb']
    · intro e he
      simp only [Forest.addNode, heapPush, List.getLast?_concat, Option.some.injEq] at he
      subst he
      simp only [Forest.addNode, List.length_append, List.length_singleton, hi]
    · have hq : (f.queue.map fun e => e.node.toNat).Perm
          (a'.node.toNat :: b'.node.toNat :: q2.map fun e => e.node.toNat) := by
        have := (hp.map Prod.fst).map fun e => e.node.toNat
        rw [← h.queue] at this
        simpa [hq2] using this
      have := h.owned.node (w := a'.weight + b'.weight) hq
      simpa [Forest.addNode, heapPush, hi] using this
    · intro e he
      rcases List.mem_append.1 he with he | he
      · exact (h.stands e (hsub e he)).append _
      · rw [List.mem_singleton.1 he, h.seq]
        exact PqEntry.standsFor_new (show f.nodes.length < 2 ^ 16 by omega) _
    · intro i w l r hn
      simp only [Forest.addNode] at hn ⊢
      by_cases hlt : i < f.nodes.length
      · rw [List.getElem?_append_left hlt] at hn
        exact (h.picked i w l r hn).append (Nat.le_of_lt hlt) _
      · have hie : i = f.nodes.length := by
          have := (List.getElem?_eq_some_iff.1 hn).1
          simp only [List.length_append, List.length_singleton] at this
          omega
        subst hie
        rw [List.getElem?_concat_length] at hn
        cases hn
        exact hpick
  · simp only [Forest.addNode, heapPush, List.length_append, List.length_singleton]
    omega

theorem Forest.combineOnce_eq_none {f : Forest} : f.combineOnce = none ↔ f.queue.length ≤ 1 := by
  unfold Forest.combineOnce
  split
  · next h => rw [heapPop_eq_none] at h; simp [h]
  · next a q1 h1 =>
    have l1 := heapPop_length h1
    split
    · next h => rw [heapPop_eq_none] at h; simp [l1, h]
    · next b q2 h2 =>
      have l2 := heapPop_length h2
      simp only [reduceCtorEq, false_iff]
      omega

/-- All combinations (R164): one tree is left. -/
theorem Forest.Grows.combine {freq : FreqTable} {syms : List Byte} (hl : syms.length ≤ 256)
    (ht : (syms.map fun s => (freq.get s).toNat).sum ≤ maxCount) :
    ∀ (k : Nat) (f : Forest), (∃ ps, f.Grows freq syms ps) → f.queue.length ≤ k + 1 →
      (∃ ps, (Forest.combine k f).Grows freq syms ps) ∧ (Forest.combine k f).queue.length = min 1 f.queue.length := by
  intro k
  induction k with
  | zero =>
    intro f hg hk
    exact ⟨hg, by simp only [Forest.combine]; omega⟩
  | succ k ih =>
    intro f hg hk
    rw [Forest.combine]
    split
    · next h =>
      have := Forest.combineOnce_eq_none.1 h
      exact ⟨hg, by omega⟩
    · next f' h =>
      obtain ⟨ps, hg⟩ := hg
      obtain ⟨hg', hq⟩ := hg.combineOnce hl ht h
      obtain ⟨h1, h2⟩ := ih f' hg' (by omega)
      refine ⟨h1, ?_⟩
      have : ¬ f.queue.length ≤ 1 := fun h' => by rw [Forest.combineOnce_eq_none.2 h'] at h; cases h
      omega

/-- What the construction answers when a symbol is counted and the weights fit (R163, R164): one entry, whose tree has
the counted symbols as leaves; 2n - 1 nodes, the root the last of them. -/
theorem Forest.build_spec {freq : FreqTable} (hn : 1 ≤ (counted freq).length) (ht : freq.total ≤ maxCount) :
    ∃ (e : PqEntry) (t : CodeTree), (Forest.build freq).Grows freq (counted freq) [(e, t)] ∧
      heapPop (Forest.build freq).queue = some (e, []) ∧
      (Forest.build freq).nodes.length = 2 * (counted freq).length - 1 ∧
      e.node.toNat = 2 * (counted freq).length - 2 := by
  obtain ⟨hg, hs⟩ := Forest.seed_grows freq
  have hq : (Forest.seed freq).queue.length = (counted freq).length := by
    obtain ⟨ps, hg⟩ := hg
    have := hg.size
    omega
  rw [total_eq_sum_counted] at ht
  obtain ⟨⟨ps, h1⟩, h2⟩ :=
    Forest.Grows.combine (length_counted_le freq) ht (Forest.seed freq).queue.length (Forest.seed freq) hg (by omega)
  have hb : Forest.build freq = Forest.combine (Forest.seed freq).queue.length (Forest.seed freq) := rfl
  rw [← hb] at h1 h2
  rw [hq, Nat.min_eq_left hn, h1.queue, List.length_map] at h2
  obtain ⟨⟨e, t⟩, rfl⟩ := List.length_eq_one_iff.1 h2
  have hs := h1.size
  have hl := h1.last e (by rw [h1.queue]; rfl)
  rw [h1.queue] at hs
  simp only [List.map_cons, List.map_nil, List.length_singleton] at hs
  exact ⟨e, t, h1, by rw [h1.queue]; rfl, by omega, by omega⟩

/-- With no symbol counted nothing is built (R166). -/
theorem Forest.build_empty {freq : FreqTable} (hn : (counted freq).length = 0) :
    Forest.build freq = Forest.empty := by
  obtain ⟨⟨ps, hg⟩, hs⟩ := Forest.seed_grows freq
  have hz := List.length_eq_zero_iff.1 hn
  have h1 : (Forest.seed freq).nodes = [] := by
    rw [hn] at hs
    exact List.length_eq_zero_iff.1 hs
  have h2 : (Forest.seed freq).queue = [] := by
    have := hg.size
    rw [hn, h1] at this
    exact List.length_eq_zero_iff.1 (by simpa using this)
  have h3 : (Forest.seed freq).seq = 0 := by rw [hg.seq, h1]; rfl
  have : Forest.seed freq = Forest.empty := by
    cases hf : Forest.seed freq
    rw [hf] at h1 h2 h3
    simp only at h1 h2 h3
    subst h1 h2 h3
    rfl
  unfold Forest.build
  rw [this]
  rfl

/-- A record of the arena that is built is a Leaf below the number of counted symbols and an Internal node from there on,
whose children are two records before it (10_state.md R28). -/
theorem Forest.Grows.childOf_lt {freq : FreqTable} {syms : List Byte} {f : Forest} {ps : List (PqEntry × CodeTree)}
    (h : f.Grows freq syms ps) {i : Nat} {b : Bool} {j : NodeIndex} (hj : childOf f.nodes i b = some j) :
    j.toNat < i ∧ i < f.nodes.length := by
  unfold childOf at hj
  cases hn : f.nodes[i]? with
  | none => rw [hn] at hj; cases hj
  | some m =>
    rw [hn, Option.bind_some] at hj
    have hi := (List.getElem?_eq_some_iff.1 hn).1
    refine ⟨?_, hi⟩
    by_cases hs : i < syms.length
    · have hm : (f.nodes.take syms.length)[i]? = some m := by rw [List.getElem?_take_of_lt hs, hn]
      rw [h.first, List.getElem?_map] at hm
      cases hg : syms[i]? with
      | none => rw [hg] at hm; cases hm
      | some s =>
        rw [hg] at hm
        cases hm
        cases hj
    · obtain ⟨l, r, a, c, e, hl, hr, -⟩ := h.later i m (by omega) hn
      rw [e] at hj
      cases b
      · cases hj; exact hl
      · cases hj; exact hr

/-- The finished tree's form (10_state.md R28(c), R28(e)). -/
theorem Forest.Grows.shape {freq : FreqTable} {syms : List Byte} {f : Forest} {e : PqEntry} {t : CodeTree}
    (h : f.Grows freq syms [(e, t)]) : singleOwnership f.nodes (some e.node.toNat) ∧ builtShape f.nodes := by
  have ho := h.owned
  rw [h.queue] at ho
  refine ⟨ho.singleOwnership, fun i b j hj => (h.childOf_lt hj).1, fun i w l r hn => ?_⟩
  by_cases hs : i < syms.length
  · have hm : (f.nodes.take syms.length)[i]? = some (.internal w l r) := by rw [List.getElem?_take_of_lt hs, hn]
    rw [h.first, List.getElem?_map] at hm
    cases hg : syms[i]? <;> rw [hg] at hm <;> cases hm
  · obtain ⟨j, k, a, b, he, -, -, ha, hb, hw⟩ := h.later i _ (by omega) hn
    simp only [Node.internal.injEq] at he
    exact ⟨j, k, a, b, he.2.1, he.2.2, ha, hb, hw⟩

/-! ### TREE_BUILD -/

/-- The state of a TREE_BUILD whose weights fit (R163). -/
def treeBuilt (s : State) : State :=
  { plantForest s (Forest.build s.freq) with
    res0 := (Forest.build s.freq).rootWeight
    res1 := BitVec.ofNat 64 (leafCount s.freq) }.complete .ok

theorem execTreeBuild_overflow {s : State} (h : maxCount < s.freq.total) :
    execTreeBuild s = .next (s.complete .weightOverflow) := by
  unfold execTreeBuild
  rw [if_pos (by simpa [FreqTable.overflows] using h)]

theorem execTreeBuild_fits {s : State} (h : s.freq.total ≤ maxCount) : execTreeBuild s = .next (treeBuilt s) := by
  unfold execTreeBuild
  rw [if_neg (by simpa [FreqTable.overflows] using h)]
  rfl

/-- TREE_BUILD answers a next state; it is OK exactly when the weights fit (R160). -/
theorem execTreeBuild_of_ok {s t : State} (h : execTreeBuild s = .next t) (ho : t.err = .ok) :
    s.freq.total ≤ maxCount ∧ t = treeBuilt s := by
  by_cases hc : s.freq.total ≤ maxCount
  · rw [execTreeBuild_fits hc] at h
    cases h
    exact ⟨hc, rfl⟩
  · rw [execTreeBuild_overflow (by omega)] at h
    cases h
    cases ho

end Sys2Proof.Machine
end

