-- ==== Sys2Proof/Laws/Paths.lean ====
section
/-! SUPPORT. Paths of the arena (00_scope.md R14, 10_state.md R28, R29) and the walk of 44_codebook.md R182: the records a
walk makes are exactly the paths to leaves, and a walk ends where no path is too long. -/

namespace Sys2Proof.Machine

@[simp] theorem followPath_nil (nodes : List Node) (i : Nat) : followPath nodes i [] = nodes[i]? := rfl

theorem followPath_cons (nodes : List Node) (i : Nat) (b : Bool) (c : Code) :
    followPath nodes i (b :: c) = (childOf nodes i b).bind fun j => followPath nodes j.toNat c := by
  rw [followPath]
  cases childOf nodes i b <;> rfl

theorem childOf_leaf {nodes : List Node} {i : Nat} {s : Byte} {w : DWord} (h : nodes[i]? = some (.leaf s w)) (b : Bool) :
    childOf nodes i b = none := by
  simp [childOf, h, Node.child]

/-- No path goes on from a leaf. -/
theorem followPath_leaf_append {nodes : List Node} {i : Nat} {c d : Code} {s : Byte} {w : DWord}
    (h : followPath nodes i c = some (.leaf s w)) (hd : d ≠ []) : followPath nodes i (c ++ d) = none := by
  induction c generalizing i with
  | nil =>
    cases d with
    | nil => exact absurd rfl hd
    | cons b d => rw [List.nil_append, followPath_cons, childOf_leaf h, Option.bind_none]
  | cons b c ih =>
    rw [List.cons_append, followPath_cons] at *
    cases hj : childOf nodes i b with
    | none => rfl
    | some j =>
      rw [hj] at h
      exact ih h

/-- No path to a leaf is a prefix of a path to another leaf (44_codebook.md R185). -/
theorem leaf_paths_prefix_free {nodes : List Node} {i : Nat} {c d : Code} {s t : Byte} {v w : DWord}
    (hc : followPath nodes i c = some (.leaf s v)) (hd : followPath nodes i d = some (.leaf t w)) (hp : c <+: d) :
    c = d ∧ s = t := by
  obtain ⟨e, rfl⟩ := hp
  by_cases he : e = []
  · subst he
    rw [List.append_nil] at hd ⊢
    rw [hc] at hd
    cases hd
    exact ⟨rfl, rfl⟩
  · rw [followPath_leaf_append hc he] at hd
    cases hd

/-- Where every link leads to a record, a path that leaves the tree does not come back (10_state.md R28(a)). -/
theorem followPath_append_none {nodes : List Node} (ha : childrenAllocated nodes) {i : Nat} (hi : i < nodes.length)
    {c : Code} (h : followPath nodes i c = none) (d : Code) : followPath nodes i (c ++ d) = none := by
  induction c generalizing i with
  | nil =>
    rw [followPath_nil, List.getElem?_eq_none_iff] at h
    omega
  | cons b c ih =>
    rw [List.cons_append, followPath_cons]
    rw [followPath_cons] at h
    cases hj : childOf nodes i b with
    | none => rfl
    | some j =>
      rw [hj] at h
      exact ih (ha i b j hj) h

/-- What a walk answers (44_codebook.md R182): the paths to leaves, in front of each the path that led here. -/
theorem mem_walk {nodes : List Node} {depth i : Nat} {c : Code} {rs : List (Byte × Code)}
    (h : walk nodes depth i c = some rs) (x : Byte) (d : Code) :
    (x, d) ∈ rs ↔ ∃ e w, d = c ++ e ∧ e.length < depth ∧ followPath nodes i e = some (.leaf x w) := by
  induction depth generalizing i c rs with
  | zero => cases h
  | succ depth ih =>
    rw [walk] at h
    split at h
    · cases h
    · next s w hn =>
      cases h
      constructor
      · intro hm
        cases List.mem_singleton.1 hm
        exact ⟨[], w, (List.append_nil d).symm, Nat.succ_pos _, hn⟩
      · rintro ⟨e, w', rfl, -, hf⟩
        cases e with
        | nil =>
          rw [followPath_nil, hn] at hf
          cases hf
          simp
        | cons b e =>
          rw [followPath_cons, childOf_leaf hn] at hf
          cases hf
    · next w l r hn =>
      split at h
      · next b0 b1 h0 h1 =>
        cases h
        have side : ∀ (b : Bool) (k : Option NodeIndex) (bs : List (Byte × Code)), (childOf nodes i b) = k →
            (match k with
              | none => some []
              | some j => walk nodes depth j.toNat (c ++ [b])) = some bs →
            ((x, d) ∈ bs ↔
              ∃ e w, d = c ++ (b :: e) ∧ (b :: e).length < depth + 1 ∧ followPath nodes i (b :: e) = some (.leaf x w)) := by
          intro b k bs hk hb
          cases k with
          | none =>
            cases hb
            simp [followPath_cons, hk]
          | some j =>
            rw [ih hb]
            simp [followPath_cons, hk]
        rw [List.mem_append, side false l b0 (by simp [childOf, hn, Node.child]) h0,
          side true r b1 (by simp [childOf, hn, Node.child]) h1]
        constructor
        · rintro (⟨e, w, h⟩ | ⟨e, w, h⟩)
          · exact ⟨_, w, h⟩
          · exact ⟨_, w, h⟩
        · rintro ⟨e, w, h1, h2, h3⟩
          cases e with
          | nil => rw [followPath_nil, hn] at h3; cases h3
          | cons b e =>
            cases b
            · exact .inl ⟨e, w, h1, h2, h3⟩
            · exact .inr ⟨e, w, h1, h2, h3⟩
      · cases h

/-- A walk answers when every link leads to a record and no path is too long (10_state.md R28(a), R29). -/
theorem exists_walk {nodes : List Node} (ha : childrenAllocated nodes) {depth i : Nat} (hi : i < nodes.length)
    (hp : ∀ e, e.length = depth → followPath nodes i e = none) (c : Code) : ∃ rs, walk nodes depth i c = some rs := by
  induction depth generalizing i c with
  | zero =>
    have := hp [] rfl
    rw [followPath_nil, List.getElem?_eq_none_iff] at this
    omega
  | succ depth ih =>
    rw [walk]
    have sub : ∀ (b : Bool) (j : NodeIndex), childOf nodes i b = some j →
        ∃ bs, walk nodes depth j.toNat (c ++ [b]) = some bs := by
      intro b j hj
      refine ih (ha i b j hj) (fun e he => ?_) _
      have := hp (b :: e) (by simp [he])
      rwa [followPath_cons, hj, Option.bind_some] at this
    split
    · next hn => rw [List.getElem?_eq_none_iff] at hn; omega
    · exact ⟨_, rfl⟩
    · next w l r hn =>
      have h0 : ∀ j, l = some j → ∃ bs, walk nodes depth j.toNat (c ++ [false]) = some bs := by
        intro j hj
        exact sub false j (by simp [childOf, hn, Node.child, hj])
      have h1 : ∀ j, r = some j → ∃ bs, walk nodes depth j.toNat (c ++ [true]) = some bs := by
        intro j hj
        exact sub true j (by simp [childOf, hn, Node.child, hj])
      cases l with
      | none =>
        cases r with
        | none => exact ⟨_, rfl⟩
        | some k =>
          obtain ⟨b1, e1⟩ := h1 k rfl
          exact ⟨b1, by simp only [e1, List.nil_append]⟩
      | some j =>
        obtain ⟨b0, e0⟩ := h0 j rfl
        cases r with
        | none => exact ⟨b0 ++ [], by simp only [e0]⟩
        | some k =>
          obtain ⟨b1, e1⟩ := h1 k rfl
          exact ⟨b0 ++ b1, by simp only [e0, e1]⟩

/-- Paths of a tree that hangs at an index: none is longer than the tree is high. -/
theorem Holds.followPath_none {freq : FreqTable} {nodes : List Node} {i : Nat} {t : CodeTree} (h : Holds freq nodes i t)
    {e : Code} (he : t.height < e.length) : followPath nodes i e = none := by
  induction t generalizing i e with
  | leaf s =>
    cases e with
    | nil => simp at he
    | cons b e => rw [followPath_cons, childOf_leaf h, Option.bind_none]
  | node l r ihl ihr =>
    obtain ⟨w, a, b, h1, -, h3, h4⟩ := h
    cases e with
    | nil => simp at he
    | cons x e =>
      simp only [CodeTree.height, List.length_cons] at he
      rw [followPath_cons]
      cases x
      · simp only [childOf, h1, Option.bind_some, Node.child]
        exact ihl h3 (by omega)
      · simp only [childOf, h1, Option.bind_some, Node.child]
        exact ihr h4 (by omega)

end Sys2Proof.Machine
end

