-- ==== Sys2Proof/Laws/Codes.lean ====
section
/-! SUPPORT. Codes and codebooks (10_state.md R32, 44_codebook.md R182): an entry made from a code gives the code back, what
a list of recorded codes makes of the empty codebook, CB_COUNT and the greatest length, and what CB_GEN answers. -/

namespace Sys2Proof.Machine

/-! ### One code -/

theorem codeNat_lt (c : Code) : codeNat c < 2 ^ c.length := by
  induction c with
  | nil => exact Nat.one_pos
  | cons b c ih =>
    have : b.toNat ≤ 1 := by cases b <;> decide
    simp only [codeNat, List.length_cons, Nat.pow_succ]
    omega

theorem testBit_codeNat (c : Code) (j : Nat) : (codeNat c).testBit j = c.getD j false := by
  induction c generalizing j with
  | nil => simp [codeNat]
  | cons b c ih =>
    cases j with
    | zero => cases b <;> simp [codeNat, Nat.testBit_zero]
    | succ j =>
      have h2 : (b.toNat + 2 * codeNat c) / 2 = codeNat c := by
        have : b.toNat ≤ 1 := by cases b <;> decide
        omega
      rw [codeNat, Nat.testBit_succ, h2, ih, List.getD_cons_succ]

theorem CbEntry.ofCode_len {c : Code} (h : c.length ≤ 255) : (CbEntry.ofCode c).len.toNat = c.length := by
  simp [CbEntry.ofCode]
  omega

theorem CbEntry.ofCode_bits {c : Code} (h : c.length ≤ 255) : (CbEntry.ofCode c).bits.toNat = codeNat c := by
  have h1 := codeNat_lt c
  have h2 : 2 ^ c.length ≤ 2 ^ 256 := Nat.pow_le_pow_right (by decide) (by omega)
  rw [CbEntry.ofCode, BitVec.toNat_ofNat, Nat.mod_eq_of_lt (by omega)]

/-- The entry made from a code holds that code (10_state.md R32). -/
theorem CbEntry.code_ofCode {c : Code} (h : c.length ≤ 255) : (CbEntry.ofCode c).code = c := by
  apply List.ext_getElem
  · simp only [CbEntry.code, List.length_map, List.length_range, CbEntry.ofCode_len h]
  · intro j h1 h2
    simp only [CbEntry.code, List.getElem_map, List.getElem_range]
    rw [← BitVec.testBit_toNat, CbEntry.ofCode_bits h, testBit_codeNat]
    simp [h2]

@[simp] theorem CbEntry.ofCode_valid (c : Code) : (CbEntry.ofCode c).valid = true := rfl

/-- The entry made from a code of 1 to 255 bits is in order (10_state.md R32). -/
theorem CbEntry.ok_ofCode {c : Code} (h1 : 1 ≤ c.length) (h : c.length ≤ 255) : (CbEntry.ofCode c).Ok := by
  refine ⟨fun _ => ?_, fun h => by cases h⟩
  rw [CbEntry.ofCode_len h, CbEntry.ofCode_bits h]
  exact ⟨h1, codeNat_lt c⟩

@[simp] theorem CbEntry.length_code (e : CbEntry) : e.code.length = e.len.toNat := by simp [CbEntry.code]

/-! ### Codebooks -/

theorem Codebook.codeOf_eq_some {cb : Codebook} {x : Byte} {c : Code} :
    cb.codeOf x = some c ↔ (cb.get x).valid = true ∧ (cb.get x).code = c := by
  unfold Codebook.codeOf
  split <;> simp [*]

theorem Codebook.codeOf_eq_none {cb : Codebook} {x : Byte} : cb.codeOf x = none ↔ (cb.get x).valid = false := by
  unfold Codebook.codeOf
  split <;> simp [*]

@[simp] theorem Codebook.codeOf_emptyCodebook (x : Byte) : Codebook.codeOf emptyCodebook x = none := by
  simp [Codebook.codeOf_eq_none]

/-- The entry of a recorded list of codes: the last one recorded for the symbol, or the old entry (R182: Record). -/
theorem Codebook.get_records (cb : Codebook) (rs : List (Byte × Code)) (x : Byte) :
    (x ∉ rs.map Prod.fst ∧ (rs.foldl Codebook.record cb).get x = cb.get x) ∨
    ∃ c, (x, c) ∈ rs ∧ (rs.foldl Codebook.record cb).get x = CbEntry.ofCode c := by
  induction rs generalizing cb with
  | nil => exact .inl ⟨by simp, rfl⟩
  | cons r rs ih =>
    rw [List.foldl_cons]
    rcases ih (cb.record r) with ⟨h1, h2⟩ | ⟨c, h1, h2⟩
    · rw [Codebook.get_record] at h2
      by_cases hx : x = r.1
      · rw [if_pos hx] at h2
        exact .inr ⟨r.2, by simp [hx], h2⟩
      · rw [if_neg hx] at h2
        exact .inl ⟨by simpa [hx] using h1, h2⟩
    · exact .inr ⟨c, by simp [h1], h2⟩

/-- The codes of a recorded list. -/
theorem codeOf_records {rs : List (Byte × Code)} (hl : ∀ r ∈ rs, r.2.length ≤ 255) {x : Byte} {c : Code}
    (h : (rs.foldl Codebook.record emptyCodebook).codeOf x = some c) : (x, c) ∈ rs := by
  rw [Codebook.codeOf_eq_some] at h
  rcases Codebook.get_records emptyCodebook rs x with ⟨-, h2⟩ | ⟨d, h1, h2⟩
  · rw [h2] at h
    simp at h
  · rw [h2, CbEntry.code_ofCode (hl _ h1)] at h
    rw [← h.2]
    exact h1

theorem exists_codeOf_records {rs : List (Byte × Code)} {x : Byte} {c : Code} (h : (x, c) ∈ rs) :
    ∃ d, (rs.foldl Codebook.record emptyCodebook).codeOf x = some d := by
  rcases Codebook.get_records emptyCodebook rs x with ⟨h1, -⟩ | ⟨d, -, h2⟩
  · exact absurd (List.mem_map_of_mem h) h1
  · exact ⟨_, Codebook.codeOf_eq_some.2 ⟨by rw [h2]; rfl, rfl⟩⟩

/-- With no symbol twice the codes are exactly the recorded ones. -/
theorem codeOf_records_iff {rs : List (Byte × Code)} (hl : ∀ r ∈ rs, r.2.length ≤ 255)
    (hn : (rs.map Prod.fst).Nodup) {x : Byte} {c : Code} :
    (rs.foldl Codebook.record emptyCodebook).codeOf x = some c ↔ (x, c) ∈ rs := by
  refine ⟨codeOf_records hl, fun h => ?_⟩
  obtain ⟨d, hd⟩ := exists_codeOf_records h
  have := List.inj_on_of_nodup_map hn h (codeOf_records hl hd) rfl
  cases this
  exact hd

theorem get_records_of_mem {rs : List (Byte × Code)} (hn : (rs.map Prod.fst).Nodup) {x : Byte} {c : Code}
    (h : (x, c) ∈ rs) : (rs.foldl Codebook.record emptyCodebook).get x = CbEntry.ofCode c := by
  rcases Codebook.get_records emptyCodebook rs x with ⟨h1, -⟩ | ⟨d, h1, h2⟩
  · exact absurd (List.mem_map_of_mem h) h1
  · have := List.inj_on_of_nodup_map hn h h1 rfl
    cases this
    exact h2

theorem get_records_of_notMem {rs : List (Byte × Code)} {x : Byte} (h : x ∉ rs.map Prod.fst) :
    (rs.foldl Codebook.record emptyCodebook).get x = { valid := false, len := 0, bits := 0 } := by
  rcases Codebook.get_records emptyCodebook rs x with ⟨-, h2⟩ | ⟨d, h1, -⟩
  · rw [h2, Codebook.get_emptyCodebook]
  · exact absurd (List.mem_map_of_mem h1) h

theorem valid_records {rs : List (Byte × Code)} (x : Byte) :
    ((rs.foldl Codebook.record emptyCodebook).get x).valid = true ↔ x ∈ rs.map Prod.fst := by
  rcases Codebook.get_records emptyCodebook rs x with ⟨h1, h2⟩ | ⟨d, h1, h2⟩
  · rw [h2, Codebook.get_emptyCodebook]
    simpa using h1
  · rw [h2]
    simpa using List.mem_map_of_mem (f := Prod.fst) h1

/-- The symbols with a code are the recorded ones. -/
theorem perm_valid_records {rs : List (Byte × Code)} (hn : (rs.map Prod.fst).Nodup) :
    (allSymbols.filter fun s => ((rs.foldl Codebook.record emptyCodebook).get s).valid).Perm (rs.map Prod.fst) := by
  rw [List.perm_ext_iff_of_nodup (nodup_allSymbols.filter _) hn]
  intro x
  rw [List.mem_filter]
  simp only [mem_allSymbols, true_and, valid_records]

/-- A codebook of recorded codes of 1 to 255 bits is in order (10_state.md R32). -/
theorem ok_records {rs : List (Byte × Code)} (hl : ∀ r ∈ rs, 1 ≤ r.2.length ∧ r.2.length ≤ 255) (x : Byte) :
    ((rs.foldl Codebook.record emptyCodebook).get x).Ok := by
  rcases Codebook.get_records emptyCodebook rs x with ⟨-, h⟩ | ⟨c, hc, h⟩
  · rw [h]
    simp [CbEntry.Ok]
  · rw [h]
    exact CbEntry.ok_ofCode (hl _ hc).1 (hl _ hc).2

/-- CB_COUNT, counted as the symbols with a code. -/
theorem Codebook.count_eq_length (cb : Codebook) :
    cb.count = (allSymbols.filter fun s => (cb.get s).valid).length := List.countP_eq_length_filter ..

/-! ### The greatest length -/

theorem Codebook.longest_fold (cb : Codebook) (L : List Byte) (m : Nat) :
    m ≤ L.foldl (fun m s => if (cb.get s).valid then max m (cb.get s).len.toNat else m) m ∧
    (∀ s ∈ L, (cb.get s).valid = true →
      (cb.get s).len.toNat ≤ L.foldl (fun m s => if (cb.get s).valid then max m (cb.get s).len.toNat else m) m) ∧
    (L.foldl (fun m s => if (cb.get s).valid then max m (cb.get s).len.toNat else m) m = m ∨
      ∃ s ∈ L, (cb.get s).valid = true ∧
        (cb.get s).len.toNat = L.foldl (fun m s => if (cb.get s).valid then max m (cb.get s).len.toNat else m) m) := by
  induction L generalizing m with
  | nil => simp
  | cons a L ih =>
    rw [List.foldl_cons]
    obtain ⟨h1, h2, h3⟩ := ih (if (cb.get a).valid then max m (cb.get a).len.toNat else m)
    generalize L.foldl _ _ = M at *
    by_cases hv : (cb.get a).valid = true
    · rw [if_pos hv] at h1 h3
      refine ⟨by omega, ?_, ?_⟩
      · intro s hs hvs
        rcases List.mem_cons.1 hs with rfl | hs
        · omega
        · exact h2 s hs hvs
      · rcases h3 with h3 | ⟨s, hs, h3⟩
        · by_cases hm : M = m
          · exact .inl hm
          · exact .inr ⟨a, List.mem_cons_self, hv, by omega⟩
        · exact .inr ⟨s, List.mem_cons_of_mem _ hs, h3⟩
    · rw [if_neg hv] at h1 h3
      refine ⟨h1, ?_, ?_⟩
      · intro s hs hvs
        rcases List.mem_cons.1 hs with rfl | hs
        · exact absurd hvs hv
        · exact h2 s hs hvs
      · rcases h3 with h3 | ⟨s, hs, h3⟩
        · exact .inl h3
        · exact .inr ⟨s, List.mem_cons_of_mem _ hs, h3⟩

theorem Codebook.le_longest {cb : Codebook} {s : Byte} (h : (cb.get s).valid = true) :
    (cb.get s).len.toNat ≤ cb.longest := (cb.longest_fold allSymbols 0).2.1 s (mem_allSymbols s) h

theorem Codebook.longest_attained (cb : Codebook) :
    cb.longest = 0 ∨ ∃ s, (cb.get s).valid = true ∧ (cb.get s).len.toNat = cb.longest := by
  rcases (cb.longest_fold allSymbols 0).2.2 with h | ⟨s, -, h⟩
  · exact .inl h
  · exact .inr ⟨s, h⟩

theorem Codebook.longest_lt (cb : Codebook) : cb.longest < 256 := by
  rcases cb.longest_attained with h | ⟨s, -, h⟩
  · omega
  · rw [← h]
    exact (cb.get s).len.isLt

/-! ### CB_GEN -/

/-- The records of CB_GEN (R182, R183): their codes have 1 to 255 bits, and lead to leaves where the root is no leaf. -/
theorem codesOf_spec {nodes : List Node} {root : Nat} {rs : List (Byte × Code)} (h : codesOf nodes root = some rs) :
    (∃ s w, nodes[root]? = some (.leaf s w) ∧ rs = [(s, [false])]) ∨
    (∃ w l r, nodes[root]? = some (.internal w l r) ∧
      ∀ x d, (x, d) ∈ rs ↔ 1 ≤ d.length ∧ d.length ≤ 255 ∧ ∃ w, followPath nodes root d = some (.leaf x w)) := by
  unfold codesOf at h
  split at h
  · next s w hn =>
    cases h
    exact .inl ⟨s, w, hn, rfl⟩
  · next hl =>
    have hmem := mem_walk h
    cases hn : nodes[root]? with
    | none => rw [walk, hn] at h; cases h
    | some n =>
      cases n with
      | leaf s w => exact absurd hn (hl s w)
      | internal w l r =>
        refine .inr ⟨w, l, r, rfl, fun x d => ?_⟩
        rw [hmem]
        constructor
        · rintro ⟨e, w', rfl, he, hf⟩
          refine ⟨?_, by unfold walkDepth at he; omega, w', hf⟩
          cases d with
          | nil => rw [followPath_nil, hn] at hf; cases hf
          | cons b e => exact Nat.succ_pos _
        · rintro ⟨-, h2, w', hf⟩
          exact ⟨d, w', rfl, by unfold walkDepth; omega, hf⟩

theorem codesOf_length {nodes : List Node} {root : Nat} {rs : List (Byte × Code)} (h : codesOf nodes root = some rs) :
    ∀ r ∈ rs, 1 ≤ r.2.length ∧ r.2.length ≤ 255 := by
  rintro ⟨x, d⟩ hr
  rcases codesOf_spec h with ⟨s, w, -, rfl⟩ | ⟨w, l, r, -, hm⟩
  · cases List.mem_singleton.1 hr
    exact ⟨Nat.le_refl 1, by simp⟩
  · have := (hm x d).1 hr
    exact ⟨this.1, this.2.1⟩

/-- In an arena in order CB_GEN finds its codes (10_state.md R28, R29). -/
theorem exists_generateCodebook {s : State} (h : s.LinksOk) : ∃ cb, generateCodebook s = some cb := by
  obtain ⟨-, ha, -, hp⟩ := h
  unfold generateCodebook
  split
  · next hv =>
    obtain ⟨hr, hp⟩ := hp hv
    have : ∃ rs, codesOf s.nodes s.root.toNat = some rs := by
      unfold codesOf
      split
      · exact ⟨_, rfl⟩
      · exact exists_walk ha hr hp []
    obtain ⟨rs, hrs⟩ := this
    exact ⟨_, by rw [hrs]; rfl⟩
  · exact ⟨_, rfl⟩

/-- CB_GEN reads the tree alone. -/
theorem generateCodebook_congr {s t : State} (h1 : s.nodes = t.nodes) (h2 : s.root = t.root)
    (h3 : s.rootValid = t.rootValid) : generateCodebook s = generateCodebook t := by
  unfold generateCodebook
  rw [h1, h2, h3]

theorem generateCodebook_cases {s : State} {cb : Codebook} (h : generateCodebook s = some cb) :
    (s.rootValid = false ∧ cb = emptyCodebook) ∨
    (s.rootValid = true ∧ ∃ rs, codesOf s.nodes s.root.toNat = some rs ∧ cb = rs.foldl Codebook.record emptyCodebook) := by
  unfold generateCodebook at h
  split at h
  · next hv =>
    cases hc : codesOf s.nodes s.root.toNat with
    | none => rw [hc] at h; cases h
    | some rs => rw [hc] at h; cases h; exact .inr ⟨hv, rs, rfl, rfl⟩
  · next hv =>
    cases h
    exact .inl ⟨by simpa using hv, rfl⟩

/-- Every code of CB_GEN's codebook is in order (10_state.md R32). -/
theorem generateCodebook_ok {s : State} {cb : Codebook} (h : generateCodebook s = some cb) (x : Byte) :
    (cb.get x).Ok := by
  rcases generateCodebook_cases h with ⟨-, rfl⟩ | ⟨-, rs, hrs, rfl⟩
  · simp [CbEntry.Ok]
  · exact ok_records (codesOf_length hrs) x

/-- The codes a tree's leaves get: the paths, and [0] at a lone leaf (R182, R183). -/
def CodeTree.assigned : CodeTree → List (Byte × Code)
  | .leaf s => [(s, [false])]
  | .node l r => (CodeTree.node l r).codes []

/-- The codes of a tree that hangs at the root (R182, R183). -/
theorem codesOf_holds {freq : FreqTable} {nodes : List Node} {root : Nat} {t : CodeTree} (h : Holds freq nodes root t)
    (hl : t.leaves.length ≤ 256) :
    codesOf nodes root = some t.assigned := by
  unfold codesOf
  cases t with
  | leaf s =>
    have h' : nodes[root]? = some (.leaf s (freq.get s)) := h
    rw [h']
    rfl
  | node l r =>
    have hh := (CodeTree.node l r).height_lt
    have hw := h.walk (depth := walkDepth) (by unfold walkDepth; omega) []
    obtain ⟨w, a, b, h1, -⟩ := h
    rw [h1]
    exact hw

end Sys2Proof.Machine
end

