-- ==== Sys2Proof/Laws/Regions.lean ====
section
/-! SUPPORT. The region checks as propositions (20_memory.md R63, R64), and the byte counts of the source region. -/

namespace Sys2Proof.Machine

theorem srcInRange_iff (s : State) : s.srcInRange = true ↔ s.srcAddr.toNat + s.srcLen.toNat ≤ s.cfg.memBytes := by
  simp [State.srcInRange, inRange]

theorem dstInRange_iff (s : State) : s.dstInRange = true ↔ s.dstAddr.toNat + s.dstCap.toNat ≤ s.cfg.memBytes := by
  simp [State.dstInRange, inRange]

theorem regionsOverlap_iff (s : State) :
    s.regionsOverlap = true ↔ 0 < s.srcLen.toNat ∧ 0 < s.dstCap.toNat ∧
      s.srcAddr.toNat < s.dstAddr.toNat + s.dstCap.toNat ∧ s.dstAddr.toNat < s.srcAddr.toNat + s.srcLen.toNat := by
  simp [State.regionsOverlap, overlap, and_assoc]

/-- The checks of ENC_RUN and DEC_RUN pass exactly when the regions are in order. -/
theorem regionsOk_iff (s : State) :
    RegionsOk s ↔ (!s.srcInRange || !s.dstInRange) = false ∧ s.regionsOverlap = false := by
  rw [RegionsOk, ← srcInRange_iff, ← dstInRange_iff, ← regionsOverlap_iff]
  cases s.srcInRange <;> cases s.dstInRange <;> cases s.regionsOverlap <;> decide

theorem memBytes_le (c : Config) : c.memBytes ≤ 2 ^ 32 := by
  have := c.memTop.isLt
  unfold Config.memBytes
  omega

/-! ### The source bytes -/

theorem Memory.readBytes_eq_map (m : Memory) (a n : Nat) :
    m.readBytes a n = (List.range n).map fun k => m.read (a + k) := by
  apply List.ext_getElem
  · simp
  · intro k h1 h2
    rw [Memory.getElem_readBytes]
    simp

theorem srcBytes_eq_map (s : State) :
    s.srcBytes = (List.range s.srcLen.toNat).map fun k => s.mem.read (s.srcAddr.toNat + k) :=
  Memory.readBytes_eq_map _ _ _

@[simp] theorem length_srcBytes (s : State) : s.srcBytes.length = s.srcLen.toNat := by
  simp [State.srcBytes]

theorem countP_range (p : Nat → Bool) (n : Nat) :
    (List.range n).countP p = ((Finset.range n).filter fun k => p k = true).card := by
  induction n with
  | zero => rfl
  | succ n ih =>
    rw [List.range_succ, List.countP_append, ih, Finset.range_add_one, Finset.filter_insert]
    by_cases h : p n = true
    · rw [if_pos h, Finset.card_insert_of_notMem (by simp)]
      simp [h]
    · rw [if_neg h]
      simp [h]

/-- occ[c] of the source region is the number of positions that hold c (41_frequency_table.md R125). -/
theorem count_srcBytes (s : State) (c : Byte) : s.srcBytes.count c = sourceCount s c := by
  rw [srcBytes_eq_map, List.count, List.countP_map, countP_range]
  simp [sourceCount]

theorem sourceCount_le (s : State) (c : Byte) : sourceCount s c ≤ s.srcLen.toNat := by
  rw [← count_srcBytes, ← length_srcBytes]
  exact List.count_le_length

theorem sourceCount_lt (s : State) (c : Byte) : sourceCount s c < 2 ^ 32 :=
  Nat.lt_of_le_of_lt (sourceCount_le s c) s.srcLen.isLt

theorem sum_map_indicator {L : List Byte} (hn : L.Nodup) {b : Byte} (hb : b ∈ L) :
    (L.map fun c => if b = c then 1 else 0).sum = 1 := by
  induction L with
  | nil => cases hb
  | cons a L ih =>
    obtain ⟨ha, hn⟩ := List.nodup_cons.1 hn
    simp only [List.map_cons, List.sum_cons]
    rcases List.mem_cons.1 hb with rfl | hb
    · have h0 : (L.map fun c => if b = c then 1 else 0).sum = 0 := by
        refine List.sum_eq_zero fun x hx => ?_
        obtain ⟨c, hc, rfl⟩ := List.mem_map.1 hx
        exact if_neg fun h : b = c => ha (h ▸ hc)
      rw [if_pos rfl, h0]
    · rw [if_neg fun h : b = a => ha (h ▸ hb), ih hn hb]

theorem sum_map_count {L : List Byte} (hn : L.Nodup) (bytes : List Byte) (hb : ∀ b ∈ bytes, b ∈ L) :
    (L.map fun c => bytes.count c).sum = bytes.length := by
  induction bytes with
  | nil => exact List.sum_eq_zero fun x hx => by obtain ⟨c, _, rfl⟩ := List.mem_map.1 hx; rfl
  | cons b bytes ih =>
    have h : (L.map fun c => (b :: bytes).count c) =
        L.map fun c => bytes.count c + if b = c then 1 else 0 :=
      List.map_congr_left fun c _ => by simp [List.count_cons]
    rw [h, List.sum_map_add, ih fun x hx => hb x (List.mem_cons_of_mem _ hx),
      sum_map_indicator hn (hb b List.mem_cons_self), List.length_cons]

/-- Every byte of a list is some symbol, so the counts add up to its length. -/
theorem sum_count_allSymbols (bytes : List Byte) : (allSymbols.map fun c => bytes.count c).sum = bytes.length :=
  sum_map_count nodup_allSymbols bytes fun b _ => mem_allSymbols b

@[simp] theorem get_countsOf (bytes : List Byte) (c : Byte) :
    (countsOf bytes).get c = BitVec.ofNat 64 (bytes.count c) := by
  simp [countsOf, occurrences]

/-- ENC_RUN's counting pass (47_encoder.md R241): no count overflows. -/
theorem toNat_get_countsOf_srcBytes (s : State) (c : Byte) :
    ((countsOf s.srcBytes).get c).toNat = sourceCount s c := by
  rw [get_countsOf, count_srcBytes, BitVec.toNat_ofNat]
  exact Nat.mod_eq_of_lt (Nat.lt_trans (sourceCount_lt s c) (by decide))

theorem total_countsOf_srcBytes (s : State) : (countsOf s.srcBytes).total = s.srcLen.toNat := by
  unfold FreqTable.total
  rw [← length_srcBytes, ← sum_count_allSymbols]
  congr 1
  apply List.map_congr_left
  intro c _
  rw [toNat_get_countsOf_srcBytes, count_srcBytes]

end Sys2Proof.Machine
end

