-- ==== Sys2Proof/Laws/Container.lean ====
section
/-! SUPPORT. The encoder (47_encoder.md): the length of the payload, the bytes of the table, the codebook ENC_RUN makes, and
what its container reads as in MEM. -/

namespace Sys2Proof.Machine

/-! ### Sums over an input -/

theorem sum_map_pick {L : List Byte} (hn : L.Nodup) {b : Byte} (hb : b ∈ L) (g : Byte → Nat) :
    (L.map fun c => (if b = c then 1 else 0) * g c).sum = g b := by
  induction L with
  | nil => cases hb
  | cons a L ih =>
    rw [List.map_cons, List.sum_cons]
    rw [List.nodup_cons] at hn
    by_cases hab : b = a
    · subst hab
      have h0 : (L.map fun c => (if b = c then 1 else 0) * g c).sum = 0 := by
        apply List.sum_eq_zero
        intro x hx
        obtain ⟨c, hc, rfl⟩ := List.mem_map.1 hx
        rw [if_neg (fun h : b = c => hn.1 (by rw [h]; exact hc)), Nat.zero_mul]
      rw [h0, if_pos rfl, Nat.one_mul, Nat.add_zero]
    · rw [if_neg hab, Nat.zero_mul, Nat.zero_add]
      exact ih hn.2 ((List.mem_cons.1 hb).resolve_left hab)

theorem sum_map_eq_sum_count (bytes : List Byte) (g : Byte → Nat) :
    (bytes.map g).sum = (allSymbols.map fun c => bytes.count c * g c).sum := by
  induction bytes with
  | nil =>
    refine (List.sum_eq_zero fun x hx => ?_).symm
    obtain ⟨c, -, rfl⟩ := List.mem_map.1 hx
    exact Nat.zero_mul _
  | cons b bytes ih =>
    rw [List.map_cons, List.sum_cons, ih, ← sum_map_pick nodup_allSymbols (mem_allSymbols b) g, ← List.sum_map_add]
    congr 1
    apply List.map_congr_left
    intro c _
    rw [List.count_cons, Nat.add_mul, Nat.add_comm]
    simp [beq_iff_eq]

/-! ### The payload -/

/-- The payload of an input whose every byte has a code (R244). -/
def inputBits (cb : Codebook) (bytes : List Byte) : List Bool := bytes.flatMap fun b => (cb.get b).code

theorem payloadBits_eq {cb : Codebook} {bytes : List Byte} (h : ∀ b ∈ bytes, (cb.get b).valid = true) :
    payloadBits cb bytes = some (inputBits cb bytes) := by
  induction bytes with
  | nil => rfl
  | cons b bytes ih =>
    rw [payloadBits, if_pos (h b List.mem_cons_self), ih fun x hx => h x (List.mem_cons_of_mem _ hx)]
    rfl

theorem length_inputBits (cb : Codebook) (bytes : List Byte) :
    (inputBits cb bytes).length = (allSymbols.map fun c => bytes.count c * (cb.get c).len.toNat).sum := by
  rw [← sum_map_eq_sum_count, inputBits, List.length_flatMap]
  simp

/-- P (R242) is the number of the payload's bits. -/
theorem payloadLength_eq {f : FreqTable} {cb : Codebook} {bytes : List Byte}
    (h : ∀ c, (f.get c).toNat = bytes.count c) : payloadLength f cb = (inputBits cb bytes).length := by
  rw [length_inputBits, payloadLength]
  congr 1
  apply List.map_congr_left
  intro c _
  rw [h]

theorem length_inputBits_le (cb : Codebook) (bytes : List Byte) :
    (inputBits cb bytes).length ≤ 255 * bytes.length := by
  unfold inputBits
  induction bytes with
  | nil => exact Nat.le_refl 0
  | cons b bytes ih =>
    have := (cb.get b).len.isLt
    simp only [List.flatMap_cons, List.length_append, CbEntry.length_code, List.length_cons]
    omega

/-! ### The table -/

theorem tableBytes_eq (cb : Codebook) :
    tableBytes cb = (allSymbols.filter fun s => (cb.get s).valid).flatMap fun s => entryBytes s (cb.get s) := by
  unfold tableBytes
  generalize allSymbols = L
  induction L with
  | nil => rfl
  | cons s L ih =>
    by_cases h : (cb.get s).valid = true
    · rw [List.filter_cons_of_pos (p := fun s => (cb.get s).valid) h, List.flatMap_cons, List.flatMap_cons, ih, if_pos h]
    · rw [List.filter_cons_of_neg (p := fun s => (cb.get s).valid) h, List.flatMap_cons, ih, if_neg h, List.nil_append]

@[simp] theorem length_entryBytes (s : Byte) (e : CbEntry) : (entryBytes s e).length = 2 + ceil8 e.len.toNat := by
  simp [entryBytes, CbEntry.codeBytes]
  omega

theorem length_tableBytes (cb : Codebook) :
    (tableBytes cb).length = (allSymbols.map fun s => if (cb.get s).valid then 2 + ceil8 (cb.get s).len.toNat else 0).sum := by
  unfold tableBytes
  rw [List.length_flatMap]
  congr 1
  apply List.map_congr_left
  intro s _
  split <;> simp

theorem length_headerBytes (cb : Codebook) (payload : Nat) :
    (headerBytes cb payload).length = 2 + (tableBytes cb).length + 8 := by
  simp [headerBytes]
  omega

theorem containerSize_eq (cb : Codebook) (payload : Nat) :
    containerSize cb payload = (headerBytes cb payload).length + ceil8 payload := by
  rw [length_headerBytes, length_tableBytes, containerSize]

/-! ### What ENC_RUN makes of its input -/

/-- The codebook of a list of codes. -/
def bookOf (rs : List (Byte × Code)) : Codebook := rs.foldl Codebook.record emptyCodebook

/-- A list of codes that a tree gives: no symbol twice, codes of 1 to 255 bits, none a prefix of another. -/
structure GoodCodes (rs : List (Byte × Code)) : Prop where
  nodup  : (rs.map Prod.fst).Nodup
  length : ∀ r ∈ rs, 1 ≤ r.2.length ∧ r.2.length ≤ 255
  free   : ∀ r ∈ rs, ∀ r' ∈ rs, r.2 <+: r'.2 → r = r'

theorem goodCodes_nil : GoodCodes [] := ⟨List.nodup_nil, by simp, by simp⟩

theorem mem_counted_countsOf {bytes : List Byte} (h : bytes.length < 2 ^ 64) (x : Byte) :
    x ∈ counted (countsOf bytes) ↔ x ∈ bytes := by
  have hc : bytes.count x < 2 ^ 64 := Nat.lt_of_le_of_lt List.count_le_length h
  rw [mem_counted, get_countsOf, ← List.count_pos_iff, Ne, ← BitVec.toNat_inj]
  rw [BitVec.toNat_ofNat, Nat.mod_eq_of_lt hc]
  change ¬ _ = 0 ↔ _
  omega

/-- The codes of TREE_BUILD's tree, when the weights fit (43_tree_builder.md R163, 44_codebook.md R182, R185). -/
theorem exists_goodCodes (s : State) (ht : s.freq.total ≤ maxCount) :
    ∃ rs, generateCodebook (plantForest s (Forest.build s.freq)) = some (bookOf rs) ∧ GoodCodes rs ∧
      (rs.map Prod.fst).Perm (counted s.freq) := by
  by_cases h0 : (counted s.freq).length = 0
  · refine ⟨[], ?_, goodCodes_nil, ?_⟩
    · rw [Forest.build_empty h0]
      rfl
    · rw [List.length_eq_zero_iff.1 h0]
      exact List.Perm.refl _
  · obtain ⟨e, t, hg, hp, -, -⟩ := Forest.build_spec (Nat.pos_of_ne_zero h0) ht
    have hh := hg.holds _ (List.mem_singleton_self _)
    have hl : t.leaves.Perm (counted s.freq) := by simpa using hg.leaves
    have hc := codesOf_holds hh (by rw [hl.length_eq]; exact length_counted_le _)
    have hf : t.assigned.map Prod.fst = t.leaves := by
      cases t with
      | leaf x => rfl
      | node l r => exact CodeTree.codes_fst _ _
    refine ⟨t.assigned, ?_, ⟨?_, codesOf_length hc, ?_⟩, by rw [hf]; exact hl⟩
    · unfold plantForest
      rw [hp]
      simp only [generateCodebook, if_true]
      rw [hc]
      rfl
    · rw [hf]
      exact hl.nodup_iff.2 (nodup_counted _)
    · rintro ⟨x, c⟩ hr ⟨y, d⟩ hr' hpre
      rcases codesOf_spec hc with ⟨z, w, -, hz⟩ | ⟨w, l, r, -, hm⟩
      · rw [hz] at hr hr'
        rw [List.mem_singleton.1 hr, List.mem_singleton.1 hr']
      · obtain ⟨-, -, w1, h1⟩ := (hm _ _).1 hr
        obtain ⟨-, -, w2, h2⟩ := (hm _ _).1 hr'
        obtain ⟨e1, e2⟩ := leaf_paths_prefix_free h1 h2 hpre
        rw [show c = d from e1, e2]

theorem srcBytes_length_lt (s : State) : s.srcBytes.length < 2 ^ 64 := by
  rw [length_srcBytes]
  exact Nat.lt_trans s.srcLen.isLt (by decide)

/-- Steps 1 and 2 of ENC_RUN (R245): the codes cover the bytes of the input. -/
theorem execEncRun_regionsOk {s : State} (h : RegionsOk s) :
    ∃ rs, GoodCodes rs ∧ (rs.map Prod.fst).Perm (counted (countsOf s.srcBytes)) ∧
      generateCodebook s.countAndPlant = some (bookOf rs) ∧
      (∀ x, ((bookOf rs).get x).valid = true ↔ x ∈ s.srcBytes) ∧
      execEncRun s = encodeWithCodebook { s.countAndPlant with codebook := bookOf rs } s.srcBytes := by
  rw [regionsOk_iff] at h
  have ht : (countsOf s.srcBytes).total ≤ maxCount := by
    rw [total_countsOf_srcBytes]
    have := s.srcLen.isLt
    unfold maxCount
    omega
  obtain ⟨rs, h1, h2, h3⟩ := exists_goodCodes { s with freq := countsOf s.srcBytes } ht
  have hg : generateCodebook s.countAndPlant = some (bookOf rs) := h1
  refine ⟨rs, h2, h3, hg, fun x => ?_, ?_⟩
  · rw [bookOf, valid_records, h3.mem_iff]
    exact mem_counted_countsOf (srcBytes_length_lt s) x
  · unfold execEncRun
    rw [if_neg (by simp [h.1]), if_neg (by simp [h.2]), if_neg (by simpa [FreqTable.overflows] using ht), hg]

@[simp] theorem plantForest_freq (s : State) (f : Forest) : (plantForest s f).freq = s.freq := by
  unfold plantForest
  split <;> rfl

@[simp] theorem countAndPlant_freq (s : State) : s.countAndPlant.freq = countsOf s.srcBytes := by
  simp [State.countAndPlant]

/-- Steps 3 to 5 of ENC_RUN when every byte has a code (R245). -/
theorem encodeWithCodebook_eq {u : State} {bytes : List Byte} (hv : ∀ b ∈ bytes, (u.codebook.get b).valid = true) :
    encodeWithCodebook u bytes =
      if u.dstCap.toNat < containerSize u.codebook (payloadLength u.freq u.codebook) then
        .next ({ u with
          outLen := 0
          res0 := BitVec.ofNat 64 (containerSize u.codebook (payloadLength u.freq u.codebook)) }.complete .outputOverflow)
      else
        .next ((writeContainer u (payloadLength u.freq u.codebook)
          (containerSize u.codebook (payloadLength u.freq u.codebook)) (inputBits u.codebook bytes)).complete .ok) := by
  unfold encodeWithCodebook
  simp only [payloadBits_eq hv]

/-! ### The container in MEM -/

theorem writeContainer_wf {u : State} (hm : u.mem.wf = true) (payload size : Nat) (bits : List Bool) :
    (writeContainer u payload size bits).mem.wf = true :=
  packBits_wf (Memory.wf_writeBytes hm _ _) _ _ _

theorem writeContainer_read_outside (u : State) (payload size : Nat) (bits : List Bool) {a : Nat}
    (h : ¬ (u.dstAddr.toNat ≤ a ∧ a < u.dstAddr.toNat + ((headerBytes u.codebook payload).length + ceil8 bits.length))) :
    (writeContainer u payload size bits).mem.read a = u.mem.read a := by
  simp only [writeContainer]
  rw [packBits_read_outside, Memory.read_writeBytes_outside]
  · unfold ceil8 at h; omega
  · intro k h1 h2
    unfold ceil8 at h
    omega

theorem writeContainer_read_header {u : State} (hm : u.mem.wf = true) (payload size : Nat) (bits : List Bool) {k : Nat}
    (h : k < (headerBytes u.codebook payload).length) :
    (writeContainer u payload size bits).mem.read (u.dstAddr.toNat + k) = (headerBytes u.codebook payload)[k] := by
  simp only [writeContainer]
  rw [packBits_read_outside, Memory.read_writeBytes_inside hm _ _ h]
  intro j h1 h2
  omega

theorem writeContainer_bitAt {u : State} (hm : u.mem.wf = true) (payload size : Nat) (bits : List Bool) {k : Nat}
    (h : k < 8 * ceil8 bits.length) :
    (writeContainer u payload size bits).mem.bitAt (u.dstAddr.toNat + (headerBytes u.codebook payload).length) k =
      bits.getD k false := by
  simp only [writeContainer]
  rw [bitAt_packBits (Memory.wf_writeBytes hm _ _), if_pos h]

theorem writeContainer_mem {u : State} {payload size : Nat} {bits : List Bool} {c : Host.Cell}
    (h : c ∈ (writeContainer u payload size bits).mem) :
    (u.dstAddr.toNat ≤ c.1 ∧ c.1 < u.dstAddr.toNat + ((headerBytes u.codebook payload).length + ceil8 bits.length)) ∨
      c ∈ u.mem := by
  rcases packBits_mem h with ⟨k, h1, h2, h3⟩ | h
  · left; unfold ceil8; omega
  · rcases Memory.mem_writeBytes h with h | h
    · left; omega
    · exact .inr h

/-! ### ENC_RUN as a whole -/

/-- What planting a tree leaves alone. -/
theorem plantForest_frame (s : State) (f : Forest) :
    plantForest s f = { s with
      nodes := (plantForest s f).nodes, root := (plantForest s f).root, rootValid := (plantForest s f).rootValid,
      queue := (plantForest s f).queue, pqSeq := (plantForest s f).pqSeq, codebook := emptyCodebook } := by
  unfold plantForest
  split <;> rfl

theorem countAndPlant_frame (s : State) :
    s.countAndPlant = { s with
      freq := countsOf s.srcBytes, nodes := s.countAndPlant.nodes, root := s.countAndPlant.root,
      rootValid := s.countAndPlant.rootValid, queue := s.countAndPlant.queue, pqSeq := s.countAndPlant.pqSeq,
      codebook := emptyCodebook } :=
  plantForest_frame _ _

theorem countAndPlant_same (s : State) :
    s.countAndPlant.dstCap = s.dstCap ∧ s.countAndPlant.dstAddr = s.dstAddr ∧ s.countAndPlant.mem = s.mem ∧
      s.countAndPlant.cfg = s.cfg := by
  rw [countAndPlant_frame]
  exact ⟨rfl, rfl, rfl, rfl⟩

/-- ENC_RUN with its regions in order (R245): the codes of the input's bytes, P bits of payload, `size` bytes of container. -/
theorem execEncRun_cases {s : State} (h : RegionsOk s) :
    ∃ rs P size, GoodCodes rs ∧ (rs.map Prod.fst).Perm (counted (countsOf s.srcBytes)) ∧
      generateCodebook s.countAndPlant = some (bookOf rs) ∧
      (∀ x, ((bookOf rs).get x).valid = true ↔ x ∈ s.srcBytes) ∧
      P = (inputBits (bookOf rs) s.srcBytes).length ∧ P < 2 ^ 40 ∧
      size = (headerBytes (bookOf rs) P).length + ceil8 P ∧ size = containerSize (bookOf rs) P ∧
      execEncRun s = if s.dstCap.toNat < size then
        .next ({ s.countAndPlant with
          codebook := bookOf rs, outLen := 0, res0 := BitVec.ofNat 64 size }.complete .outputOverflow)
      else
        .next ((writeContainer { s.countAndPlant with codebook := bookOf rs } P size
          (inputBits (bookOf rs) s.srcBytes)).complete .ok) := by
  obtain ⟨rs, h1, h2, h3, h4, h5⟩ := execEncRun_regionsOk h
  have hP : payloadLength (countsOf s.srcBytes) (bookOf rs) = (inputBits (bookOf rs) s.srcBytes).length :=
    payloadLength_eq fun c => by rw [toNat_get_countsOf_srcBytes, count_srcBytes]
  refine ⟨rs, _, _, h1, h2, h3, h4, rfl, ?_, rfl, (containerSize_eq _ _).symm, ?_⟩
  · have := length_inputBits_le (bookOf rs) s.srcBytes
    rw [length_srcBytes] at this
    have := s.srcLen.isLt
    omega
  · rw [h5, encodeWithCodebook_eq fun b hb => (h4 b).2 hb]
    simp only [countAndPlant_freq, (countAndPlant_same s).1, hP, containerSize_eq]

/-- An ENC_RUN that completes OK had its regions in order. -/
theorem regionsOk_of_execEncRun {s t : State} (h : execEncRun s = .next t) (ho : t.err = .ok) : RegionsOk s := by
  rw [regionsOk_iff]
  unfold execEncRun at h
  split at h
  · cases h; cases ho
  · next h1 =>
    split at h
    · cases h; cases ho
    · next h2 => exact ⟨by simpa using h1, by simpa using h2⟩

end Sys2Proof.Machine
end

