-- ==== Sys2Proof/Laws/Encoding.lean ====
section
/-! SUPPORT. The fields of an encoded command, and the word its fields make (30_encoding.md R80, R82). -/

namespace Sys2Proof

theorem cmdOpc_append (o a : Byte) (n : BitVec 16) : cmdOpc ((o ++ a) ++ n) = o := by
  unfold cmdOpc
  ext i hi
  simp only [BitVec.getElem_extractLsb', BitVec.getLsbD_append]
  rw [if_neg (by omega), if_neg (by omega), show 24 + i - 16 - 8 = i by omega, BitVec.getLsbD_eq_getElem hi]

theorem cmdA_append (o a : Byte) (n : BitVec 16) : cmdA ((o ++ a) ++ n) = a := by
  unfold cmdA
  ext i hi
  simp only [BitVec.getElem_extractLsb', BitVec.getLsbD_append]
  rw [if_neg (by omega), if_pos (by omega), show 16 + i - 16 = i by omega, BitVec.getLsbD_eq_getElem hi]

theorem cmdN_append (o a : Byte) (n : BitVec 16) : cmdN ((o ++ a) ++ n) = n := by
  unfold cmdN
  ext i hi
  simp only [BitVec.getElem_extractLsb', BitVec.getLsbD_append]
  rw [if_pos (by omega), show 0 + i = i by omega, BitVec.getLsbD_eq_getElem hi]

theorem append_fields (w : Word) : (cmdOpc w ++ cmdA w) ++ cmdN w = w := by
  unfold cmdOpc cmdA cmdN
  apply BitVec.eq_of_getLsbD_eq
  intro i hi
  simp only [BitVec.getLsbD_append, BitVec.getLsbD_extractLsb']
  by_cases h1 : i < 16
  · simp [h1]
  · by_cases h2 : i - 16 < 8
    · simp [h1, h2, show 16 + (i - 16) = i by omega]
    · simp [h1, h2, show 24 + (i - 16 - 8) = i by omega]; omega

@[simp] theorem cmdOpc_encode (i : Instr) : cmdOpc (encode i) = i.opcode := cmdOpc_append _ _ _

@[simp] theorem cmdA_encode (i : Instr) : cmdA (encode i) = i.fieldA := cmdA_append _ _ _

@[simp] theorem cmdN_encode (i : Instr) : cmdN (encode i) = i.fieldN := cmdN_append _ _ _

/-- What a selected row says about the fields it was selected from. -/
theorem selectRow_spec {o a : Byte} {n : BitVec 16} {i : Instr} (h : selectRow o a n = some i) :
    i.opcode = o ∧ (i.usesA = true → i.fieldA = a) ∧ (i.usesA = false → i.fieldA = 0) ∧
      (i.usesN = true → i.fieldN = n) ∧ (i.usesN = false → i.fieldN = 0) := by
  unfold selectRow at h
  split at h <;> cases h <;> simp [Instr.opcode, Instr.usesA, Instr.usesN, Instr.fieldA, Instr.fieldN]

/-- What a decoded command says about its word: its row was selected and the field check passed (R85). -/
theorem decode_ok {w : Word} {i : Instr} (h : decode w = .ok i) :
    selectRow (cmdOpc w) (cmdA w) (cmdN w) = some i ∧ fieldCheck i (cmdA w) (cmdN w) = true := by
  unfold decode at h
  split at h
  · cases h
  · next j hj =>
    split at h
    · next hf => cases h; exact ⟨hj, hf⟩
    · cases h

theorem append_toNat {m n : Nat} (x : BitVec m) (y : BitVec n) : (x ++ y).toNat = x.toNat * 2 ^ n + y.toNat := by
  rw [BitVec.toNat_append, ← Nat.shiftLeft_add_eq_or_of_lt y.isLt, Nat.shiftLeft_eq]

/-- The number of an assembled word: OPC, A and N at their places (R80). -/
theorem encode_toNat (i : Instr) :
    (encode i).toNat = i.opcode.toNat * 2 ^ 24 + i.fieldA.toNat * 2 ^ 16 + i.fieldN.toNat := by
  rw [encode, append_toNat, append_toNat]
  omega

namespace Machine

/-! ### Words as numbers (Safety.lean) -/

theorem cmdOpc_toNat (w : Word) : (cmdOpc w).toNat = wordOpc w := by
  simp only [cmdOpc, BitVec.extractLsb'_toNat, wordOpc, Nat.shiftRight_eq_div_pow]
  have := w.isLt
  omega

theorem cmdA_toNat (w : Word) : (cmdA w).toNat = wordA w := by
  simp [cmdA, BitVec.extractLsb'_toNat, wordA, Nat.shiftRight_eq_div_pow]

theorem cmdN_toNat (w : Word) : (cmdN w).toNat = wordN w := by
  simp [cmdN, BitVec.extractLsb'_toNat, wordN]

/-- No row is selected exactly for an opcode outside the opcode map (R82, R83). -/
theorem selectRow_eq_none (o a : Byte) (n : BitVec 16) : selectRow o a n = none ↔ o.toNat ∉ definedOpcodes := by
  have key : ∀ k : Nat, k < 256 → (o.toNat = k ↔ o = BitVec.ofNat 8 k) := by
    intro k hk
    constructor
    · intro h
      apply BitVec.eq_of_toNat_eq
      simp [h, Nat.mod_eq_of_lt hk]
    · intro h
      subst h
      simpa using hk
  have h : (selectRow o a n).isNone = !(definedOpcodes.contains o.toNat) := by
    unfold selectRow
    split <;> first | rfl | skip
    simp only [Option.isNone_none, definedOpcodes, List.contains_eq_mem, List.mem_cons, List.not_mem_nil, or_false]
    simp [key]
    simp_all
  rw [← Option.isNone_iff_eq_none, h]
  simp

/-- The field check of a selected row is R84's four conditions on the word. -/
theorem fieldCheck_iff {w : Word} {i : Instr} (h : selectRow (cmdOpc w) (cmdA w) (cmdN w) = some i) :
    fieldCheck i (cmdA w) (cmdN w) = true ↔ legalFields w := by
  have e1 : cmdA w = 0#8 ↔ wordA w = 0 := by
    rw [← cmdA_toNat]
    exact ⟨fun h => by simp [h], fun h => BitVec.eq_of_toNat_eq h⟩
  have e2 : cmdN w = 0#16 ↔ wordN w = 0 := by
    rw [← cmdN_toNat]
    exact ⟨fun h => by simp [h], fun h => BitVec.eq_of_toNat_eq h⟩
  have e3 := cmdA_toNat w
  have e4 := cmdN_toNat w
  unfold legalFields
  rw [← cmdOpc_toNat]
  unfold selectRow at h
  split at h <;> cases h <;>
    simp [fieldCheck, Instr.usesA, Instr.usesN, Instr.wellFormed, opcodesWithA, opcodesWithN, *]

end Machine

end Sys2Proof
end

