-- ==== Sys2Proof/Laws/Trie.lean ====
section
/-! SUPPORT. The trie of DEC_RUN (48_decoder.md R265, R266): which paths a trie has, what adding a child does to them, and
when an insertion succeeds: exactly when no code of the trie is a prefix of the new one or the other way round. -/

namespace Sys2Proof.Machine

/-! ### Paths as indices -/

@[simp] theorem pathIndex_nil (nodes : List Node) (i : Nat) : pathIndex nodes i [] = some i := rfl

theorem pathIndex_append (nodes : List Node) (i : Nat) (c d : Code) :
    pathIndex nodes i (c ++ d) = (pathIndex nodes i c).bind fun j => pathIndex nodes j d := by
  induction c generalizing i with
  | nil => rfl
  | cons b c ih =>
    rw [List.cons_append, pathIndex, pathIndex]
    cases childOf nodes i b with
    | none => rfl
    | some j => exact ih _

theorem pathIndex_snoc (nodes : List Node) (i : Nat) (c : Code) (b : Bool) :
    pathIndex nodes i (c ++ [b]) = (pathIndex nodes i c).bind fun j => (childOf nodes j b).map BitVec.toNat := by
  rw [pathIndex_append]
  congr 1
  funext j
  rw [pathIndex]
  cases childOf nodes j b <;> rfl

theorem followPath_eq (nodes : List Node) (i : Nat) (c : Code) :
    followPath nodes i c = (pathIndex nodes i c).bind fun j => nodes[j]? := by
  induction c generalizing i with
  | nil => rfl
  | cons b c ih =>
    rw [followPath_cons, pathIndex]
    cases childOf nodes i b with
    | none => rfl
    | some j => exact ih _

/-! ### Tries -/

/-- A trie with root 0 that holds `entries`, with the records of the path `open` besides: links go forward to allocated
records, every record is reached once, the leaves are the entries, and the Internal records are on the way to one or on
the open path, and every weight is 0. -/
structure TrieOk (nodes : List Node) (entries : List (Byte × Code)) (path : Code) : Prop where
  size     : 0 < nodes.length
  weights  : ∀ n ∈ nodes, n.weight = 0
  reached  : ∀ k, k < nodes.length → ∃ c, pathIndex nodes 0 c = some k
  forward  : ∀ i b j, childOf nodes i b = some j → i < j.toNat ∧ j.toNat < nodes.length
  once     : ∀ c d k, pathIndex nodes 0 c = some k → pathIndex nodes 0 d = some k → c = d
  leaf     : ∀ x c, (∃ w, followPath nodes 0 c = some (.leaf x w)) ↔ (x, c) ∈ entries
  internal : ∀ c, (∃ w l r, followPath nodes 0 c = some (.internal w l r)) ↔
    c <+: path ∨ ∃ e ∈ entries, c <+: e.2 ∧ c ≠ e.2

theorem trieOk_fresh : TrieOk freshTrie [] [] where
  size := by decide
  weights := by simp [freshTrie, Node.weight]
  reached := by
    intro k hk
    obtain rfl : k = 0 := Nat.lt_one_iff.1 hk
    exact ⟨[], rfl⟩
  forward := by
    intro i b j h
    cases i with
    | zero => cases b <;> cases h
    | succ i => cases h
  once := by
    intro c d k hc hd
    cases c with
    | nil =>
      cases d with
      | nil => rfl
      | cons b d => cases b <;> cases hd
    | cons b c => cases b <;> cases hc
  leaf := by
    intro x c
    cases c with
    | nil => simp [freshTrie]
    | cons b c => cases b <;> simp [followPath_cons, freshTrie, childOf, Node.child]
  internal := by
    intro c
    cases c with
    | nil => simp [freshTrie]
    | cons b c => cases b <;> simp [followPath_cons, freshTrie, childOf, Node.child]

/-- Every path of a trie ends at a record of it. -/
theorem TrieOk.lt {nodes : List Node} {entries : List (Byte × Code)} {path c : Code} {k : Nat}
    (h : TrieOk nodes entries path) (hk : pathIndex nodes 0 c = some k) : k < nodes.length := by
  induction c using List.reverseRecOn generalizing k with
  | nil => cases hk; exact h.size
  | append_singleton c b ih =>
    rw [pathIndex_snoc] at hk
    cases hc : pathIndex nodes 0 c with
    | none => rw [hc] at hk; cases hk
    | some i =>
      rw [hc, Option.bind_some] at hk
      cases hj : childOf nodes i b with
      | none => rw [hj] at hk; cases hk
      | some j =>
        rw [hj] at hk
        cases hk
        exact (h.forward i b j hj).2

/-- A path of a trie is a code of it, or on the way to one. -/
theorem TrieOk.path_cases {nodes : List Node} {entries : List (Byte × Code)} {path c : Code} {k : Nat}
    (h : TrieOk nodes entries path) (hk : pathIndex nodes 0 c = some k) :
    (∃ x, (x, c) ∈ entries) ∨ c <+: path ∨ ∃ e ∈ entries, c <+: e.2 ∧ c ≠ e.2 := by
  have hf : followPath nodes 0 c = nodes[k]? := by rw [followPath_eq, hk, Option.bind_some]
  rw [List.getElem?_eq_getElem (h.lt hk)] at hf
  cases hn : nodes[k]'(h.lt hk) with
  | leaf x w => rw [hn] at hf; exact .inl ⟨x, (h.leaf x c).1 ⟨w, hf⟩⟩
  | internal w l r => rw [hn] at hf; exact .inr ((h.internal c).1 ⟨w, l, r, hf⟩)

theorem TrieOk.exists_index {nodes : List Node} {entries : List (Byte × Code)} {path c : Code}
    (h : TrieOk nodes entries path) (hc : c <+: path ∨ ∃ e ∈ entries, c <+: e.2) : ∃ k, pathIndex nodes 0 c = some k := by
  have key : ∀ n, followPath nodes 0 c = some n → ∃ k, pathIndex nodes 0 c = some k := by
    intro n hn
    rw [followPath_eq] at hn
    cases hk : pathIndex nodes 0 c with
    | none => rw [hk] at hn; cases hn
    | some k => exact ⟨k, rfl⟩
  rcases hc with hc | ⟨e, he, hc⟩
  · obtain ⟨w, l, r, hn⟩ := (h.internal c).2 (.inl hc)
    exact key _ hn
  · by_cases heq : c = e.2
    · obtain ⟨w, hn⟩ := (h.leaf e.1 c).2 (by rw [heq]; exact he)
      exact key _ hn
    · obtain ⟨w, l, r, hn⟩ := (h.internal c).2 (.inr ⟨e, he, hc, heq⟩)
      exact key _ hn

theorem OnTable.append {es es' : List (Byte × Code)} {c : Code} (h : OnTable es c) : OnTable (es ++ es') c := by
  rcases h with h | ⟨e, he, h⟩
  · exact .inl h
  · exact .inr ⟨e, List.mem_append_left _ he, h⟩

/-- The paths of a finished trie. -/
theorem TrieOk.onTable_iff {nodes : List Node} {entries : List (Byte × Code)} {c : Code} (h : TrieOk nodes entries []) :
    OnTable entries c ↔ ∃ k, pathIndex nodes 0 c = some k := by
  constructor
  · rintro (rfl | hc)
    · exact ⟨0, rfl⟩
    · exact h.exists_index (.inr hc)
  · rintro ⟨k, hk⟩
    rcases h.path_cases hk with ⟨x, hx⟩ | hc | ⟨e, he, hc, -⟩
    · exact .inr ⟨_, hx, List.prefix_refl _⟩
    · exact .inl (List.prefix_nil.1 hc)
    · exact .inr ⟨e, he, hc⟩

/-- Every link of a trie lies on a path from the root. -/
theorem TrieOk.path_of_child {nodes : List Node} {entries : List (Byte × Code)} {path : Code} {i : Nat} {b : Bool}
    {j : NodeIndex} (h : TrieOk nodes entries path) (hj : childOf nodes i b = some j) :
    ∃ c, pathIndex nodes 0 c = some i ∧ pathIndex nodes 0 (c ++ [b]) = some j.toNat := by
  obtain ⟨c, hc⟩ := h.reached i (by have := h.forward i b j hj; omega)
  refine ⟨c, hc, ?_⟩
  rw [pathIndex_snoc, hc, Option.bind_some, hj]
  rfl

/-- A trie's form (10_state.md R28(c), R28(f)). -/
theorem TrieOk.shape {nodes : List Node} {entries : List (Byte × Code)} {path : Code} (h : TrieOk nodes entries path) :
    singleOwnership nodes (some 0) ∧ trieShape nodes := by
  refine ⟨⟨fun i b i' b' j h1 h2 => ?_, fun k hk => ?_⟩, fun i b j hj => (h.forward i b j hj).1, h.weights⟩
  · obtain ⟨c, hc, hcb⟩ := h.path_of_child h1
    obtain ⟨d, hd, hdb⟩ := h.path_of_child h2
    have he := h.once _ _ _ hcb hdb
    have hcd := List.append_inj' he rfl
    rw [hcd.1, hd] at hc
    exact ⟨(Option.some.inj hc).symm, by simpa using hcd.2⟩
  · constructor
    · intro hne
      obtain ⟨c, hc⟩ := h.reached k hk
      induction c using List.reverseRecOn with
      | nil => exact absurd hc hne
      | append_singleton c b _ =>
        rw [pathIndex_snoc] at hc
        cases hi : pathIndex nodes 0 c with
        | none => rw [hi] at hc; cases hc
        | some i =>
          rw [hi, Option.bind_some] at hc
          cases hj : childOf nodes i b with
          | none => rw [hj] at hc; cases hc
          | some j =>
            rw [hj] at hc
            exact ⟨i, b, j, hj, Option.some.inj hc⟩
    · rintro ⟨i, b, j, hj, rfl⟩ e
      have := (h.forward i b j hj).1
      have := Option.some.inj e
      omega

/-! ### Adding a child -/

theorem childOf_addChild {nodes : List Node} {i : Nat} {b : Bool} {n : Node} (hi : i < nodes.length)
    {w : DWord} {l r : Option NodeIndex} (hint : nodes[i]? = some (.internal w l r))
    (hn : ∀ b', n.child b' = none) (j : Nat) (b' : Bool) :
    childOf (addChild nodes i b n) j b' =
      if j = i ∧ b' = b then some (BitVec.ofNat 16 nodes.length) else childOf nodes j b' := by
  unfold childOf addChild
  by_cases hj : j < nodes.length
  · rw [List.getElem?_append_left (by simpa using hj), List.getElem?_modify]
    by_cases hji : i = j
    · subst hji
      rw [hint]
      cases b <;> cases b' <;> simp [Node.setChild, Node.child]
    · rw [if_neg (fun h : j = i ∧ b' = b => hji h.1.symm)]
      cases nodes[j]? <;> simp [hji]
  · rw [if_neg (by omega), List.getElem?_eq_none (by omega : nodes.length ≤ j)]
    by_cases he : j = nodes.length
    · subst he
      rw [List.getElem?_append_right (by simp)]
      simp [hn]
    · rw [List.getElem?_eq_none (by simp; omega)]

/-- The paths after a child was added at the end of path p: as before, and p ++ [b]. -/
theorem pathIndex_addChild {nodes : List Node} {entries : List (Byte × Code)} {path p : Code} {i : Nat} {b : Bool}
    {n : Node} (h : TrieOk nodes entries path) (hl : nodes.length < 65536) (hp : pathIndex nodes 0 p = some i)
    {w : DWord} {l r : Option NodeIndex} (hint : nodes[i]? = some (.internal w l r))
    (hc : childOf nodes i b = none) (hn : ∀ b', n.child b' = none) (q : Code) :
    pathIndex (addChild nodes i b n) 0 q =
      if q = p ++ [b] then some nodes.length else pathIndex nodes 0 q := by
  have hi := h.lt hp
  induction q using List.reverseRecOn with
  | nil => simp
  | append_singleton q b' ih =>
    rw [pathIndex_snoc, ih, pathIndex_snoc]
    by_cases hq : q = p ++ [b]
    · subst hq
      have hne : p ++ [b] ++ [b'] ≠ p ++ [b] := fun e => by
        have := congrArg List.length e
        simp at this
      rw [if_pos rfl, if_neg hne, Option.bind_some, childOf_addChild hi hint hn, if_neg (by omega)]
      rw [pathIndex_snoc, hp, Option.bind_some, hc]
      unfold childOf
      rw [List.getElem?_eq_none (Nat.le_refl _)]
      rfl
    · rw [if_neg hq]
      cases hk : pathIndex nodes 0 q with
      | none =>
        have hne : q ≠ p := fun e => by rw [e, hp] at hk; cases hk
        rw [if_neg (fun e : q ++ [b'] = p ++ [b] => hne (List.append_inj_left' e rfl))]
        rfl
      | some k =>
        rw [Option.bind_some, Option.bind_some, childOf_addChild hi hint hn]
        by_cases hki : k = i
        · subst hki
          have hqp := h.once _ _ _ hk hp
          subst hqp
          by_cases hb : b' = b
          · subst hb
            rw [if_pos ⟨rfl, rfl⟩, if_pos rfl]
            simp
            omega
          · rw [if_neg (by simp [hb]), if_neg (by simp [hb])]
        · rw [if_neg (by simp [hki]), if_neg]
          intro e
          have hqp := List.append_inj_left' e rfl
          subst hqp
          rw [hp] at hk
          cases hk
          exact hki rfl

/-- The record a path leads to, without the children it may have got. -/
theorem getElem?_addChild {nodes : List Node} {i : Nat} {b : Bool} {n : Node} (hi : i < nodes.length) (j : Nat) :
    (addChild nodes i b n)[j]? =
      if j = nodes.length then some n
      else if j = i then (nodes[j]?).map fun p => p.setChild b (BitVec.ofNat 16 nodes.length) else nodes[j]? := by
  unfold addChild
  by_cases hj : j < nodes.length
  · rw [List.getElem?_append_left (by simpa using hj), List.getElem?_modify, if_neg (by omega)]
    by_cases hji : i = j
    · subst hji
      simp
    · rw [if_neg (fun e : j = i => hji e.symm)]
      cases nodes[j]? <;> simp [hji]
  · by_cases he : j = nodes.length
    · subst he
      rw [if_pos rfl, List.getElem?_append_right (by simp)]
      simp
    · rw [if_neg he, if_neg (by omega), List.getElem?_eq_none (by simp; omega), List.getElem?_eq_none (by omega)]

@[simp] theorem length_addChild (nodes : List Node) (i : Nat) (b : Bool) (n : Node) :
    (addChild nodes i b n).length = nodes.length + 1 := by
  simp [addChild]

theorem setChild_leaf {p : Node} {b : Bool} {j : NodeIndex} {x : Byte} {w : DWord} :
    p.setChild b j = .leaf x w ↔ p = .leaf x w := by
  cases p <;> cases b <;> simp [Node.setChild]

@[simp] theorem setChild_weight (p : Node) (b : Bool) (j : NodeIndex) : (p.setChild b j).weight = p.weight := by
  cases p <;> cases b <;> rfl

theorem setChild_internal {p : Node} {b : Bool} {j : NodeIndex} :
    (∃ w l r, p.setChild b j = .internal w l r) ↔ ∃ w l r, p = .internal w l r := by
  cases p <;> cases b <;> simp [Node.setChild]

/-- A trie with a child added at the end of a path. -/
theorem TrieOk.addChild {nodes : List Node} {entries entries' : List (Byte × Code)} {path path' p : Code} {i : Nat}
    {b : Bool} {n : Node} (h : TrieOk nodes entries path) (hl : nodes.length < 65536)
    (hp : pathIndex nodes 0 p = some i) {w : DWord} {l r : Option NodeIndex}
    (hint : nodes[i]? = some (.internal w l r)) (hc : childOf nodes i b = none) (hn : ∀ b', n.child b' = none)
    (hw : n.weight = 0)
    (hleaf : ∀ x c, (x, c) ∈ entries' ↔ (c = p ++ [b] ∧ ∃ v, n = .leaf x v) ∨ (x, c) ∈ entries)
    (hinternal : ∀ c, (c <+: path' ∨ ∃ e ∈ entries', c <+: e.2 ∧ c ≠ e.2) ↔
      (c = p ++ [b] ∧ ∃ v l r, n = .internal v l r) ∨ c <+: path ∨ ∃ e ∈ entries, c <+: e.2 ∧ c ≠ e.2) :
    TrieOk (Machine.addChild nodes i b n) entries' path' := by
  have hi := h.lt hp
  have hidx := pathIndex_addChild h hl hp hint hc hn
  have hnone : pathIndex nodes 0 (p ++ [b]) = none := by
    rw [pathIndex_snoc, hp, Option.bind_some, hc]
    rfl
  have hfol : ∀ c, followPath (Machine.addChild nodes i b n) 0 c =
      if c = p ++ [b] then some n
      else if c = p then (followPath nodes 0 c).map fun m => m.setChild b (BitVec.ofNat 16 nodes.length)
      else followPath nodes 0 c := by
    intro c
    rw [followPath_eq, hidx]
    by_cases h1 : c = p ++ [b]
    · rw [if_pos h1, if_pos h1, Option.bind_some, getElem?_addChild hi, if_pos rfl]
    · rw [if_neg h1, if_neg h1, followPath_eq]
      cases hk : pathIndex nodes 0 c with
      | none => by_cases h2 : c = p <;> simp [h2]
      | some k =>
        rw [Option.bind_some, Option.bind_some, getElem?_addChild hi, if_neg (Nat.ne_of_lt (h.lt hk))]
        by_cases h2 : c = p
        · subst h2
          rw [hp] at hk
          cases hk
          rw [if_pos rfl, if_pos rfl]
        · rw [if_neg h2, if_neg]
          intro e
          subst e
          exact h2 (h.once _ _ _ hk hp)
  constructor
  · simp
  · intro m hm
    rcases List.mem_append.1 hm with hm | hm
    · obtain ⟨j, hj, rfl⟩ := List.mem_iff_getElem.1 hm
      rw [List.getElem_modify]
      split
      · rw [setChild_weight]
        exact h.weights _ (List.getElem_mem _)
      · exact h.weights _ (List.getElem_mem _)
    · rw [List.mem_singleton.1 hm]
      exact hw
  · intro k hk
    rw [length_addChild] at hk
    by_cases he : k = nodes.length
    · exact ⟨p ++ [b], by rw [hidx, if_pos rfl, he]⟩
    · obtain ⟨c, hc⟩ := h.reached k (by omega)
      refine ⟨c, ?_⟩
      rw [hidx, if_neg (fun e => by rw [e, hnone] at hc; cases hc)]
      exact hc
  · intro j b' k hk
    rw [childOf_addChild hi hint hn] at hk
    rw [length_addChild]
    split at hk
    · next hj =>
      cases hk
      have : (BitVec.ofNat 16 nodes.length).toNat = nodes.length := by simp; omega
      rw [this]
      omega
    · have := h.forward j b' k hk
      omega
  · intro c d k h1 h2
    rw [hidx] at h1 h2
    by_cases e1 : c = p ++ [b] <;> by_cases e2 : d = p ++ [b]
    · rw [e1, e2]
    · rw [if_pos e1] at h1
      rw [if_neg e2] at h2
      cases h1
      have := h.lt h2
      omega
    · rw [if_neg e1] at h1
      rw [if_pos e2] at h2
      cases h2
      have := h.lt h1
      omega
    · rw [if_neg e1] at h1
      rw [if_neg e2] at h2
      exact h.once _ _ _ h1 h2
  · intro x c
    rw [hleaf, ← h.leaf, hfol]
    by_cases h1 : c = p ++ [b]
    · subst h1
      have : followPath nodes 0 (p ++ [b]) = none := by rw [followPath_eq, hnone]; rfl
      simp [this]
    · rw [if_neg h1]
      by_cases h2 : c = p
      · rw [if_pos h2]
        cases followPath nodes 0 c <;> simp [h1, setChild_leaf]
      · rw [if_neg h2]
        simp [h1]
  · intro c
    rw [hinternal, ← h.internal, hfol]
    by_cases h1 : c = p ++ [b]
    · subst h1
      have : followPath nodes 0 (p ++ [b]) = none := by rw [followPath_eq, hnone]; rfl
      simp [this]
    · rw [if_neg h1]
      by_cases h2 : c = p
      · rw [if_pos h2]
        cases followPath nodes 0 c <;> simp [h1, setChild_internal]
      · rw [if_neg h2]
        simp [h1]

/-! ### Inserting a code -/

/-- No code of the trie is a prefix of the new one, nor the other way round (30_encoding.md R102). -/
def Fits (entries : List (Byte × Code)) (c : Code) : Prop := ∀ e ∈ entries, ¬ e.2 <+: c ∧ ¬ c <+: e.2

theorem prefix_snoc {c p : Code} {b : Bool} : c <+: p ++ [b] ↔ c = p ++ [b] ∨ c <+: p := List.prefix_concat_iff

/-- A path of the trie and a code of it that is a prefix of the path: the path is the code. -/
theorem TrieOk.eq_of_code_prefix {nodes : List Node} {entries : List (Byte × Code)} {path p : Code} {k : Nat}
    (h : TrieOk nodes entries path) (hk : pathIndex nodes 0 p = some k) {e : Byte × Code} (he : e ∈ entries)
    (hp : e.2 <+: p) : p = e.2 := by
  obtain ⟨w, hf⟩ := (h.leaf e.1 e.2).2 he
  obtain ⟨d, rfl⟩ := hp
  by_cases hd : d = []
  · rw [hd, List.append_nil]
  · have hn := followPath_leaf_append hf hd
    rw [followPath_eq, hk, Option.bind_some, List.getElem?_eq_none_iff] at hn
    have := h.lt hk
    omega

/-- Records added to a trie: the old paths keep their index, and the new ones lead to new records. -/
def Extends (nodes nodes' : List Node) : Prop :=
  nodes.length ≤ nodes'.length ∧ (∀ q k, pathIndex nodes 0 q = some k → pathIndex nodes' 0 q = some k) ∧
  ∀ q k, pathIndex nodes' 0 q = some k → pathIndex nodes 0 q = some k ∨ nodes.length ≤ k

theorem Extends.trans {l m n : List Node} (h : Extends l m) (h' : Extends m n) : Extends l n := by
  refine ⟨Nat.le_trans h.1 h'.1, fun q k hk => h'.2.1 q k (h.2.1 q k hk), fun q k hk => ?_⟩
  rcases h'.2.2 q k hk with hk | hk
  · exact h.2.2 q k hk
  · exact .inr (Nat.le_trans h.1 hk)

theorem TrieOk.extends_addChild {nodes : List Node} {entries : List (Byte × Code)} {path p : Code} {i : Nat} {b : Bool}
    {n : Node} (h : TrieOk nodes entries path) (hl : nodes.length < 65536) (hp : pathIndex nodes 0 p = some i)
    {w : DWord} {l r : Option NodeIndex} (hint : nodes[i]? = some (.internal w l r)) (hc : childOf nodes i b = none)
    (hn : ∀ b', n.child b' = none) : Extends nodes (Machine.addChild nodes i b n) := by
  have hidx := pathIndex_addChild h hl hp hint hc hn
  refine ⟨by simp, fun q k hk => ?_, fun q k hk => ?_⟩
  · rw [hidx, if_neg]
    · exact hk
    · rintro rfl
      rw [pathIndex_snoc, hp, Option.bind_some, hc] at hk
      cases hk
  · rw [hidx] at hk
    split at hk
    · cases hk
      exact .inr (Nat.le_refl _)
    · exact .inl hk

/-- Insert (R266) from the record at the end of an open path: it succeeds exactly when the code fits, and then the trie
holds it too. -/
theorem trieInsert_spec (s : Byte) {c : Code} (hc : c ≠ []) {i : Nat} {nodes : List Node}
    {entries : List (Byte × Code)} {p : Code} (h : TrieOk nodes entries p) (hi : pathIndex nodes 0 p = some i)
    (hl : nodes.length + c.length ≤ 65536) :
    (Fits entries (p ++ c) → ∃ nodes', trieInsert s c i nodes = some nodes') ∧
    ∀ nodes', trieInsert s c i nodes = some nodes' →
      Fits entries (p ++ c) ∧ TrieOk nodes' ((s, p ++ c) :: entries) [] ∧ nodes'.length ≤ nodes.length + c.length ∧
        Extends nodes nodes' := by
  induction c generalizing i nodes p with
  | nil => exact absurd rfl hc
  | cons b c ih =>
    simp only [List.length_cons] at hl
    obtain ⟨w, l, r, hint⟩ : ∃ w l r, nodes[i]? = some (.internal w l r) := by
      obtain ⟨w, l, r, hf⟩ := (h.internal p).2 (.inl (List.prefix_refl p))
      rw [followPath_eq, hi, Option.bind_some] at hf
      exact ⟨w, l, r, hf⟩
    have hnc : ∀ e ∈ entries, ¬ e.2 <+: p := by
      intro e he hp
      obtain ⟨v, hf⟩ := (h.leaf e.1 e.2).2 he
      rw [← h.eq_of_code_prefix hi he hp, followPath_eq, hi, Option.bind_some, hint] at hf
      cases hf
    have hpb : pathIndex nodes 0 (p ++ [b]) = (childOf nodes i b).map BitVec.toNat := by
      rw [pathIndex_snoc, hi, Option.bind_some]
    cases hj : childOf nodes i b with
    | none =>
      rw [hj] at hpb
      -- nothing of the trie lies beyond p ++ [b]
      have hfree : ∀ e ∈ entries, ¬ p ++ [b] <+: e.2 := by
        intro e he hp
        obtain ⟨k, hk⟩ := h.exists_index (.inr ⟨e, he, hp⟩)
        rw [hpb] at hk
        cases hk
      have hfit : ∀ d, Fits entries (p ++ b :: d) := by
        intro d e he
        refine ⟨fun hp => ?_, fun hp => hfree e he (List.IsPrefix.trans ⟨d, by simp⟩ hp)⟩
        have hle : e.2 <+: p ++ [b] ∨ p ++ [b] <+: e.2 :=
          List.prefix_or_prefix_of_prefix hp ⟨d, by simp⟩
        rcases hle with h1 | h1
        · rcases prefix_snoc.1 h1 with h1 | h1
          · exact hfree e he (by rw [h1])
          · exact hnc e he h1
        · exact hfree e he h1
      cases c with
      | nil =>
        simp only [trieInsert, hj]
        refine ⟨fun _ => ⟨_, rfl⟩, fun nodes' e => ?_⟩
        cases e
        refine ⟨hfit [], ?_, by simp, h.extends_addChild (by omega) hi hint hj fun _ => rfl⟩
        refine h.addChild (by omega) hi hint hj (fun _ => rfl) rfl ?_ ?_
        · intro x d
          simp only [List.mem_cons, Prod.mk.injEq, Node.leaf.injEq]
          constructor
          · rintro (⟨rfl, rfl⟩ | h1)
            · exact .inl ⟨rfl, 0, rfl, rfl⟩
            · exact .inr h1
          · rintro (⟨rfl, v, rfl, -⟩ | h1)
            · exact .inl ⟨rfl, rfl⟩
            · exact .inr h1
        · intro d
          simp only [List.mem_cons, exists_eq_or_imp, List.prefix_nil, reduceCtorEq, exists_false, and_false, false_or,
            prefix_snoc]
          constructor
          · rintro (rfl | ⟨h1 | h1, h2⟩ | h1)
            · exact .inl List.nil_prefix
            · exact absurd h1 h2
            · exact .inl h1
            · exact .inr h1
          · rintro (h1 | h1)
            · refine .inr (.inl ⟨.inr h1, fun e => ?_⟩)
              have := h1.length_le
              rw [e] at this
              simp at this
            · exact .inr (.inr h1)
      | cons b' c =>
        simp only [trieInsert, hj]
        have h' : TrieOk (Machine.addChild nodes i b (.internal 0 none none)) entries (p ++ [b]) := by
          refine h.addChild (by omega) hi hint hj (by intro b'; cases b' <;> rfl) rfl ?_ ?_
          · intro x d
            simp
          · intro d
            simp only [prefix_snoc, Node.internal.injEq, exists_and_left, exists_eq', and_true, or_assoc]
        have hi' : pathIndex (Machine.addChild nodes i b (.internal 0 none none)) 0 (p ++ [b]) = some nodes.length := by
          rw [pathIndex_addChild h (by omega) hi hint hj (by intro b'; cases b' <;> rfl), if_pos rfl]
        have := ih (by simp) h' hi' (by rw [length_addChild]; omega)
        rw [List.append_assoc, List.singleton_append] at this
        refine ⟨this.1, fun nodes' e => ?_⟩
        obtain ⟨h1, h2, h3, h4⟩ := this.2 nodes' e
        rw [length_addChild] at h3
        simp only [List.length_cons] at h3 ⊢
        exact ⟨h1, h2, by omega,
          (h.extends_addChild (by omega) hi hint hj (by intro b'; cases b' <;> rfl)).trans h4⟩
    | some j =>
      rw [hj] at hpb
      have hjl := h.lt hpb
      have hbusy : (∃ x, (x, p ++ [b]) ∈ entries) ∨ ∃ e ∈ entries, p ++ [b] <+: e.2 ∧ p ++ [b] ≠ e.2 := by
        rcases h.path_cases hpb with h1 | h1 | h1
        · exact .inl h1
        · have := h1.length_le
          simp at this
        · exact .inr h1
      cases c with
      | nil =>
        simp only [trieInsert, hj]
        refine ⟨fun hf => ?_, fun nodes' e => by cases e⟩
        exfalso
        rcases hbusy with ⟨x, hx⟩ | ⟨e, he, hp, -⟩
        · exact (hf _ hx).1 (List.prefix_refl _)
        · exact (hf _ he).2 hp
      | cons b' c =>
        cases hn : nodes[j.toNat]? with
        | none =>
          rw [List.getElem?_eq_none_iff] at hn
          omega
        | some n =>
          cases n with
          | leaf x v =>
            simp only [trieInsert, hj, hn]
            refine ⟨fun hf => ?_, fun nodes' e => by cases e⟩
            exfalso
            have hx := (h.leaf x (p ++ [b])).1 ⟨v, by rw [followPath_eq, hpb]; exact hn⟩
            exact (hf _ hx).1 ⟨b' :: c, by simp⟩
          | internal v l' r' =>
            simp only [trieInsert, hj, hn]
            have h' : TrieOk nodes entries (p ++ [b]) := by
              refine ⟨h.size, h.weights, h.reached, h.forward, h.once, h.leaf, fun d => ?_⟩
              rw [h.internal, prefix_snoc]
              constructor
              · rintro (h1 | h1)
                · exact .inl (.inr h1)
                · exact .inr h1
              · rintro ((rfl | h1) | h1)
                · rcases (h.internal _).1 ⟨v, l', r', by rw [followPath_eq, hpb]; exact hn⟩ with h2 | h2
                  · exact .inl h2
                  · exact .inr h2
                · exact .inl h1
                · exact .inr h1
            have := ih (by simp) h' hpb (by omega)
            rw [List.append_assoc, List.singleton_append] at this
            refine ⟨this.1, fun nodes' e => ?_⟩
            obtain ⟨h1, h2, h3, h4⟩ := this.2 nodes' e
            simp only [List.length_cons] at h3 ⊢
            exact ⟨h1, h2, by omega, h4⟩

end Sys2Proof.Machine
end

