-- ==== Sys2Proof/Laws/Parse.lean ====
section
/-! SUPPORT. The decoder (48_decoder.md): what the parse of a table makes, when it succeeds, and what the walk of a payload
answers. -/

namespace Sys2Proof.Machine

/-! ### Numbers and lists -/

theorem Memory.readLE_lt (m : Memory) (a n : Nat) : m.readLE a n < 256 ^ n := by
  induction n generalizing a with
  | zero => exact Nat.one_pos
  | succ n ih =>
    have h1 := (m.read a).isLt
    have h2 := ih (a + 1)
    rw [Memory.readLE, pow_succ']
    omega

theorem bookOf_concat (es : List (Byte × Code)) (e : Byte × Code) : bookOf (es ++ [e]) = (bookOf es).record e := by
  simp [bookOf]

theorem tableLength_concat (es : List (Byte × Code)) (e : Byte × Code) :
    tableLength (es ++ [e]) = tableLength es + (2 + (e.2.length + 7) / 8) := by
  simp [tableLength]

theorem tableAt_concat (m : Memory) (a : Nat) (es : List (Byte × Code)) (e : Byte × Code) :
    TableAt m a (es ++ [e]) ↔ TableAt m a es ∧ m.read (a + tableLength es) = e.1 ∧
      (m.read (a + tableLength es + 1)).toNat = e.2.length ∧
      ∀ j (h : j < e.2.length), m.bitAt (a + tableLength es + 2) j = e.2[j] := by
  induction es generalizing a with
  | nil => simp [TableAt, tableLength]
  | cons d es ih =>
    have he : a + 2 + (d.2.length + 7) / 8 + tableLength es = a + tableLength (d :: es) := by
      simp only [tableLength, List.map_cons, List.sum_cons]
      omega
    rw [List.cons_append, TableAt, TableAt, ih, he]
    constructor
    · rintro ⟨h1, h2, h3, h4, h5⟩
      exact ⟨⟨h1, h2, h3, h4⟩, h5⟩
    · rintro ⟨⟨h1, h2, h3, h4⟩, h5⟩
      exact ⟨h1, h2, h3, h4, h5⟩

theorem TableAt.of_append {m : Memory} {es es' : List (Byte × Code)} {a : Nat} (h : TableAt m a (es ++ es')) :
    TableAt m a es := by
  induction es generalizing a with
  | nil => trivial
  | cons e es ih => exact ⟨h.1, h.2.1, h.2.2.1, ih h.2.2.2⟩

@[simp] theorem length_codeAt (m : Memory) (base len : Nat) : (codeAt m base len).length = len := by
  simp [codeAt]

theorem codeAt_eq {m : Memory} {base : Nat} {d : Code} (h : ∀ j (hj : j < d.length), m.bitAt base j = d[j]) :
    codeAt m base d.length = d := by
  apply List.ext_getElem
  · simp
  · intro j h1 h2
    simp only [codeAt, List.getElem_map, List.getElem_range]
    exact h j h2

theorem TrieOk.congr {nodes : List Node} {es es' : List (Byte × Code)} {path : Code} (h : TrieOk nodes es path)
    (he : ∀ e, e ∈ es ↔ e ∈ es') : TrieOk nodes es' path := by
  refine ⟨h.size, h.weights, h.reached, h.forward, h.once, fun x c => (h.leaf x c).trans (he _), fun c => (h.internal c).trans ?_⟩
  simp only [he]

/-- The bytes of an entry made from a code say the entry's code bits (30_encoding.md R97, R101). -/
theorem getLsbD_codeBytes {d : Code} (hd : d.length ≤ 255) {j : Nat} (hj : j < d.length) :
    ((CbEntry.ofCode d).codeBytes[j / 8]'(by
      simp only [CbEntry.codeBytes, List.length_map, List.length_range, CbEntry.ofCode_len hd, ceil8]; omega)).getLsbD
      (j % 8) = d[j] := by
  have hc := CbEntry.code_ofCode hd
  have h8 : j % 8 < 8 := Nat.mod_lt _ (by decide)
  simp only [CbEntry.codeBytes, List.getElem_map, List.getElem_range, BitVec.getLsbD_extractLsb', h8, decide_true,
    Bool.true_and]
  rw [show 8 * (j / 8) + j % 8 = j by omega]
  conv_rhs => rw [← List.getElem_of_eq hc (by rw [hc]; exact hj)]
  simp [CbEntry.code]

/-- A table's bytes in MEM are its entries. -/
theorem tableAt_of_bytes {m : Memory} {es : List (Byte × Code)} {a : Nat} (hl : ∀ e ∈ es, e.2.length ≤ 255)
    (h : ∀ k (hk : k < (es.flatMap fun e => entryBytes e.1 (CbEntry.ofCode e.2)).length),
      m.read (a + k) = (es.flatMap fun e => entryBytes e.1 (CbEntry.ofCode e.2))[k]) : TableAt m a es := by
  induction es generalizing a with
  | nil => trivial
  | cons e es ih =>
    have he := hl e List.mem_cons_self
    have hlen : (entryBytes e.1 (CbEntry.ofCode e.2)).length = 2 + (e.2.length + 7) / 8 := by
      rw [length_entryBytes, CbEntry.ofCode_len he]
    have h1 : ∀ k (hk : k < (entryBytes e.1 (CbEntry.ofCode e.2)).length),
        m.read (a + k) = (entryBytes e.1 (CbEntry.ofCode e.2))[k] := by
      intro k hk
      rw [h k (by simp only [List.flatMap_cons, List.length_append]; omega)]
      simp only [List.flatMap_cons]
      rw [List.getElem_append_left hk]
    refine ⟨?_, ?_, ?_, ?_⟩
    · exact h1 0 (by omega)
    · rw [h1 1 (by omega)]
      exact CbEntry.ofCode_len he
    · intro j hj
      rw [← getLsbD_codeBytes he hj]
      unfold Memory.bitAt
      rw [Nat.add_assoc, h1 (2 + j / 8) (by omega)]
      congr 1
      simp only [entryBytes, Nat.add_comm 2 (j / 8), List.getElem_cons_succ]
    · refine ih (fun d hd => hl d (List.mem_cons_of_mem _ hd)) fun k hk => ?_
      have := h (2 + (e.2.length + 7) / 8 + k) (by
        simp only [List.flatMap_cons, List.length_append]
        omega)
      rw [show a + 2 + (e.2.length + 7) / 8 + k = a + (2 + (e.2.length + 7) / 8 + k) by omega, this]
      simp only [List.flatMap_cons]
      rw [List.getElem_append_right (by omega)]
      exact getElem_congr_idx (by omega)

theorem length_flatMap_entryBytes {es : List (Byte × Code)} (hl : ∀ e ∈ es, e.2.length ≤ 255) :
    (es.flatMap fun e => entryBytes e.1 (CbEntry.ofCode e.2)).length = tableLength es := by
  rw [List.length_flatMap, tableLength]
  congr 1
  apply List.map_congr_left
  intro e he
  rw [length_entryBytes, CbEntry.ofCode_len (hl e he)]

theorem Memory.readLE_congr {m m' : Memory} {a n : Nat} (h : ∀ k < n, m.read (a + k) = m'.read (a + k)) :
    m.readLE a n = m'.readLE a n := by
  induction n generalizing a with
  | zero => rfl
  | succ n ih =>
    rw [Memory.readLE, Memory.readLE, show m.read a = m'.read a from h 0 (by omega), ih fun k hk => by
      rw [Nat.add_assoc, Nat.add_comm 1 k]
      exact h (k + 1) (by omega)]

/-! ### The table -/

/-- What the parse has made when `done` are the entries read so far: the table up to the offset, the trie and the
codebook of those entries (R262, R265, R266, R268). -/
structure Parsed (m : Memory) (src len : Nat) (t : TableParse) (done : List (Byte × Code)) : Prop where
  trie   : TrieOk t.nodes done []
  book   : t.codebook = bookOf done
  lens   : ∀ e ∈ done, 1 ≤ e.2.length ∧ e.2.length ≤ 255
  nodup  : (done.map Prod.fst).Nodup
  free   : done.Pairwise fun d e => ¬ d.2 <+: e.2 ∧ ¬ e.2 <+: d.2
  size   : t.nodes.length ≤ 1 + 255 * done.length
  offset : t.offset = 2 + tableLength done
  table  : TableAt m (src + 2) done
  inside : t.offset ≤ len
  order  : ∀ before after c d i j, done = before ++ after → pathIndex t.nodes 0 c = some i →
    pathIndex t.nodes 0 d = some j → OnTable before c → ¬ OnTable before d → i < j

theorem parsed_nil {m : Memory} {src len : Nat} (h : 2 ≤ len) :
    Parsed m src len { offset := 2, nodes := freshTrie, codebook := emptyCodebook } [] where
  trie := trieOk_fresh
  book := rfl
  lens := by simp
  nodup := List.nodup_nil
  free := List.Pairwise.nil
  size := by simp [freshTrie]
  offset := rfl
  table := trivial
  inside := h
  order := by
    intro before after c d i j _ _ hd _ hn
    cases d with
    | nil => exact absurd (.inl rfl) hn
    | cons b d => cases b <;> cases hd

/-- One entry read (R262): the checks hold of it, and the parse holds it too. -/
theorem Parsed.of_parseEntry {m : Memory} {src len : Nat} {t t' : TableParse} {done : List (Byte × Code)}
    (h : Parsed m src len t done) (hd : done.length < 256) (he : parseEntry m src len t = some t') :
    ∃ e, Parsed m src len t' (done ++ [e]) := by
  unfold parseEntry at he
  split at he
  · cases he
  next h1 =>
  simp only at he
  split at he
  · cases he
  next h2 =>
  split at he
  · cases he
  next h3 =>
  split at he
  · cases he
  next h4 =>
  split at he
  · cases he
  next nodes hn =>
  cases he
  have hlt := (m.read (src + t.offset + 1)).isLt
  have hsz := h.size
  generalize hl : (m.read (src + t.offset + 1)).toNat = l at *
  have hlen : (codeAt m (src + t.offset + 2) l).length = l := length_codeAt _ _ _
  have hne : codeAt m (src + t.offset + 2) l ≠ [] := by
    intro e
    rw [e] at hlen
    exact h2 hlen.symm
  obtain ⟨hf, ht, hs, hx⟩ := (trieInsert_spec (m.read (src + t.offset)) hne h.trie (pathIndex_nil _ _)
    (by rw [hlen]; omega)).2 nodes hn
  rw [List.nil_append] at hf ht
  rw [hlen] at hs
  have trie := ht.congr (es' := done ++ [(m.read (src + t.offset), codeAt m (src + t.offset + 2) l)])
    fun e => by simp [or_comm]
  refine ⟨(m.read (src + t.offset), codeAt m (src + t.offset + 2) l), ?_, ?_, ?_, ?_, ?_, ?_, ?_, ?_, ?_, ?_⟩
  · exact trie
  · rw [bookOf_concat, h.book]
  · intro e he
    rcases List.mem_append.1 he with he | he
    · exact h.lens e he
    · rw [List.mem_singleton.1 he]
      simp only [hlen]
      omega
  · rw [List.map_append, List.nodup_append]
    refine ⟨h.nodup, by simp, ?_⟩
    intro a ha b hb
    rw [h.book, bookOf, valid_records] at h3
    simp only [List.map_cons, List.map_nil, List.mem_singleton] at hb
    rintro rfl
    exact h3 (hb ▸ ha)
  · rw [List.pairwise_append]
    refine ⟨h.free, List.pairwise_singleton _ _, ?_⟩
    intro a ha b hb
    rw [List.mem_singleton.1 hb]
    exact hf a ha
  · simp only [List.length_append, List.length_singleton]
    omega
  · rw [tableLength_concat, hlen, h.offset]
    simp only [ceil8]
    omega
  · rw [tableAt_concat]
    refine ⟨h.table, ?_⟩
    have ho : src + 2 + tableLength done = src + t.offset := by
      rw [h.offset]
      omega
    rw [ho]
    refine ⟨rfl, hl.trans hlen.symm, fun j hj => ?_⟩
    simp [codeAt]
  · have := h4
    simp only
    omega
  · intro before after x y i j hsplit hi hj hbx hby
    have hy := trie.onTable_iff.2 ⟨j, hj⟩
    rcases List.eq_nil_or_concat after with rfl | ⟨after, e, rfl⟩
    · rw [List.append_nil] at hsplit
      exact absurd (hsplit ▸ hy) hby
    · rw [List.concat_eq_append, ← List.append_assoc] at hsplit
      have hd' : done = before ++ after := List.append_inj_left' hsplit rfl
      have hxi : pathIndex t.nodes 0 x = some i := by
        obtain ⟨k, hk⟩ := h.trie.onTable_iff.1 (hd' ▸ hbx.append)
        have := hx.2.1 x k hk
        rw [show pathIndex nodes 0 x = some i from hi] at this
        cases this
        exact hk
      rcases hx.2.2 y j hj with hyj | hyj
      · exact h.order before after x y i j hd' hxi hyj hbx hby
      · have := h.trie.lt hxi
        omega

/-- An entry in order is read (R262). -/
theorem Parsed.exists_parseEntry {m : Memory} {src len : Nat} {t : TableParse} {done : List (Byte × Code)}
    {e : Byte × Code} (h : Parsed m src len t done) (hd : done.length < 256) (hl : 1 ≤ e.2.length ∧ e.2.length ≤ 255)
    (hx : e.1 ∉ done.map Prod.fst) (hf : Fits done e.2) (ht : TableAt m (src + 2) (done ++ [e]))
    (hlen : 2 + tableLength (done ++ [e]) ≤ len) :
    ∃ t', parseEntry m src len t = some t' ∧ Parsed m src len t' (done ++ [e]) := by
  rw [tableAt_concat] at ht
  obtain ⟨-, h1, h2, h3⟩ := ht
  have ho : src + 2 + tableLength done = src + t.offset := by
    rw [h.offset]
    omega
  rw [ho] at h1 h2 h3
  rw [tableLength_concat] at hlen
  have hoff := h.offset
  have hsz := h.size
  have hc := codeAt_eq h3
  have hne : e.2 ≠ [] := fun e' => by rw [e'] at hl; simp at hl
  obtain ⟨nodes, hn⟩ := (trieInsert_spec e.1 hne h.trie (pathIndex_nil _ _) (by omega)).1 hf
  have he : parseEntry m src len t = some
      { offset := t.offset + 2 + ceil8 e.2.length, nodes := nodes, codebook := t.codebook.record (e.1, e.2) } := by
    unfold parseEntry
    rw [if_neg (by omega)]
    simp only [h1, h2, hc, hn]
    rw [if_neg (by omega), if_neg, if_neg]
    · simp only [ceil8]
      omega
    · rw [h.book, bookOf, valid_records]
      exact hx
  refine ⟨_, he, ?_⟩
  obtain ⟨e', hp⟩ := h.of_parseEntry hd he
  have hb := hp.book
  have hte := hp.table
  rw [tableAt_concat, ho] at hte
  obtain ⟨-, g1, g2, g3⟩ := hte
  have hc' := codeAt_eq g3
  have : e' = e := by
    refine Prod.ext (g1.symm.trans h1) ?_
    rw [← hc', ← hc, ← g2, h2]
  rwa [this] at hp

/-- The entries read (R262). -/
theorem Parsed.of_parseEntries {m : Memory} {src len : Nat} :
    ∀ {n : Nat} {t t' : TableParse} {done : List (Byte × Code)}, Parsed m src len t done → done.length + n ≤ 256 →
      parseEntries m src len n t = some t' → ∃ es, es.length = n ∧ Parsed m src len t' (done ++ es) := by
  intro n
  induction n with
  | zero =>
    intro t t' done h _ he
    cases he
    exact ⟨[], rfl, by rwa [List.append_nil]⟩
  | succ n ih =>
    intro t t' done h hd he
    rw [parseEntries] at he
    split at he
    · cases he
    next t1 h1 =>
    obtain ⟨e, hp⟩ := h.of_parseEntry (by omega) h1
    obtain ⟨es, hes, hp'⟩ := ih hp (by simp only [List.length_append, List.length_singleton]; omega) he
    exact ⟨e :: es, by simp [hes], by simpa using hp'⟩

/-- A table in order is read (R262). -/
theorem Parsed.exists_parseEntries {m : Memory} {src len : Nat} :
    ∀ {es : List (Byte × Code)} {t : TableParse} {done : List (Byte × Code)}, Parsed m src len t done →
      (done ++ es).length ≤ 256 → (∀ e ∈ es, 1 ≤ e.2.length ∧ e.2.length ≤ 255) → ((done ++ es).map Prod.fst).Nodup →
      ((done ++ es).Pairwise fun d e => ¬ d.2 <+: e.2 ∧ ¬ e.2 <+: d.2) → TableAt m (src + 2) (done ++ es) →
      2 + tableLength (done ++ es) ≤ len →
      ∃ t', parseEntries m src len es.length t = some t' ∧ Parsed m src len t' (done ++ es) := by
  intro es
  induction es with
  | nil =>
    intro t done h _ _ _ _ _ _
    exact ⟨t, rfl, by rwa [List.append_nil]⟩
  | cons e es ih =>
    intro t done h hd hl hn hp ht hlen
    have hassoc : done ++ e :: es = (done ++ [e]) ++ es := by simp
    have hsub : List.Sublist (done ++ [e]) (done ++ e :: es) := by
      rw [hassoc]
      exact List.sublist_append_left _ _
    have hfit : Fits done e.2 := by
      intro d hd
      exact (List.pairwise_append.1 (hp.sublist hsub)).2.2 d hd e (List.mem_singleton_self e)
    have hx : e.1 ∉ done.map Prod.fst := by
      intro hmem
      rw [List.map_append, List.nodup_append] at hn
      exact hn.2.2 _ hmem _ (by simp) rfl
    have hte : TableAt m (src + 2) (done ++ [e]) := by
      rw [hassoc] at ht
      exact ht.of_append
    have hle : tableLength (done ++ [e]) ≤ tableLength (done ++ e :: es) := by
      simp only [tableLength, List.map_append, List.map_cons, List.map_nil, List.sum_append, List.sum_cons, List.sum_nil]
      omega
    simp only [List.length_append, List.length_cons] at hd
    obtain ⟨t1, h1, hp1⟩ := h.exists_parseEntry (by omega) (hl e List.mem_cons_self) hx hfit hte (by omega)
    rw [hassoc] at hn hp ht hlen ⊢
    obtain ⟨t', h2, hp2⟩ := ih hp1 (by simp only [List.length_append, List.length_singleton]; omega)
      (fun d hd => hl d (List.mem_cons_of_mem _ hd)) hn hp ht hlen
    exact ⟨t', by rw [List.length_cons, parseEntries, h1]; exact h2, hp2⟩

/-- The header and the table (R261, R262). -/
theorem parsed_of_parseTable {m : Memory} {src len : Nat} {t : TableParse} (h : parseTable m src len = some t) :
    ∃ es, es.length = m.readLE src 2 ∧ es.length ≤ 256 ∧ Parsed m src len t es := by
  unfold parseTable at h
  split at h
  · cases h
  next h1 =>
  split at h
  · cases h
  next h2 =>
  obtain ⟨es, hes, hp⟩ := (parsed_nil (m := m) (src := src) (by omega)).of_parseEntries (by simp; omega) h
  exact ⟨es, hes, by omega, by simpa using hp⟩

theorem exists_parseTable {m : Memory} {src len : Nat} {es : List (Byte × Code)} (hc : es.length ≤ 256)
    (hr : m.readLE src 2 = es.length) (hl : ∀ e ∈ es, 1 ≤ e.2.length ∧ e.2.length ≤ 255)
    (hn : (es.map Prod.fst).Nodup) (hp : es.Pairwise fun d e => ¬ d.2 <+: e.2 ∧ ¬ e.2 <+: d.2)
    (ht : TableAt m (src + 2) es) (hlen : 2 + tableLength es ≤ len) :
    ∃ t, parseTable m src len = some t ∧ Parsed m src len t es := by
  obtain ⟨t, h1, h2⟩ := (parsed_nil (m := m) (src := src) (len := len) (by omega)).exists_parseEntries (es := es)
    hc hl hn hp ht hlen
  refine ⟨t, ?_, h2⟩
  unfold parseTable
  rw [if_neg (by omega), hr, if_neg (by omega)]
  exact h1

/-- The entries at a MEM address are determined: of two readings the shorter begins the longer. -/
theorem TableAt.isPrefix {m : Memory} {es es' : List (Byte × Code)} {a : Nat} (h : TableAt m a es) (h' : TableAt m a es')
    (hl : es.length ≤ es'.length) : es <+: es' := by
  induction es generalizing es' a with
  | nil => exact List.nil_prefix
  | cons e es ih =>
    cases es' with
    | nil => simp at hl
    | cons d ds =>
      obtain ⟨h1, h2, h3, h4⟩ := h
      obtain ⟨g1, g2, g3, g4⟩ := h'
      have hc := codeAt_eq h3
      have gc := codeAt_eq g3
      have he : e = d := Prod.ext (h1.symm.trans g1) (by rw [← hc, ← gc, ← h2, g2])
      subst he
      rw [List.prefix_cons_inj]
      exact ih h4 g4 (by simpa using hl)

/-- A table that was read has no bad entry. -/
theorem Parsed.not_bad {m : Memory} {src len : Nat} {t : TableParse} {es done : List (Byte × Code)}
    (h : Parsed m src len t es) (ht : TableAt m (src + 2) done) (hl : done.length < es.length) :
    ¬ BadEntry m src len done (2 + tableLength done) := by
  obtain ⟨more, hm⟩ := ht.isPrefix h.table (Nat.le_of_lt hl)
  cases more with
  | nil => rw [← hm] at hl; simp at hl
  | cons e more =>
    have hes : es = (done ++ [e]) ++ more := by rw [← hm]; simp
    have he : e ∈ es := by simp [← hm]
    have hte : TableAt m (src + 2) (done ++ [e]) := (hes ▸ h.table : TableAt m (src + 2) (done ++ [e] ++ more)).of_append
    rw [tableAt_concat, show src + 2 + tableLength done = src + (2 + tableLength done) by omega] at hte
    obtain ⟨-, h1, h2, h3⟩ := hte
    have hin := h.inside
    have hle : tableLength (done ++ [e]) ≤ tableLength es := by
      rw [hes]
      simp only [tableLength, List.map_append, List.map_cons, List.map_nil, List.sum_append, List.sum_cons, List.sum_nil]
      omega
    rw [tableLength_concat] at hle
    rw [h.offset] at hin
    have hlen := (h.lens e he).1
    have hnd := h.nodup
    have hfree := h.free
    rw [hes, List.append_assoc] at hnd hfree
    rw [List.map_append, List.nodup_append] at hnd
    rintro (hb | hb | hb | hb | ⟨d, hd, hb⟩)
    · omega
    · omega
    · rw [h1] at hb
      exact hnd.2.2 _ hb _ (by simp) rfl
    · rw [h2] at hb
      omega
    · have := (List.pairwise_append.1 hfree).2.2 d hd e (by simp)
      rw [h2, ← codeAt, codeAt_eq h3] at hb
      exact hb.elim this.1 this.2

/-- A bad entry makes the table malformed (R262). -/
theorem parseTable_badEntry {m : Memory} {src len : Nat} {done : List (Byte × Code)} (ht : TableAt m (src + 2) done)
    (hl : done.length < m.readLE src 2) (hb : BadEntry m src len done (2 + tableLength done)) :
    parseTable m src len = none := by
  cases h : parseTable m src len with
  | none => rfl
  | some t =>
    obtain ⟨es, hes, -, hp⟩ := parsed_of_parseTable h
    exact absurd hb (hp.not_bad ht (by omega))

/-- A table without the 8 bytes of a length field after it is malformed (R263). -/
theorem decodeContainer_noLength {m : Memory} {src len : Nat} {es : List (Byte × Code)} (ht : TableAt m (src + 2) es)
    (hl : es.length = m.readLE src 2) (hlen : len < 2 + tableLength es + 8) :
    decodeContainer m src len = .error .malformedTable := by
  unfold decodeContainer
  cases h : parseTable m src len with
  | none => rfl
  | some t =>
    obtain ⟨es', hes, -, hp⟩ := parsed_of_parseTable h
    have := (ht.isPrefix hp.table (by omega)).eq_of_length (by omega)
    subst this
    have := hp.offset
    simp only
    rw [if_pos (by omega)]

/-- A table that was read is in order, and the arena holds its trie (R262, R265, R266). -/
theorem Parsed.goodTable {m : Memory} {src len : Nat} {t : TableParse} {es : List (Byte × Code)}
    (h : Parsed m src len t es) (hl : es.length ≤ 256) : GoodTable es := ⟨hl, h.nodup, h.lens, h.free⟩

theorem Parsed.trieOf {m : Memory} {src len : Nat} {t : TableParse} {es : List (Byte × Code)}
    (h : Parsed m src len t es) : TrieOf t.nodes es := by
  have weight : ∀ c n, followPath t.nodes 0 c = some n → n.weight = 0 := by
    intro c n hn
    rw [followPath_eq] at hn
    cases hk : pathIndex t.nodes 0 c with
    | none => rw [hk] at hn; cases hn
    | some k =>
      rw [hk, Option.bind_some] at hn
      exact h.trie.weights n (List.mem_of_getElem? hn)
  refine ⟨h.trie.weights, fun x c => ?_, fun c => ?_, fun k hk => ?_, h.trie.forward, h.order⟩
  · rw [← h.trie.leaf]
    refine ⟨fun e => ⟨0, e⟩, ?_⟩
    rintro ⟨w, e⟩
    have hw : w = 0 := weight c _ e
    rw [e, hw]
  · rw [← List.prefix_nil, ← h.trie.internal]
    constructor
    · rintro ⟨l, r, e⟩
      exact ⟨0, l, r, e⟩
    · rintro ⟨w, l, r, e⟩
      have hw : w = 0 := weight c _ e
      exact ⟨l, r, by rw [e, hw]⟩
  · obtain ⟨c, hc⟩ := h.trie.reached k hk
    exact ⟨c, hc, fun d hd => h.trie.once d c k hd hc⟩

/-! ### The payload -/

theorem walkPayload_length {m : Memory} {nodes : List Node} {pay : Nat} :
    ∀ {left pos i : Nat} {out : List Byte}, walkPayload m nodes pay left pos i = .ok out → out.length ≤ left := by
  intro left
  induction left with
  | zero =>
    intro pos i out h
    rw [walkPayload] at h
    split at h
    · cases h; exact Nat.le_refl 0
    · cases h
  | succ left ih =>
    intro pos i out h
    rw [walkPayload] at h
    split at h
    · cases h
    · split at h
      · split at h
        · next out' h' =>
          cases h
          have := ih h'
          simp only [List.length_cons]
          omega
        · cases h
      · have := ih h
        omega

/-- The walk of one code, from the record at path p on: it puts out the code's symbol and goes on at the root (R264). -/
theorem walkPayload_code {m : Memory} {nodes : List Node} {pay left pos : Nat} {es : List (Byte × Code)} {path : Code}
    (h : TrieOk nodes es path) {x : Byte} {d p : Code} {i : Nat} (hd : d ≠ []) (hi : pathIndex nodes 0 p = some i)
    (hx : (x, p ++ d) ∈ es) (hb : ∀ j (hj : j < d.length), m.bitAt pay (pos + j) = d[j]) :
    walkPayload m nodes pay (left + d.length) pos i =
      match walkPayload m nodes pay left (pos + d.length) 0 with
      | .ok out => .ok (x :: out)
      | .error e => .error e := by
  induction d generalizing p i pos with
  | nil => exact absurd rfl hd
  | cons b d ih =>
    have hpb := pathIndex_snoc nodes 0 p b
    rw [hi, Option.bind_some] at hpb
    obtain ⟨k, hk⟩ := h.exists_index (c := p ++ [b]) (.inr ⟨_, hx, ⟨d, by simp⟩⟩)
    obtain ⟨j, hj⟩ : ∃ j, childOf nodes i b = some j := by
      cases hj : childOf nodes i b with
      | none => rw [hj, hk] at hpb; cases hpb
      | some j => exact ⟨j, rfl⟩
    rw [hj] at hpb
    have hb0 := hb 0 (by simp)
    simp only [Nat.add_zero, List.getElem_cons_zero] at hb0
    have hfp : followPath nodes 0 (p ++ [b]) = nodes[j.toNat]? := by rw [followPath_eq, hpb]; rfl
    have hne : left + (b :: d).length = (left + d.length) + 1 := by simp only [List.length_cons]; omega
    rw [hne, walkPayload, hb0, hj]
    simp only
    cases d with
    | nil =>
      obtain ⟨w, hf⟩ := (h.leaf x (p ++ [b])).2 hx
      rw [hfp] at hf
      rw [hf]
      simp only [List.length_nil, Nat.add_zero, List.length_cons, Nat.zero_add]
      all_goals cases walkPayload m nodes pay left (pos + 1) 0 <;> rfl
    | cons b' d =>
      obtain ⟨w, l, r, hf⟩ := (h.internal (p ++ [b])).2 (.inr ⟨_, hx, ⟨b' :: d, by simp⟩, fun e => by
        have := congrArg List.length e
        simp at this⟩)
      rw [hfp] at hf
      rw [hf]
      simp only
      rw [ih (by simp) hpb (by simpa using hx) (fun k hk => by
        have := hb (k + 1) (by simpa using hk)
        rw [show pos + 1 + k = pos + (k + 1) by omega, this]
        rfl)]
      simp only [List.length_cons, Nat.add_assoc, Nat.add_comm]

/-- The walk of a payload that begins with codes puts out their symbols and goes on at the root (R264). -/
theorem walkPayload_codes {m : Memory} {nodes : List Node} {pay left : Nat} {es : List (Byte × Code)} {path : Code}
    (h : TrieOk nodes es path) (hl : ∀ e ∈ es, 1 ≤ e.2.length) :
    ∀ {outs : List (Byte × Code)} {pos : Nat}, (∀ o ∈ outs, o ∈ es) →
      (∀ j (hj : j < (outs.flatMap Prod.snd).length), m.bitAt pay (pos + j) = (outs.flatMap Prod.snd)[j]) →
      walkPayload m nodes pay (left + (outs.flatMap Prod.snd).length) pos 0 =
        (walkPayload m nodes pay left (pos + (outs.flatMap Prod.snd).length) 0).map fun out =>
          outs.map Prod.fst ++ out := by
  intro outs
  induction outs with
  | nil =>
    intro pos _ _
    simp only [List.flatMap_nil, List.length_nil, Nat.add_zero]
    cases walkPayload m nodes pay left pos 0 <;> rfl
  | cons o outs ih =>
    intro pos ho hb
    have hoe := ho o List.mem_cons_self
    have hne : o.2 ≠ [] := fun e => by
      have := hl o hoe
      rw [e] at this
      simp at this
    have hlen : ((o :: outs).flatMap Prod.snd).length = (outs.flatMap Prod.snd).length + o.2.length := by
      simp only [List.flatMap_cons, List.length_append]
      omega
    have h1 := walkPayload_code (m := m) (pay := pay) (left := left + (outs.flatMap Prod.snd).length) (pos := pos)
      (x := o.1) (p := []) h hne (pathIndex_nil _ _) hoe (fun j hj => by
        rw [hb j (by omega)]
        simp only [List.flatMap_cons]
        rw [List.getElem_append_left hj])
    have h2 := ih (pos := pos + o.2.length) (fun o' ho' => ho o' (List.mem_cons_of_mem _ ho')) (by
      intro j hj
      rw [Nat.add_assoc, hb (o.2.length + j) (by omega)]
      simp only [List.flatMap_cons]
      rw [List.getElem_append_right (by omega)]
      exact getElem_congr_idx (by omega))
    rw [hlen, ← Nat.add_assoc, h1, h2, Nat.add_assoc, Nat.add_comm o.2.length]
    cases walkPayload m nodes pay left (pos + ((outs.flatMap Prod.snd).length + o.2.length)) 0 <;> rfl

/-- The walk from a record on over bits that end inside a code (R264). -/
theorem walkPayload_truncated {m : Memory} {nodes : List Node} {pay pos : Nat} {es : List (Byte × Code)} {path : Code}
    (h : TrieOk nodes es path) {d p : Code} {i : Nat} (hi : pathIndex nodes 0 p = some i) (hne : p ++ d ≠ [])
    {e : Byte × Code} (he : e ∈ es) (hp : p ++ d <+: e.2) (hpe : p ++ d ≠ e.2)
    (hb : ∀ j (hj : j < d.length), m.bitAt pay (pos + j) = d[j]) :
    walkPayload m nodes pay d.length pos i = .error .truncatedPayload := by
  induction d generalizing p i pos with
  | nil =>
    rw [List.length_nil, walkPayload, if_neg]
    rintro rfl
    rw [List.append_nil] at hne
    exact hne (h.once _ _ _ hi (pathIndex_nil _ _))
  | cons b d ih =>
    have hassoc : p ++ b :: d = (p ++ [b]) ++ d := by simp
    rw [hassoc] at hne hp hpe
    have hpb := pathIndex_snoc nodes 0 p b
    rw [hi, Option.bind_some] at hpb
    obtain ⟨w, l, r, hf⟩ := (h.internal (p ++ [b])).2 (.inr ⟨e, he, List.IsPrefix.trans ⟨d, rfl⟩ hp, fun e' => by
      have := hp.length_le
      rw [← e'] at this
      have hd : d = [] := by
        rw [List.length_append] at this
        exact List.length_eq_zero_iff.1 (by omega)
      rw [hd, List.append_nil] at hpe
      exact hpe e'⟩)
    rw [followPath_eq, hpb] at hf
    have hb0 := hb 0 (by simp)
    simp only [Nat.add_zero, List.getElem_cons_zero] at hb0
    rw [List.length_cons, walkPayload, hb0]
    cases hj : childOf nodes i b with
    | none => rw [hj] at hf; cases hf
    | some j =>
      rw [hj] at hf hpb
      simp only [Option.map_some, Option.bind_some] at hf hpb
      simp only [hf]
      exact ih hpb hne hp hpe fun k hk => by
        have := hb (k + 1) (by simpa using hk)
        rw [show pos + 1 + k = pos + (k + 1) by omega, this]
        rfl

/-- The walk from a record on over bits that leave the trie (R264, R269(c)). -/
theorem walkPayload_undecodable {m : Memory} {nodes : List Node} {pay left pos : Nat} {es : List (Byte × Code)}
    (h : TrieOk nodes es []) {d p : Code} {i : Nat} (hi : pathIndex nodes 0 p = some i) (hne : p ++ d ≠ [])
    (hno : ∀ e ∈ es, ¬ p ++ d <+: e.2 ∧ ¬ e.2 <+: p ++ d)
    (hb : ∀ j (hj : j < d.length), m.bitAt pay (pos + j) = d[j]) :
    walkPayload m nodes pay (left + d.length) pos i = .error .undecodable := by
  induction d generalizing p i pos with
  | nil =>
    exfalso
    rw [List.append_nil] at hne hno
    rcases h.onTable_iff.2 ⟨i, hi⟩ with hp | ⟨e, he, hp⟩
    · exact hne hp
    · exact (hno e he).1 hp
  | cons b d ih =>
    have hpb := pathIndex_snoc nodes 0 p b
    rw [hi, Option.bind_some] at hpb
    have hb0 := hb 0 (by simp)
    simp only [Nat.add_zero, List.getElem_cons_zero] at hb0
    rw [List.length_cons, ← Nat.add_assoc, walkPayload, hb0]
    cases hj : childOf nodes i b with
    | none => rfl
    | some j =>
      rw [hj] at hpb
      simp only [Option.map_some] at hpb
      simp only
      have hfp : followPath nodes 0 (p ++ [b]) = nodes[j.toNat]? := by rw [followPath_eq, hpb]; rfl
      have step : walkPayload m nodes pay (left + d.length) (pos + 1) j.toNat = .error .undecodable := by
        refine ih hpb (by simp) (by simpa using hno) fun k hk => ?_
        have := hb (k + 1) (by simpa using hk)
        rw [show pos + 1 + k = pos + (k + 1) by omega, this]
        rfl
      cases hn : nodes[j.toNat]? with
      | none => exact step
      | some n =>
        cases n with
        | leaf x w =>
          exfalso
          have hx := (h.leaf x (p ++ [b])).1 ⟨w, by rw [hfp, hn]⟩
          exact (hno _ hx).2 ⟨d, by simp⟩
        | internal w l r => exact step

/-! ### The container -/

/-- What a container that decodes is made of (R260 to R264). -/
theorem decodeContainer_ok {m : Memory} {src len : Nat} {d : Decoded} (h : decodeContainer m src len = .ok d) :
    ∃ t es, es.length = m.readLE src 2 ∧ es.length ≤ 256 ∧ Parsed m src len t es ∧ d.nodes = t.nodes ∧ d.codebook = bookOf es ∧
      d.offset = t.offset + 8 ∧ d.payload = m.readLE (src + t.offset) 8 ∧ d.payload < 2 ^ 64 ∧
      d.offset + ceil8 d.payload ≤ len ∧ d.out.length ≤ d.payload := by
  unfold decodeContainer at h
  split at h
  · cases h
  next t ht =>
  split at h
  · cases h
  simp only at h
  split at h
  · cases h
  next h2 =>
  split at h
  · cases h
  next out ho =>
  cases h
  obtain ⟨es, hct, hes, hp⟩ := parsed_of_parseTable ht
  have := m.readLE_lt (src + t.offset) 8
  exact ⟨t, es, hct, hes, hp, rfl, hp.book, rfl, rfl, this, Nat.le_of_not_lt h2, walkPayload_length ho⟩

/-- A container with a table in order and a length field: what its payload decides (R263, R264). -/
theorem decodeContainer_table {m : Memory} {src len : Nat} {es : List (Byte × Code)} (hg : GoodTable es)
    (hr : m.readLE src 2 = es.length) (ht : TableAt m (src + 2) es) {q P : Nat} (hq : q = 2 + tableLength es)
    (hP : m.readLE (src + q) 8 = P) (hlen : q + 8 ≤ len) :
    ∃ t, Parsed m src len t es ∧ decodeContainer m src len =
      if len < q + 8 + ceil8 P then .error .truncatedPayload
      else (walkPayload m t.nodes (src + q + 8) P 0 0).map fun out =>
        { nodes := t.nodes, codebook := bookOf es, payload := P, offset := q + 8, out := out } := by
  obtain ⟨t, h1, hp⟩ := exists_parseTable (len := len) hg.count hr hg.lens hg.nodup hg.free ht (by omega)
  have ho : t.offset = q := by rw [hp.offset, hq]
  refine ⟨t, hp, ?_⟩
  unfold decodeContainer
  rw [h1]
  simp only [ho, hP, hp.book]
  rw [if_neg (by omega), Nat.add_assoc src q 8]
  split
  · rfl
  · cases walkPayload m t.nodes (src + (q + 8)) P 0 0 <;> rfl

/-- A table that does not parse is MALFORMED_TABLE (R261, R262). -/
theorem decodeContainer_malformed {m : Memory} {src len : Nat} (h : parseTable m src len = none) :
    decodeContainer m src len = .error .malformedTable := by
  unfold decodeContainer
  rw [h]

/-- DEC_RUN with its regions in order (R268). -/
theorem execDecRun_regionsOk {s : State} (h : RegionsOk s) :
    execDecRun s =
      match decodeContainer s.mem s.srcAddr.toNat s.srcLen.toNat with
      | .error e => .next (s.failDecode.complete e)
      | .ok d =>
        if s.dstCap.toNat < d.out.length then
          .next ({ s.failDecode with res0 := BitVec.ofNat 64 d.out.length }.complete .outputOverflow)
        else .next ((writeOutput s d).complete .ok) := by
  rw [regionsOk_iff] at h
  unfold execDecRun
  rw [if_neg (by simp [h.1]), if_neg (by simp [h.2])]
  all_goals cases decodeContainer s.mem s.srcAddr.toNat s.srcLen.toNat <;> rfl

end Sys2Proof.Machine
end

