-- ==== Sys2Proof/Laws/PerInstr.lean ====
section
/-! SUPPORT. Statements made for every command, one lemma per constructor of Instr. -/

/-- The row of the opcode map that a command's own opcode and fields select is that command, and with its operands
in range its fields pass the field check (30_encoding.md R82, R84). -/
def Sys2Proof.Laws.RowSelected.Statement (i : Sys2Proof.Instr) : Prop :=
  Sys2Proof.selectRow i.opcode i.fieldA i.fieldN = some i ∧
    (i.WellFormed → Sys2Proof.fieldCheck i i.fieldA i.fieldN = true)

namespace Sys2Proof.Laws.RowSelected

theorem nop : Statement .nop := by constructor <;> decide
theorem ftClear : Statement .ftClear := by constructor <;> decide
theorem ftRecord (sym : Byte) : Statement (.ftRecord sym) :=
  ⟨rfl, fun _ => by simp [fieldCheck, Instr.usesA, Instr.fieldN, Instr.wellFormed]⟩
theorem ftWrite (sym : Byte) : Statement (.ftWrite sym) :=
  ⟨rfl, fun _ => by simp [fieldCheck, Instr.usesA, Instr.fieldN, Instr.wellFormed]⟩
theorem ftRead (sym : Byte) : Statement (.ftRead sym) :=
  ⟨rfl, fun _ => by simp [fieldCheck, Instr.usesA, Instr.fieldN, Instr.wellFormed]⟩
theorem ftScan : Statement .ftScan := by constructor <;> decide
theorem pqClear : Statement .pqClear := by constructor <;> decide
theorem pqPush (node : NodeIndex) : Statement (.pqPush node) :=
  ⟨rfl, fun _ => by simp [fieldCheck, Instr.usesN, Instr.fieldA, Instr.wellFormed]⟩
theorem pqPop : Statement .pqPop := by constructor <;> decide
theorem treeBuild : Statement .treeBuild := by constructor <;> decide
theorem nodeRead (index : NodeIndex) : Statement (.nodeRead index) :=
  ⟨rfl, fun _ => by simp [fieldCheck, Instr.usesN, Instr.fieldA, Instr.wellFormed]⟩
theorem cbGen : Statement .cbGen := by constructor <;> decide
theorem cbRead (sym : Byte) (chunk : BitVec 16) : Statement (.cbRead sym chunk) :=
  ⟨rfl, fun h => by simpa [fieldCheck, Instr.usesA, Instr.usesN] using h⟩
theorem bpInit : Statement .bpInit := by constructor <;> decide
theorem bpPush (bit : Byte) : Statement (.bpPush bit) :=
  ⟨rfl, fun h => by simpa [fieldCheck, Instr.usesA, Instr.fieldN] using h⟩
theorem bpFinish : Statement .bpFinish := by constructor <;> decide
theorem brInit : Statement .brInit := by constructor <;> decide
theorem brNext : Statement .brNext := by constructor <;> decide
theorem encRun : Statement .encRun := by constructor <;> decide
theorem decRun : Statement .decRun := by constructor <;> decide
theorem reset : Statement .reset := by constructor <;> decide

end Sys2Proof.Laws.RowSelected
end

