-- ==== Sys2Proof/Laws/Runs.lean ====
section
/-! SUPPORT. Everything that BP_PUSH, ENC_RUN and DEC_RUN can lead to (45_bit_packer.md R201, 47_encoder.md R245,
48_decoder.md R268), and that the arenas TREE_BUILD and DEC_RUN leave are in order (10_state.md R28, R29). -/

namespace Sys2Proof.Machine

/-! ### Registers and records -/

/-- A base register and its region stay inside what the region's address did (log entry 12). -/
theorem addressReg_fits {a n top : Nat} (h : a + n ≤ top) : (addressReg a).toNat + n ≤ top := by
  unfold addressReg
  split
  · rw [BitVec.toNat_ofNat, Nat.mod_eq_of_lt (by assumption)]
    exact h
  · have := (Config.unfitAddress a).isLt
    omega

theorem CbEntry.ok_empty (x : Byte) : (Codebook.get emptyCodebook x).Ok := by simp [CbEntry.Ok]

theorem arenaOk_empty {s : State} (h1 : s.nodes = []) (h2 : s.rootValid = false) : s.ArenaOk := by
  have hc : ∀ i b, childOf s.nodes i b = none := by simp [h1, childOf]
  refine ⟨⟨by simp [h1], ?_, .inl ?_, by simp [h2]⟩, ⟨?_, by simp [h1]⟩, .inl ⟨?_, by simp [h1]⟩⟩
  · intro i b j h
    rw [hc] at h
    cases h
  · intro i b j h
    rw [hc] at h
    cases h
  · intro i b i' b' j h
    rw [hc] at h
    cases h
  · intro i b j h
    rw [hc] at h
    cases h

/-- The tree of TREE_BUILD (43_tree_builder.md R163, R164; 10_state.md R28, R29). -/
theorem arenaOk_plantForest (s : State) (ht : s.freq.total ≤ maxCount) :
    (plantForest s (Forest.build s.freq)).ArenaOk := by
  by_cases h0 : (counted s.freq).length = 0
  · rw [Forest.build_empty h0]
    exact arenaOk_empty rfl rfl
  · obtain ⟨e, t, hg, hp, hl, hr⟩ := Forest.build_spec (Nat.pos_of_ne_zero h0) ht
    have hle := length_counted_le s.freq
    have hh := hg.holds _ (List.mem_singleton_self _)
    have hlv : t.leaves.Perm (counted s.freq) := by simpa using hg.leaves
    have hht := t.height_lt
    rw [hlv.length_eq] at hht
    obtain ⟨hown, hshape⟩ := hg.shape
    unfold plantForest
    rw [hp]
    refine ⟨⟨?_, hg.owned.inside, .inl hshape.1, fun _ => ⟨?_, ?_⟩⟩, hown, .inl hshape⟩
    · change (Forest.build s.freq).nodes.length ≤ _
      omega
    · change e.node.toNat < (Forest.build s.freq).nodes.length
      omega
    · intro c hc
      refine hh.followPath_none ?_
      change t.height < _
      omega

/-- TREE_BUILD leaves the queue empty (R164). -/
theorem queue_plantForest (s : State) (ht : s.freq.total ≤ maxCount) :
    (plantForest s (Forest.build s.freq)).queue = [] := by
  unfold plantForest
  by_cases h0 : (counted s.freq).length = 0
  · rw [Forest.build_empty h0]
    rfl
  · obtain ⟨e, t, -, hp, -, -⟩ := Forest.build_spec (Nat.pos_of_ne_zero h0) ht
    rw [hp]

/-- The trie of DEC_RUN (48_decoder.md R265, R266; 10_state.md R28, R29). -/
theorem Parsed.arenaOk {m : Memory} {src len : Nat} {t : TableParse} {es : List (Byte × Code)}
    (h : Parsed m src len t es) (hl : es.length ≤ 256) {s : State} (hn : s.nodes = t.nodes) (hr : s.root = 0)
    (hv : s.rootValid = true) : s.ArenaOk := by
  have hs := h.size
  obtain ⟨hown, hshape⟩ := h.trie.shape
  have h0 : s.nodes.length ≤ 65536 := by
    rw [hn]
    omega
  refine ⟨⟨h0, ?_, .inr ?_, fun _ => ⟨by rw [hn, hr]; exact h.trie.size, ?_⟩⟩, ?_, .inr (hn ▸ hshape)⟩
  · rw [hn]
    intro i b j hj
    exact (h.trie.forward i b j hj).2
  · rw [hn]
    exact hshape.1
  · rw [hn, hr]
    intro c hc
    rw [show (0 : NodeIndex).toNat = 0 from rfl, followPath_eq]
    cases hk : pathIndex t.nodes 0 c with
    | none => rfl
    | some k =>
      exfalso
      rcases h.trie.path_cases hk with ⟨x, hx⟩ | hx | ⟨e, he, hx, -⟩
      · have := (h.lens _ hx).2
        simp only at this
        omega
      · rw [List.prefix_nil.1 hx] at hc
        cases hc
      · have := (h.lens _ he).2
        have := hx.length_le
        omega
  · rw [hn, State.rootIndex, hv, if_pos rfl, hr]
    exact hown

/-! ### BP_PUSH -/

theorem execBpPush_mem {b : Byte} {s t : State} (h : execBpPush b s = .next t) :
    t.mem = s.mem ∨ (s.packAddress < s.cfg.memBytes ∧
      t.mem = packBit s.mem s.bpBase.toNat s.bpBitcnt.toNat (b.getLsbD 0)) := by
  unfold execBpPush at h
  split at h
  · cases h
    exact .inl rfl
  split at h
  · cases h
    exact .inl rfl
  split at h
  · cases h
  · cases h
    exact .inr ⟨by omega, rfl⟩

/-! ### ENC_RUN -/

/-- Out of order, the regions end ENC_RUN with an error that changes OUT_LEN alone (R245; 60_exceptions.md R304). -/
theorem execEncRun_region_error {s : State} (h : ¬ RegionsOk s) :
    ∃ e, execEncRun s = .next ({ s with outLen := 0 }.complete e) := by
  rw [regionsOk_iff] at h
  unfold execEncRun
  split
  · exact ⟨_, rfl⟩
  next h1 =>
  split
  · exact ⟨_, rfl⟩
  next h2 => exact absurd ⟨by simpa using h1, by simpa using h2⟩ h

/-- Everything ENC_RUN can lead to with its regions in order (R245). -/
theorem execEncRun_next {s t : State} (hr : RegionsOk s) (h : execEncRun s = .next t) :
    ∃ rs, GoodCodes rs ∧ generateCodebook s.countAndPlant = some (bookOf rs) ∧
      ((∃ r, t = { s.countAndPlant with codebook := bookOf rs, outLen := 0, res0 := r }.complete .outputOverflow) ∨
       (∃ P size bits, P = bits.length ∧ P < 2 ^ 40 ∧ size = (headerBytes (bookOf rs) P).length + ceil8 P ∧
         size ≤ s.dstCap.toNat ∧
         t = (writeContainer { s.countAndPlant with codebook := bookOf rs } P size bits).complete .ok)) := by
  obtain ⟨rs, P, size, h1, -, h3, -, h5, h6, h7, -, he⟩ := execEncRun_cases hr
  refine ⟨rs, h1, h3, ?_⟩
  by_cases hc : s.dstCap.toNat < size
  · rw [if_pos hc, h] at he
    exact .inl ⟨_, Host.Outcome.next.inj he⟩
  · rw [if_neg hc, h] at he
    exact .inr ⟨P, size, _, h5, h6, h7, by omega, Host.Outcome.next.inj he⟩

/-- What an ENC_RUN that completes OK has done (R241 to R245). -/
theorem execEncRun_ok {s t : State} (h : execEncRun s = .next t) (ho : t.err = .ok) :
    ∃ rs P size, GoodCodes rs ∧ (rs.map Prod.fst).Perm (counted (countsOf s.srcBytes)) ∧
      generateCodebook s.countAndPlant = some (bookOf rs) ∧
      (∀ x, ((bookOf rs).get x).valid = true ↔ x ∈ s.srcBytes) ∧
      P = (inputBits (bookOf rs) s.srcBytes).length ∧ P < 2 ^ 40 ∧
      size = (headerBytes (bookOf rs) P).length + ceil8 P ∧ size ≤ s.dstCap.toNat ∧
      t = (writeContainer { s.countAndPlant with codebook := bookOf rs } P size
        (inputBits (bookOf rs) s.srcBytes)).complete .ok := by
  obtain ⟨rs, P, size, h1, h2, h3, h4, h5, h6, h7, -, he⟩ := execEncRun_cases (regionsOk_of_execEncRun h ho)
  refine ⟨rs, P, size, h1, h2, h3, h4, h5, h6, h7, ?_⟩
  by_cases hc : s.dstCap.toNat < size
  · rw [if_pos hc, h] at he
    rw [Host.Outcome.next.inj he] at ho
    simp at ho
  · rw [if_neg hc, h] at he
    exact ⟨by omega, Host.Outcome.next.inj he⟩

/-! ### DEC_RUN -/

/-- Out of order, the regions end DEC_RUN with an error that changes OUT_LEN alone (R268; 60_exceptions.md R304). -/
theorem execDecRun_region_error {s : State} (h : ¬ RegionsOk s) :
    ∃ e, execDecRun s = .next ({ s with outLen := 0 }.complete e) := by
  rw [regionsOk_iff] at h
  unfold execDecRun
  split
  · exact ⟨_, rfl⟩
  next h1 =>
  split
  · exact ⟨_, rfl⟩
  next h2 => exact absurd ⟨by simpa using h1, by simpa using h2⟩ h

/-- Everything DEC_RUN can lead to with its regions in order (R268, R269). -/
theorem execDecRun_next {s t : State} (hr : RegionsOk s) (h : execDecRun s = .next t) :
    (∃ r e, t = { s.failDecode with res0 := r }.complete e) ∨
    (∃ d t' es, es.length ≤ 256 ∧ Parsed s.mem s.srcAddr.toNat s.srcLen.toNat t' es ∧ d.nodes = t'.nodes ∧
      d.codebook = bookOf es ∧ d.offset + ceil8 d.payload ≤ s.srcLen.toNat ∧ d.payload < 2 ^ 64 ∧
      d.out.length ≤ s.dstCap.toNat ∧ t = (writeOutput s d).complete .ok) := by
  have he := execDecRun_regionsOk hr
  cases hd : decodeContainer s.mem s.srcAddr.toNat s.srcLen.toNat with
  | error e =>
    rw [hd, h] at he
    exact .inl ⟨s.res0, e, Host.Outcome.next.inj he⟩
  | ok d =>
    rw [hd, h] at he
    simp only at he
    by_cases hc : s.dstCap.toNat < d.out.length
    · rw [if_pos hc] at he
      exact .inl ⟨_, _, Host.Outcome.next.inj he⟩
    · rw [if_neg hc] at he
      obtain ⟨t', es, -, hes, hp, e1, e2, -, -, e5, e6, -⟩ := decodeContainer_ok hd
      exact .inr ⟨d, t', es, hes, hp, e1, e2, e6, e5, by omega, Host.Outcome.next.inj he⟩

end Sys2Proof.Machine
end

