-- ==== Sys2Proof/Laws/Step.lean ====
section
/-! SUPPORT. What one step can do: whose turn it is (20_memory.md R71), what a command keeps, and what a move of the
outside can change. -/

namespace Sys2Proof.Machine

/-! ### The turn -/

theorem step_of_completion {s : State} {w : Word} (h : s.turn = .completion w) : step s = completeWord w s := by
  unfold step
  rw [h]

/-- The turn is a completion exactly with a word in PENDING, rst released, and no move inside the window. -/
theorem turn_eq_completion {s : State} {w : Word} :
    s.turn = .completion w ↔ s.pending = some w ∧ s.rst = false ∧ ∀ e ∈ s.host.head?, e.inBusy = false := by
  unfold State.turn
  cases hh : s.host with
  | nil =>
    cases hp : s.pending with
    | none => simp
    | some w' => by_cases hr : s.rst = true <;> simp [hr]
  | cons e rest =>
    cases hp : s.pending with
    | none => simp
    | some w' =>
      cases hb : e.inBusy <;> cases hr : s.rst <;> simp [hb]

theorem turn_eq_outside {s : State} {m : HostMove} {rest : List HostEvent} (h : s.turn = .outside m rest) :
    ∃ e, s.host = e :: rest ∧ m = e.move ∧ (s.pending = none ∨ s.rst = true ∨ e.inBusy = true) := by
  unfold State.turn at h
  split at h
  · split at h
    · split at h <;> cases h
    · cases h
  · next e rest' hh =>
    split at h
    · split at h
      · next hb =>
        cases h
        simp only [Bool.or_eq_true] at hb
        exact ⟨e, hh, rfl, .inr (hb.symm)⟩
      · cases h
    · next hp =>
      cases h
      exact ⟨e, hh, rfl, .inl hp⟩

/-- Everything a step can be (20_memory.md R71). -/
theorem step_cases (s : State) :
    (∃ w, s.turn = .completion w ∧ step s = completeWord w s) ∨
    (∃ m rest, s.turn = .outside m rest ∧ step s = hostMove { s with host := rest } m) ∨
    (s.turn = .idle ∧ step s = .next s) := by
  unfold step
  cases h : s.turn with
  | completion w => exact .inl ⟨w, rfl, rfl⟩
  | outside m rest => exact .inr (.inl ⟨m, rest, rfl, rfl⟩)
  | idle => exact .inr (.inr ⟨rfl, rfl⟩)

/-- A completed word is a command's next state or the ILLEGAL_COMMAND outcome (60_exceptions.md R301). -/
theorem completeWord_cases (w : Word) (s : State) :
    (∃ i, decode w = .ok i ∧ completeWord w s = exec i s) ∨
    ((∀ i, decode w ≠ .ok i) ∧ completeWord w s = .next (s.complete .illegalCommand)) := by
  unfold completeWord
  cases h : decode w with
  | ok i => exact .inl ⟨i, rfl, rfl⟩
  | error e => exact .inr ⟨by simp, rfl⟩

/-! ### Moves of the outside -/

theorem hostMove_access {s : State} (m : HostMove) (hr : s.rst = false) : hostMove s m = hostAccess s m := by
  cases m <;> simp only [hostMove, hr] <;> rfl

/-- Everything a move of the outside can lead to. -/
theorem hostMove_cases {s t : State} {m : HostMove} (h : hostMove s m = .next t) :
    (∃ a, m = .rst a ∧ t = s.setReset a) ∨
    (∃ r, t = s.reply r) ∨
    (s.busy = true ∧ t = s.dropWrite) ∨
    (∃ offset v, m = .writeReg .word offset v ∧ s.busy = false ∧ s.rst = false ∧ t = s.writeRegister offset v) ∨
    (∃ a v, m = .writeMem a v ∧ a < s.cfg.memBytes ∧ s.busy = false ∧ s.rst = false ∧
      t = { s with mem := s.mem.write a v }) := by
  cases m with
  | rst a => cases h; exact .inl ⟨a, rfl, rfl⟩
  | readReg width offset =>
    simp only [hostMove] at h
    split at h
    · cases h
    simp only [hostAccess] at h
    split at h
    · cases h; exact .inr (.inl ⟨_, rfl⟩)
    · cases h
  | readMem a =>
    simp only [hostMove] at h
    split at h
    · cases h
    simp only [hostAccess] at h
    split at h
    · cases h; exact .inr (.inl ⟨_, rfl⟩)
    · cases h
  | writeReg width offset v =>
    simp only [hostMove] at h
    split at h
    · cases h
    next hr =>
    simp only [hostAccess] at h
    split at h
    · cases h
    next hadm =>
    have hw : width = .word := by
      simp only [registerAdmitted, Bool.not_eq_true', Bool.and_eq_false_iff, not_or, decide_eq_false_iff_not,
        not_not] at hadm
      exact hadm.1.1
    subst hw
    split at h
    · next hb => cases h; exact .inr (.inr (.inl ⟨hb, rfl⟩))
    · next hb =>
      cases h
      exact .inr (.inr (.inr (.inl ⟨offset, v, rfl, by simpa using hb, by simpa using hr, rfl⟩)))
  | writeMem a v =>
    simp only [hostMove] at h
    split at h
    · cases h
    next hr =>
    simp only [hostAccess] at h
    split at h
    · cases h
    next ha =>
    split at h
    · next hb => cases h; exact .inr (.inr (.inl ⟨hb, rfl⟩))
    · next hb =>
      cases h
      exact .inr (.inr (.inr (.inr ⟨a, v, rfl, by omega, by simpa using hb, by simpa using hr, rfl⟩)))

/-- A write of the window changes an operand register or PENDING, and nothing else (10_state.md R22). -/
theorem writeRegister_eq (s : State) (offset : Nat) (v : Word) :
    s.writeRegister offset v =
      { s with
        srcAddr := (s.writeRegister offset v).srcAddr
        srcLen := (s.writeRegister offset v).srcLen
        dstAddr := (s.writeRegister offset v).dstAddr
        dstCap := (s.writeRegister offset v).dstCap
        arg := (s.writeRegister offset v).arg
        pending := (s.writeRegister offset v).pending } := by
  unfold State.writeRegister
  split <;> rfl

theorem writeRegister_pending (s : State) (offset : Nat) (v : Word) :
    (s.writeRegister offset v).pending = if offset = 0 then some v else s.pending := by
  unfold State.writeRegister
  split <;> simp_all

/-! ### What a command keeps -/

/-- TREE_BUILD's effect on the state touches the arena, the queue and the codebook alone. -/
theorem plantForest_eq (s : State) (f : Forest) :
    plantForest s f =
      { s with
        nodes := (plantForest s f).nodes
        root := (plantForest s f).root
        rootValid := (plantForest s f).rootValid
        queue := (plantForest s f).queue
        pqSeq := (plantForest s f).pqSeq
        codebook := (plantForest s f).codebook } := by
  unfold plantForest
  split <;> rfl

/-- The fields that no command but RESET writes. -/
def SameOperands (s t : State) : Prop :=
  t.cfg = s.cfg ∧ t.host = s.host ∧ t.replies = s.replies ∧ t.rst = s.rst ∧ t.ovr = s.ovr ∧ t.srcAddr = s.srcAddr ∧
  t.srcLen = s.srcLen ∧ t.dstAddr = s.dstAddr ∧ t.dstCap = s.dstCap ∧ t.arg = s.arg

theorem plantForest_sameOperands (s : State) (f : Forest) : SameOperands s (plantForest s f) := by
  rw [plantForest_eq]
  exact ⟨rfl, rfl, rfl, rfl, rfl, rfl, rfl, rfl, rfl, rfl⟩

theorem walkPayload_error {m : Memory} {nodes : List Node} {pay left pos i : Nat} {e : ErrCode}
    (h : walkPayload m nodes pay left pos i = .error e) : e = .truncatedPayload ∨ e = .undecodable := by
  induction left generalizing pos i with
  | zero =>
    simp only [walkPayload] at h
    split at h <;> cases h
    exact .inl rfl
  | succ left ih =>
    simp only [walkPayload] at h
    split at h
    · cases h; exact .inr rfl
    · split at h
      · split at h
        · cases h
        · next he => cases h; exact ih he
      · exact ih h

/-- The failures of a container before the capacity check (48_decoder.md R269). -/
theorem decodeContainer_error {m : Memory} {src len : Nat} {e : ErrCode} (h : decodeContainer m src len = .error e) :
    e = .malformedTable ∨ e = .truncatedPayload ∨ e = .undecodable := by
  unfold decodeContainer at h
  split at h
  · cases h; exact .inl rfl
  · split at h
    · cases h; exact .inl rfl
    · simp only at h
      split at h
      · cases h; exact .inr (.inl rfl)
      · split at h
        · next he => cases h; exact .inr (walkPayload_error he)
        · cases h

/-- An outcome that, if it is a next state, completes some state with some code, and that state has the operand
registers, the model's own fields and OVR as before. -/
def Ends (s : State) (o : Host.Outcome State Fault Refusal) : Prop :=
  ∀ t, o = .next t → ∃ u code, t = u.complete code ∧ SameOperands s u ∧ code ≠ .unknownSymbol

theorem Ends.of_complete {s u : State} {code : ErrCode} (h : SameOperands s u) (hc : code ≠ .unknownSymbol) :
    Ends s (.next (u.complete code)) := by
  intro t ht
  cases ht
  exact ⟨u, code, rfl, h, hc⟩

theorem Ends.of_fault {s : State} {f : Fault} : Ends s (.fault f) := by
  intro t ht
  cases ht

theorem execNop_ends (s : State) : Ends s (execNop s) := by
  unfold execNop
  exact .of_complete ⟨rfl, rfl, rfl, rfl, rfl, rfl, rfl, rfl, rfl, rfl⟩ (by decide)

theorem execFtClear_ends (s : State) : Ends s (execFtClear s) := by
  unfold execFtClear
  exact .of_complete ⟨rfl, rfl, rfl, rfl, rfl, rfl, rfl, rfl, rfl, rfl⟩ (by decide)

theorem execFtRecord_ends (sym : Byte) (s : State) : Ends s (execFtRecord sym s) := by
  unfold execFtRecord
  split
  · exact .of_complete ⟨rfl, rfl, rfl, rfl, rfl, rfl, rfl, rfl, rfl, rfl⟩ (by decide)
  · exact .of_complete ⟨rfl, rfl, rfl, rfl, rfl, rfl, rfl, rfl, rfl, rfl⟩ (by decide)

theorem execFtWrite_ends (sym : Byte) (s : State) : Ends s (execFtWrite sym s) := by
  unfold execFtWrite
  exact .of_complete ⟨rfl, rfl, rfl, rfl, rfl, rfl, rfl, rfl, rfl, rfl⟩ (by decide)

theorem execFtRead_ends (sym : Byte) (s : State) : Ends s (execFtRead sym s) := by
  unfold execFtRead
  exact .of_complete ⟨rfl, rfl, rfl, rfl, rfl, rfl, rfl, rfl, rfl, rfl⟩ (by decide)

theorem execFtScan_ends (s : State) : Ends s (execFtScan s) := by
  unfold execFtScan
  split
  · exact .of_complete ⟨rfl, rfl, rfl, rfl, rfl, rfl, rfl, rfl, rfl, rfl⟩ (by decide)
  split
  · exact .of_complete ⟨rfl, rfl, rfl, rfl, rfl, rfl, rfl, rfl, rfl, rfl⟩ (by decide)
  · exact .of_complete ⟨rfl, rfl, rfl, rfl, rfl, rfl, rfl, rfl, rfl, rfl⟩ (by decide)

theorem execPqClear_ends (s : State) : Ends s (execPqClear s) := by
  unfold execPqClear
  exact .of_complete ⟨rfl, rfl, rfl, rfl, rfl, rfl, rfl, rfl, rfl, rfl⟩ (by decide)

theorem execPqPush_ends (node : NodeIndex) (s : State) : Ends s (execPqPush node s) := by
  unfold execPqPush
  split
  · exact .of_complete ⟨rfl, rfl, rfl, rfl, rfl, rfl, rfl, rfl, rfl, rfl⟩ (by decide)
  split
  · exact .of_complete ⟨rfl, rfl, rfl, rfl, rfl, rfl, rfl, rfl, rfl, rfl⟩ (by decide)
  · exact .of_complete ⟨rfl, rfl, rfl, rfl, rfl, rfl, rfl, rfl, rfl, rfl⟩ (by decide)

theorem execPqPop_ends (s : State) : Ends s (execPqPop s) := by
  unfold execPqPop
  split
  · exact .of_complete ⟨rfl, rfl, rfl, rfl, rfl, rfl, rfl, rfl, rfl, rfl⟩ (by decide)
  · exact .of_complete ⟨rfl, rfl, rfl, rfl, rfl, rfl, rfl, rfl, rfl, rfl⟩ (by decide)

theorem execNodeRead_ends (index : NodeIndex) (s : State) : Ends s (execNodeRead index s) := by
  unfold execNodeRead
  split
  · exact .of_complete ⟨rfl, rfl, rfl, rfl, rfl, rfl, rfl, rfl, rfl, rfl⟩ (by decide)
  · exact .of_complete ⟨rfl, rfl, rfl, rfl, rfl, rfl, rfl, rfl, rfl, rfl⟩ (by decide)

theorem execCbGen_ends (s : State) : Ends s (execCbGen s) := by
  unfold execCbGen
  split
  · exact .of_fault
  · exact .of_complete ⟨rfl, rfl, rfl, rfl, rfl, rfl, rfl, rfl, rfl, rfl⟩ (by decide)

theorem execCbRead_ends (sym : Byte) (chunk : BitVec 16) (s : State) : Ends s (execCbRead sym chunk s) := by
  unfold execCbRead
  split
  · exact .of_complete ⟨rfl, rfl, rfl, rfl, rfl, rfl, rfl, rfl, rfl, rfl⟩ (by decide)
  · exact .of_complete ⟨rfl, rfl, rfl, rfl, rfl, rfl, rfl, rfl, rfl, rfl⟩ (by decide)

theorem execBpInit_ends (s : State) : Ends s (execBpInit s) := by
  unfold execBpInit
  split
  · exact .of_complete ⟨rfl, rfl, rfl, rfl, rfl, rfl, rfl, rfl, rfl, rfl⟩ (by decide)
  · exact .of_complete ⟨rfl, rfl, rfl, rfl, rfl, rfl, rfl, rfl, rfl, rfl⟩ (by decide)

theorem execBpPush_ends (bit : Byte) (s : State) : Ends s (execBpPush bit s) := by
  unfold execBpPush
  split
  · exact .of_complete ⟨rfl, rfl, rfl, rfl, rfl, rfl, rfl, rfl, rfl, rfl⟩ (by decide)
  split
  · exact .of_complete ⟨rfl, rfl, rfl, rfl, rfl, rfl, rfl, rfl, rfl, rfl⟩ (by decide)
  split
  · exact .of_fault
  · exact .of_complete ⟨rfl, rfl, rfl, rfl, rfl, rfl, rfl, rfl, rfl, rfl⟩ (by decide)

theorem execBpFinish_ends (s : State) : Ends s (execBpFinish s) := by
  unfold execBpFinish
  exact .of_complete ⟨rfl, rfl, rfl, rfl, rfl, rfl, rfl, rfl, rfl, rfl⟩ (by decide)

theorem execBrInit_ends (s : State) : Ends s (execBrInit s) := by
  unfold execBrInit
  split
  · exact .of_complete ⟨rfl, rfl, rfl, rfl, rfl, rfl, rfl, rfl, rfl, rfl⟩ (by decide)
  · exact .of_complete ⟨rfl, rfl, rfl, rfl, rfl, rfl, rfl, rfl, rfl, rfl⟩ (by decide)

theorem execBrNext_ends (s : State) : Ends s (execBrNext s) := by
  unfold execBrNext
  split
  · exact .of_complete ⟨rfl, rfl, rfl, rfl, rfl, rfl, rfl, rfl, rfl, rfl⟩ (by decide)
  · exact .of_complete ⟨rfl, rfl, rfl, rfl, rfl, rfl, rfl, rfl, rfl, rfl⟩ (by decide)
  · exact .of_complete ⟨rfl, rfl, rfl, rfl, rfl, rfl, rfl, rfl, rfl, rfl⟩ (by decide)
  · exact .of_fault

theorem execTreeBuild_ends (s : State) : Ends s (execTreeBuild s) := by
  unfold execTreeBuild
  split
  · exact .of_complete ⟨rfl, rfl, rfl, rfl, rfl, rfl, rfl, rfl, rfl, rfl⟩ (by decide)
  · obtain ⟨h1, h2, h3, h4, h5, h6, h7, h8, h9, h10⟩ := plantForest_sameOperands s (Forest.build s.freq)
    refine .of_complete ?_ (by decide)
    exact ⟨h1, h2, h3, h4, h5, h6, h7, h8, h9, h10⟩

theorem writeContainer_sameOperands (s : State) (payload size : Nat) (bits : List Bool) :
    SameOperands s (writeContainer s payload size bits) := by
  simp [SameOperands, writeContainer]

theorem countAndPlant_sameOperands (s : State) : SameOperands s s.countAndPlant := by
  have h := plantForest_sameOperands { s with freq := countsOf s.srcBytes } (Forest.build (countsOf s.srcBytes))
  simpa only [SameOperands, State.countAndPlant] using h

theorem encodeWithCodebook_ends {s u : State} (bytes : List Byte) (h : SameOperands s u) :
    Ends s (encodeWithCodebook u bytes) := by
  obtain ⟨h1, h2, h3, h4, h5, h6, h7, h8, h9, h10⟩ := h
  unfold encodeWithCodebook
  simp only
  split
  · exact .of_complete ⟨h1, h2, h3, h4, h5, h6, h7, h8, h9, h10⟩ (by decide)
  · split
    · exact .of_fault
    · next bits _ =>
      refine .of_complete ?_ (by decide)
      obtain ⟨k1, k2, k3, k4, k5, k6, k7, k8, k9, k10⟩ := writeContainer_sameOperands u
        (payloadLength u.freq u.codebook) (containerSize u.codebook (payloadLength u.freq u.codebook)) bits
      exact ⟨k1.trans h1, k2.trans h2, k3.trans h3, k4.trans h4, k5.trans h5, k6.trans h6, k7.trans h7, k8.trans h8,
        k9.trans h9, k10.trans h10⟩

theorem execEncRun_ends (s : State) : Ends s (execEncRun s) := by
  unfold execEncRun
  split
  · exact .of_complete ⟨rfl, rfl, rfl, rfl, rfl, rfl, rfl, rfl, rfl, rfl⟩ (by decide)
  split
  · exact .of_complete ⟨rfl, rfl, rfl, rfl, rfl, rfl, rfl, rfl, rfl, rfl⟩ (by decide)
  split
  · exact .of_complete ⟨rfl, rfl, rfl, rfl, rfl, rfl, rfl, rfl, rfl, rfl⟩ (by decide)
  split
  · exact .of_fault
  · next cb _ =>
    refine encodeWithCodebook_ends _ ?_
    have h := countAndPlant_sameOperands s
    simp only [SameOperands] at h ⊢
    exact h

theorem execDecRun_ends (s : State) : Ends s (execDecRun s) := by
  unfold execDecRun
  split
  · exact .of_complete ⟨rfl, rfl, rfl, rfl, rfl, rfl, rfl, rfl, rfl, rfl⟩ (by decide)
  split
  · exact .of_complete ⟨rfl, rfl, rfl, rfl, rfl, rfl, rfl, rfl, rfl, rfl⟩ (by decide)
  split
  · next e he =>
    refine .of_complete ⟨rfl, rfl, rfl, rfl, rfl, rfl, rfl, rfl, rfl, rfl⟩ ?_
    rcases decodeContainer_error he with h | h | h <;> subst h <;> decide
  · split
    · exact .of_complete ⟨rfl, rfl, rfl, rfl, rfl, rfl, rfl, rfl, rfl, rfl⟩ (by decide)
    · exact .of_complete ⟨rfl, rfl, rfl, rfl, rfl, rfl, rfl, rfl, rfl, rfl⟩ (by decide)

/-- What every command but RESET keeps (10_state.md R21, R24). -/
theorem exec_ends {i : Instr} (hi : i ≠ .reset) (s : State) : Ends s (exec i s) := by
  cases i
  case reset => exact absurd rfl hi
  case nop => exact execNop_ends s
  case ftClear => exact execFtClear_ends s
  case ftRecord sym => exact execFtRecord_ends sym s
  case ftWrite sym => exact execFtWrite_ends sym s
  case ftRead sym => exact execFtRead_ends sym s
  case ftScan => exact execFtScan_ends s
  case pqClear => exact execPqClear_ends s
  case pqPush node => exact execPqPush_ends node s
  case pqPop => exact execPqPop_ends s
  case treeBuild => exact execTreeBuild_ends s
  case nodeRead index => exact execNodeRead_ends index s
  case cbGen => exact execCbGen_ends s
  case cbRead sym chunk => exact execCbRead_ends sym chunk s
  case bpInit => exact execBpInit_ends s
  case bpPush bit => exact execBpPush_ends bit s
  case bpFinish => exact execBpFinish_ends s
  case brInit => exact execBrInit_ends s
  case brNext => exact execBrNext_ends s
  case encRun => exact execEncRun_ends s
  case decRun => exact execDecRun_ends s

end Sys2Proof.Machine
end

