-- ==== Sys2Proof/Tests/Slice0.lean ====
section
/-! SUPPORT. Tests: the legality checks, the decoding of words written out from 30_encoding.md R82, one step of each
command with the results of spec/95_test_vectors.md (the vector is named beside each test), and, for each obligation
with hypotheses, a concrete state and operands that meet all of them (`witness_<obligation>`). -/

namespace Sys2Proof.Tests

open Sys2Proof Sys2Proof.Machine

/-! ## Helpers -/

/-- The reset state with bytes at an address. -/
def holding (a : Nat) (bytes : List Byte) : State :=
  { State.reset with mem := Memory.writeBytes [] a bytes }

/-- A state with its source and destination regions. -/
def regions (s : State) (src len dst cap : Word) : State :=
  { s with srcAddr := src, srcLen := len, dstAddr := dst, dstCap := cap }

/-- The state an outcome leads to, the reset state if none. -/
def nextOf : Host.Outcome State Fault Refusal → State
  | .next t => t
  | .fault _ => State.reset
  | .refused _ => State.reset

/-- The outcome is a next state. -/
def isNext : Host.Outcome State Fault Refusal → Bool
  | .next _ => true
  | .fault _ => false
  | .refused _ => false

theorem eq_nextOf {o : Host.Outcome State Fault Refusal} (h : isNext o = true) : o = .next (nextOf o) := by
  cases o <;> first | rfl | cases h

/-- The outcome is a next state of which a test holds. -/
def gives (o : Host.Outcome State Fault Refusal) (test : State → Bool) : Bool := isNext o && test (nextOf o)

theorem of_gives {o : Host.Outcome State Fault Refusal} {test : State → Bool} (h : gives o test = true) :
    ∃ t, o = .next t ∧ test t = true :=
  ⟨nextOf o, eq_nextOf (Bool.and_eq_true_iff.1 h).1, (Bool.and_eq_true_iff.1 h).2⟩

/-- A table with the counts of a list of symbols. -/
def counted (cs : List (Byte × DWord)) : FreqTable :=
  FreqTable.tabulate fun s => ((cs.find? fun c => c.1 == s).map Prod.snd).getD 0

/-- V1.6: the textbook counts. -/
def textbook : State :=
  { State.reset with freq := counted [(0x41, 5), (0x42, 9), (0x43, 12), (0x44, 13), (0x45, 16), (0x46, 45)] }

/-- "abracadabra". -/
def abracadabra : List Byte := [0x61, 0x62, 0x72, 0x61, 0x63, 0x61, 0x64, 0x61, 0x62, 0x72, 0x61]

/-- P1: the container of "abracadabra". -/
def container : List Byte :=
  [0x05, 0x00, 0x61, 0x01, 0x00, 0x62, 0x03, 0x03, 0x63, 0x03, 0x01, 0x64, 0x03, 0x05, 0x72, 0x03, 0x07] ++
  [0x17, 0x00, 0x00, 0x00, 0x00, 0x00, 0x00, 0x00, 0x76, 0x51, 0x3B]

/-- P1 before ENC_RUN. -/
def beforeEncode : State := regions (holding 0 abracadabra) 0 11 0x100 64

/-- V2.9 before DEC_RUN: a container at 0x100, the output at 0x200. -/
def beforeDecode (bytes : List Byte) (len cap : Word) : State := regions (holding 0x100 bytes) 0x100 len 0x200 cap

/-- An arena of one Leaf as root. -/
def oneLeaf : State := { State.reset with nodes := [.leaf 0x61 3], rootValid := true }

/-- An arena of two leaves under a root. -/
def twoLeaves : State :=
  { State.reset with
    nodes := [.leaf 0x61 3, .leaf 0x62 4, .internal 7 (some 0) (some 1)]
    root := 2
    rootValid := true }

/-- A full queue: 256 entries. -/
def fullQueue : State :=
  { State.reset with
    queue := (List.range 256).map fun k => { weight := 1, seq := BitVec.ofNat 32 k, node := 0 }
    pqSeq := 256 }

/-! ## Legal operands (30_encoding.md R84) -/

theorem test_wellFormed_bpPush : Instr.wellFormed (.bpPush 2) = false ∧ Instr.wellFormed (.bpPush 1) = true := by
  decide

theorem test_wellFormed_cbRead :
    Instr.wellFormed (.cbRead 0x41 4) = false ∧ Instr.wellFormed (.cbRead 0x41 3) = true := by decide

/-! ## Decoding (30_encoding.md R82): the word's bits are written OPC, A, N -/

theorem test_decode_nop : decode 0b00000000_00000000_0000000000000000 = .ok .nop := by rfl
theorem test_decode_ftClear : decode 0b00010000_00000000_0000000000000000 = .ok .ftClear := by rfl
theorem test_decode_ftRecord : decode 0b00010001_01100001_0000000000000000 = .ok (.ftRecord 0x61) := by rfl
theorem test_decode_ftWrite : decode 0b00010010_01000110_0000000000000000 = .ok (.ftWrite 0x46) := by rfl
theorem test_decode_ftRead : decode 0b00010011_01100001_0000000000000000 = .ok (.ftRead 0x61) := by rfl
theorem test_decode_ftScan : decode 0b00010100_00000000_0000000000000000 = .ok .ftScan := by rfl
theorem test_decode_pqClear : decode 0b00100000_00000000_0000000000000000 = .ok .pqClear := by rfl
theorem test_decode_pqPush : decode 0b00100001_00000000_1000000000000111 = .ok (.pqPush 0x8007) := by rfl
theorem test_decode_pqPop : decode 0b00100010_00000000_0000000000000000 = .ok .pqPop := by rfl
theorem test_decode_treeBuild : decode 0b00110000_00000000_0000000000000000 = .ok .treeBuild := by rfl
theorem test_decode_nodeRead : decode 0b00110001_00000000_0000000000001010 = .ok (.nodeRead 10) := by rfl
theorem test_decode_cbGen : decode 0b01000000_00000000_0000000000000000 = .ok .cbGen := by rfl
theorem test_decode_cbRead : decode 0b01000001_01000001_0000000000000011 = .ok (.cbRead 0x41 3) := by rfl
theorem test_decode_bpInit : decode 0b01010000_00000000_0000000000000000 = .ok .bpInit := by rfl
theorem test_decode_bpPush : decode 0b01010001_00000001_0000000000000000 = .ok (.bpPush 1) := by rfl
theorem test_decode_bpFinish : decode 0b01010010_00000000_0000000000000000 = .ok .bpFinish := by rfl
theorem test_decode_brInit : decode 0b01100000_00000000_0000000000000000 = .ok .brInit := by rfl
theorem test_decode_brNext : decode 0b01100001_00000000_0000000000000000 = .ok .brNext := by rfl
theorem test_decode_encRun : decode 0b01110000_00000000_0000000000000000 = .ok .encRun := by rfl
theorem test_decode_decRun : decode 0b10000000_00000000_0000000000000000 = .ok .decRun := by rfl
theorem test_decode_reset : decode 0b11111111_00000000_0000000000000000 = .ok .reset := by rfl

/-- V2.10.2, V2.10.4, V2.1.12, V2.2.6, V2.5.6, V2.4.6: words that are no command. -/
theorem test_decode_illegal :
    decode 0x01000000 = .error (.reservedOpcode 0x01) ∧ decode 0x7F000000 = .error (.reservedOpcode 0x7F) ∧
    decode 0xFE000000 = .error (.reservedOpcode 0xFE) ∧ decode 0x00000001 = .error (.fieldCheck 0x00) ∧
    decode 0xFF000001 = .error (.fieldCheck 0xFF) ∧ decode 0x10000001 = .error (.fieldCheck 0x10) ∧
    decode 0x22010000 = .error (.fieldCheck 0x22) ∧ decode 0x51020000 = .error (.fieldCheck 0x51) ∧
    decode 0x41410004 = .error (.fieldCheck 0x41) := by
  refine ⟨?_, ?_, ?_, ?_, ?_, ?_, ?_, ?_, ?_⟩ <;> rfl

/-- The table's numbering of a word's bits is the word's own (30_encoding.md R80). -/
theorem test_decodeTableWord :
    decodeTableWord 32 0x12460000 = some (.ftWrite 0x46) ∧ decodeTableWord 32 0x51020000 = none ∧
    decodeTableWord 40 0x12460000 = none := by
  refine ⟨?_, ?_, ?_⟩ <;> rfl

/-! ## Commands, one step each -/

/-- V2.10.1 and V2.10.7: NOP clears ERR and leaves OVR. -/
theorem test_nop :
    gives (exec .nop { State.reset with err := .illegalCommand, ovr := true }) (fun t => t.status == 0x02) = true := by
  decide +kernel

/-- V2.1.1. -/
theorem test_ftClear :
    gives (exec .ftClear { State.reset with freq := counted [(0x61, 5)] }) (fun t => t.freq.get 0x61 == 0) = true := by
  decide +kernel

/-- V2.1.2. -/
theorem test_ftRecord :
    gives (exec (.ftRecord 0) { State.reset with freq := counted [(0, 1)] }) (fun t => t.freq.get 0 == 2) = true := by
  decide +kernel

/-- V2.1.6. -/
theorem test_ftRecord_overflow :
    gives (exec (.ftRecord 0x61) { State.reset with freq := counted [(0x61, 0xFFFFFFFFFFFFFFFF)] })
      (fun t => t.status == 0xB0 && t.freq.get 0x61 == 0xFFFFFFFFFFFFFFFF) = true := by decide +kernel

/-- V2.1.3. -/
theorem test_ftWrite :
    gives (exec (.ftWrite 0x46) { State.reset with arg := 45 })
      (fun t => t.freq.get 0x46 == 45 && t.freq.get 0x45 == 0) = true := by decide +kernel

/-- V2.1.4. -/
theorem test_ftRead :
    gives (exec (.ftRead 0x61) { State.reset with freq := counted [(0x61, 5)], res1 := 9 })
      (fun t => t.res0 == 5 && t.res1 == 9) = true := by decide +kernel

/-- V2.1.5. -/
theorem test_ftScan :
    gives (exec .ftScan (regions (holding 0 [0x61, 0x62, 0x63, 0x61]) 0 4 0 0))
      (fun t => t.freq.get 0x61 == 2 && t.freq.get 0x62 == 1 && t.freq.get 0x63 == 1 && t.freq.get 0x00 == 0) =
        true := by decide +kernel

/-- V2.1.8, V2.1.9, V2.1.11: regions at the end of MEM. -/
theorem test_ftScan_range :
    gives (exec .ftScan (regions State.reset 4090 7 0 0)) (fun t => t.status == 0x60) = true ∧
    (regions State.reset 4090 6 0 0).srcInRange = true ∧
    gives (exec .ftScan (regions State.reset 4097 0 0 0)) (fun t => t.status == 0x60) = true := by
  refine ⟨?_, ?_, ?_⟩ <;> decide +kernel

/-- V2.2.3. -/
theorem test_pqClear :
    gives (exec .pqClear { State.reset with queue := [⟨1, 3, 1⟩, ⟨1, 4, 1⟩, ⟨1, 6, 1⟩], pqSeq := 7 })
      (fun t => t.pqCount == 0 && t.pqSeq == 0) = true := by decide +kernel

/-- V2.2.1. -/
theorem test_pqPush :
    gives (exec (.pqPush 7) { State.reset with arg := 5 })
      (fun t => t.pqCount == 1 && t.pqSeq == 1 && t.queue == [⟨5, 0, 7⟩]) = true := by decide +kernel

/-- V2.2.4, V2.2.5. -/
theorem test_pqPush_full :
    gives (exec (.pqPush 0) fullQueue) (fun t => t.status == 0x90 && t.pqCount == 256 && t.pqSeq == 256) = true ∧
    gives (exec (.pqPush 0) { State.reset with pqSeq := 0xFFFFFFFF }) (fun t => t.status == 0x90) = true := by
  constructor <;> decide +kernel

/-- V2.2.2, the first and the third pop. -/
theorem test_pqPop :
    gives (exec .pqPop { State.reset with queue := [⟨5, 0, 7⟩, ⟨3, 1, 8⟩, ⟨5, 2, 9⟩, ⟨3, 3, 10⟩], pqSeq := 4 })
      (fun t => t.res0 == 3 && t.res1 == 0x0000000100000008) = true ∧
    gives (exec .pqPop { State.reset with queue := [⟨5, 0, 7⟩, ⟨5, 2, 9⟩], pqSeq := 4 })
      (fun t => t.res0 == 5 && t.res1 == 0x0000000000000007 && t.pqSeq == 4) = true := by
  constructor <;> decide +kernel

/-- V2.2.2, the fifth pop. -/
theorem test_pqPop_empty :
    gives (exec .pqPop { State.reset with res0 := 5 }) (fun t => t.status == 0xA0 && t.res0 == 5) = true := by
  decide +kernel

/-- V1.6, V2.3.1. -/
theorem test_treeBuild :
    gives (exec .treeBuild textbook) (fun t => decide (t.err = .ok ∧ t.ncount = 11 ∧ t.root = 10 ∧ t.pqSeq = 11 ∧
      t.res0 = 100 ∧ t.res1 = 6 ∧ t.nodes[6]? = some (.internal 14 (some 0) (some 1)) ∧
      t.nodes[9]? = some (.internal 55 (some 7) (some 8)) ∧
      t.nodes[10]? = some (.internal 100 (some 5) (some 9)))) = true := by decide +kernel

/-- V2.3.7, V2.3.8: the weight check at its boundary. -/
theorem test_treeBuild_overflow :
    gives (exec .treeBuild { State.reset with freq := counted [(0, 0x8000000000000000), (1, 0x8000000000000000)] })
      (fun t => t.status == 0xB0) = true ∧
    gives (exec .treeBuild { State.reset with freq := counted [(0, 0x8000000000000000), (1, 0x7FFFFFFFFFFFFFFF)] })
      (fun t => t.res0 == 0xFFFFFFFFFFFFFFFF && t.ncount == 3) = true := by
  constructor <;> decide +kernel

/-- V1.6: the record words of NODE_READ. -/
theorem test_nodeRead :
    gives (exec (.nodeRead 1) { State.reset with nodes := [.leaf 0x41 5, .internal 55 (some 7) (some 8)] })
      (fun t => t.res0 == 55 && t.res1 == 0x0000060000080007) = true ∧
    gives (exec (.nodeRead 0) { State.reset with nodes := [.leaf 0x41 5] })
      (fun t => t.res0 == 5 && t.res1 == 0x0000014100000000) = true := by
  constructor <;> decide +kernel

/-- V2.3.3: an index that is not allocated. -/
theorem test_nodeRead_badIndex :
    gives (exec (.nodeRead 1) { State.reset with nodes := [.leaf 0x41 5], res0 := 7 })
      (fun t => t.status == 0xC0 && t.res0 == 7) = true := by decide +kernel

/-- V1.6, V2.4.1: A = 1100, so CB_LEN = 4 and CB_BITS = 3; F = 0; E = 111. -/
theorem test_cbGen :
    gives (exec .cbGen { State.reset with
        nodes := [.leaf 0x41 5, .leaf 0x42 9, .leaf 0x43 12, .leaf 0x44 13, .leaf 0x45 16, .leaf 0x46 45,
          .internal 14 (some 0) (some 1), .internal 25 (some 2) (some 3), .internal 30 (some 6) (some 4),
          .internal 55 (some 7) (some 8), .internal 100 (some 5) (some 9)]
        root := 10
        rootValid := true })
      (fun t => t.res0 == 6 && t.res1 == 4 && t.codebook.get 0x41 == ⟨true, 4, 3⟩ &&
        t.codebook.get 0x46 == ⟨true, 1, 0⟩ && t.codebook.get 0x45 == ⟨true, 3, 7⟩) = true := by decide +kernel

/-- V2.4.7, V2.4.8: no tree, and a tree of one Leaf. -/
theorem test_cbGen_small :
    (generateCodebook State.reset).map (fun cb => cb.get 0x61) = some ⟨false, 0, 0⟩ ∧
    (generateCodebook oneLeaf).map (fun cb => cb.get 0x61) = some ⟨true, 1, 0⟩ := by
  constructor <;> decide +kernel

/-- V2.4.2, V2.4.4. -/
theorem test_cbRead :
    gives (exec (.cbRead 0x41 0) { State.reset with codebook := Codebook.put emptyCodebook 0x41 ⟨true, 4, 3⟩ })
      (fun t => t.res0 == 0x3 && t.res1 == 0x104) = true ∧
    gives (exec (.cbRead 0x47 0) { State.reset with res0 := 1 }) (fun t => t.res0 == 0 && t.res1 == 0) = true := by
  constructor <;> decide +kernel

/-- V2.9.23: the chunks of a code of 255 ones. -/
theorem test_cbRead_chunk :
    gives (exec (.cbRead 0x79 3)
      { State.reset with codebook := Codebook.put emptyCodebook 0x79 ⟨true, 255, BitVec.ofNat 256 (2 ^ 255 - 1)⟩ })
      (fun t => t.res0 == 0x7FFFFFFFFFFFFFFF && t.res1 == 0x1FF) = true := by decide +kernel

/-- V2.5.1. -/
theorem test_bpInit :
    gives (exec .bpInit { State.reset with dstAddr := 0x40, dstCap := 4, bpBitcnt := 3 })
      (fun t => t.bpBase == 0x40 && t.bpCap == 4 && t.bpBitcnt == 0) = true := by decide +kernel

/-- V2.5.8. -/
theorem test_bpInit_range :
    gives (exec .bpInit { State.reset with dstAddr := 4095, dstCap := 2 }) (fun t => t.status == 0x60) = true := by
  decide +kernel

/-- V2.5.7, and the fourth push of V2.5.2: 1, 0, 1 is 05, and one more 1 makes it 0D. -/
theorem test_bpPush :
    gives (exec (.bpPush 1) { holding 0x40 [0xAA] with bpBase := 0x40, bpCap := 1 })
      (fun t => t.mem.read 0x40 == 0x01 && t.bpBitcnt == 1) = true ∧
    gives (exec (.bpPush 1) { holding 0x40 [0x05] with bpBase := 0x40, bpCap := 1, bpBitcnt := 3 })
      (fun t => t.mem.read 0x40 == 0x0D && t.bpBitcnt == 4) = true := by
  constructor <;> decide +kernel

/-- V2.5.5, the ninth push. -/
theorem test_bpPush_full :
    gives (exec (.bpPush 1) { holding 0x40 [0xFF] with bpBase := 0x40, bpCap := 1, bpBitcnt := 8 })
      (fun t => t.status == 0x80 && t.bpBitcnt == 8 && t.mem.read 0x40 == 0xFF) = true := by decide +kernel

/-- V2.5.3. -/
theorem test_bpFinish :
    gives (exec .bpFinish { State.reset with bpCap := 4, bpBitcnt := 9 })
      (fun t => t.res0 == 9 && t.res1 == 2 && t.bpBitcnt == 9) = true := by decide +kernel

/-- V2.6.1, line 1. -/
theorem test_brInit :
    gives (exec .brInit { State.reset with srcAddr := 0x40, srcLen := 2, arg := 9, brPos := 5 })
      (fun t => t.brBase == 0x40 && t.brBytes == 2 && t.brLimit == 9 && t.brPos == 0) = true := by decide +kernel

/-- V2.6.1, the fourth read, and V2.6.4. -/
theorem test_brNext :
    gives (exec .brNext { holding 0x40 [0x0D, 0x01] with brBase := 0x40, brBytes := 2, brLimit := 9, brPos := 3 })
      (fun t => t.status == 0x08 && t.brPos == 4) = true ∧
    gives (exec .brNext State.reset) (fun t => t.status == 0x04 && t.brPos == 0) = true := by
  constructor <;> decide +kernel

/-- V2.6.2, the last read. -/
theorem test_brNext_truncated :
    gives (exec .brNext { holding 0x40 [0x0D, 0x01] with brBase := 0x40, brBytes := 2, brLimit := 17, brPos := 16 })
      (fun t => t.status == 0x20 && t.brPos == 16) = true := by decide +kernel

/-- P1. -/
theorem test_encRun :
    gives (exec .encRun beforeEncode) (fun t => decide (t.err = .ok ∧ t.mem.readBytes 0x100 29 = container ++ [0x00] ∧
      t.outLen = 28 ∧ t.res0 = 23 ∧ t.res1 = 5 ∧ t.bpBase = 0x119 ∧ t.bpCap = 3 ∧ t.bpBitcnt = 23 ∧ t.root = 8 ∧
      t.pqSeq = 9 ∧ t.mem.wf = true ∧ t.cfg = Config.testVectors)) = true := by decide +kernel

/-- P2. -/
theorem test_decRun :
    gives (exec .decRun (beforeDecode container 28 64)) (fun t => t.mem.readBytes 0x200 12 == abracadabra ++ [0x00] &&
      t.outLen == 11 && t.res0 == 23 && t.res1 == 28 && t.brBase == 0x119 && t.brPos == 23 && t.ncount == 9 &&
      t.nodes[2]? == some (.internal 0 (some 5) (some 3))) = true := by decide +kernel

/-- V1.7, V2.9.8, V2.9.15. -/
theorem test_decRun_errors :
    gives (exec .decRun (beforeDecode [2, 0, 0x41, 1, 0, 0x42, 2, 2, 0, 0, 0, 0, 0, 0, 0, 0] 16 16))
      (fun t => t.status == 0x10 && t.ncount == 0 && t.cbCount == 0 && t.outLen == 0) = true ∧
    gives (exec .decRun (beforeDecode container 27 64)) (fun t => t.status == 0x20) = true ∧
    gives (exec .decRun (beforeDecode [1, 0, 0x61, 1, 0, 4, 0, 0, 0, 0, 0, 0, 0, 1] 14 64))
      (fun t => t.status == 0x40) = true := by
  refine ⟨?_, ?_, ?_⟩ <;> decide +kernel

/-- V2.10.3. -/
theorem test_reset :
    gives (exec .reset { textbook with ovr := true, nodes := [.leaf 0x41 5], mem := [(3, 9)] })
      (fun t => t.status == 0x00 && t.ncount == 0 && t.freq.get 0x46 == 0 && t.mem.read 3 == 9) = true := by
  decide +kernel

/-! ## The host's side, one step each -/

/-- V2.10.2: an illegal word completes with ILLEGAL_COMMAND. -/
theorem test_step_illegal :
    gives (step (State.reset.awaitCompletion 0x7F000000)) (fun t => t.status == 0x50) = true := by decide +kernel

/-- V2.10.5: a write of SRC_LEN inside the BUSY window is dropped, and STATUS reads 0x03. -/
theorem test_step_dropped :
    gives (step { State.reset with
        pending := some 0x70000000
        srcLen := 11
        host := [{ move := .writeReg .word 0x0C 0, inBusy := true }] })
      (fun t => t.srcLen == 11 && t.status == 0x03 && t.pending == some 0x70000000) = true := by decide +kernel

/-- P5 line 6: `ISSUE 0x01000000` opens the window (60_exceptions.md R300). -/
theorem test_step_issue :
    gives (step { State.reset with host := [quietMove (.writeReg .word 0x00 0x01000000)] })
      (fun t => t.pending == some 0x01000000 && t.status == 0x01) = true := by decide +kernel

/-- The example of 30_encoding.md R86, and V2.4.6 and V2.5.6: words that the field check refuses. -/
theorem test_assemble :
    assemble "CB_READ" [.char 'A', .number 2] = some 0x41410002 ∧
    assemble "CB_READ" [.char 'A', .number 4] = some 0x41410004 ∧ assemble "BP_PUSH" [.number 2] = some 0x51020000 := by
  decide +kernel

/-! ## Witnesses: for each obligation with hypotheses, states and operands that meet all of them

Where an obligation has several clauses, each clause has its witness, at the ends of its range. -/

theorem witness_EncodeThenDecode :
    Instr.WellFormed (.bpPush 1) ∧ Instr.WellFormed (.cbRead 255 3) ∧ Instr.WellFormed (.nodeRead 65535) := by decide

theorem witness_DecodeThenEncode : decode 0x4141_0003 = .ok (.cbRead 0x41 3) := by rfl

/-- The first and the last reserved opcode. -/
theorem witness_ReservedOpcodeIsIllegal :
    (State.reset.awaitCompletion 0x01000000).turn = .completion 0x01000000 ∧ wordOpc 0x01000000 ∉ definedOpcodes ∧
    (State.reset.awaitCompletion 0xFEFFFFFF).turn = .completion 0xFEFFFFFF ∧ wordOpc 0xFEFFFFFF ∉ definedOpcodes := by
  decide +kernel

/-- Both sides of the field conditions (c) and (d). -/
theorem witness_FieldCheckDecidesLegality :
    (State.reset.awaitCompletion 0x51010000).turn = .completion 0x51010000 ∧ wordOpc 0x51010000 ∈ definedOpcodes ∧
    legalFields 0x51010000 ∧ ¬ legalFields 0x51020000 ∧ legalFields 0x41FF0003 ∧ ¬ legalFields 0x41FF0004 ∧
    ¬ legalFields 0x00010000 ∧ ¬ legalFields 0xFF000001 := by
  unfold legalFields
  refine ⟨?_, ?_, ?_, ?_, ?_, ?_, ?_, ?_⟩ <;> decide +kernel

theorem witness_StepRunsTheDecodedCommand :
    (∃ s : State, s.pending = some 0x00000000 ∧ s.rst = false ∧ (∀ e ∈ s.host.head?, e.inBusy = false) ∧
      decode 0x00000000 = .ok .nop) ∧
    (∃ (s : State) (e : HostEvent), s.host = e :: [] ∧ s.pending = none) ∧
    (∃ (s : State) (e : HostEvent), s.host = e :: [] ∧ e.inBusy = true ∧ s.pending = some 0) ∧
    (State.reset.host = [] ∧ State.reset.pending = none) :=
  ⟨⟨State.reset.awaitCompletion 0, rfl, rfl, by simp [State.awaitCompletion, State.reset, State.powerOn], rfl⟩,
    ⟨{ State.reset with host := [busyPoll] }, busyPoll, rfl, rfl⟩,
    ⟨{ State.reset with host := [busyPoll], pending := some 0 }, busyPoll, rfl, rfl, rfl⟩, rfl, rfl⟩

theorem witness_CompletionEndsTheWindow : exec .nop State.reset = .next (nextOf (exec .nop State.reset)) := rfl

theorem witness_IssueIsTheOnlyStart :
    (State.reset.busy = false ∧ State.reset.rst = false) ∧
    ∃ s t : State, step s = .next t ∧ s.pending ≠ some 0x00000000 ∧ t.pending = some 0x00000000 :=
  ⟨⟨rfl, rfl⟩, { State.reset with host := [quietMove (.writeReg .word 0x00 0)] }, { State.reset with pending := some 0 },
    rfl, by decide +kernel, rfl⟩

/-- The highest offset and address; a step inside the window; and a set OVR that the reset input clears. -/
theorem witness_WritesWhileBusyAreDropped :
    (∃ s : State, s.busy = true ∧ s.rst = false ∧ 4095 < s.cfg.memBytes ∧ 0xFC % 4 = 0 ∧ 0xFC < 0x100) ∧
    (∃ s t : State, step s = .next t ∧ s.busy = true ∧ t.busy = true) ∧
    ∃ s t : State, step s = .next t ∧ s.ovr = true ∧ t.ovr = false :=
  ⟨⟨State.reset.awaitCompletion 0, rfl, rfl, by decide +kernel, rfl, by decide⟩,
    ⟨{ State.reset with pending := some 0, host := [busyPoll] }, _, rfl, rfl, rfl⟩,
    { State.reset with ovr := true, host := [quietMove (.rst true)] }, _, rfl, rfl, rfl⟩

/-- The reserved offsets 0xFC and 0x58 and the read-only STATUS and RES0_LO. -/
theorem witness_OperandRegisterWrites :
    State.reset.busy = false ∧ State.reset.rst = false ∧ (1 = 1 ∨ 8 ≤ 1) ∧ 1 < 64 ∧ (8 = 1 ∨ 8 ≤ 8) ∧ 63 < 64 :=
  ⟨rfl, rfl, by decide, by decide, by decide, by decide⟩

theorem witness_RegisterWindowReads : State.reset.rst = false ∧ 0 < 64 ∧ 63 < 64 ∧ 22 ≤ 22 := by decide +kernel

/-- A step inside the window, the last byte of MEM and the first address beyond it. -/
theorem witness_HostMemoryPort :
    (∃ s t : State, step s = .next t ∧ s.busy = true ∧ t.busy = true) ∧ State.reset.rst = false ∧ 4095 < State.reset.cfg.memBytes ∧ State.reset.cfg.memBytes ≤ 4096 ∧
    State.reset.busy = false ∧ State.reset.mem.wf = true ∧ (State.reset.awaitCompletion 0).busy = true :=
  ⟨⟨{ State.reset with pending := some 0, host := [busyPoll] }, _, rfl, rfl, rfl⟩, by decide +kernel⟩

theorem witness_AccessesNotAdmitted :
    (State.reset.rst = false ∧ AccessWidth.half ≠ .word ∧ 0x01 % 4 ≠ 0 ∧ 0x100 ≤ 0x100) ∧
    ∃ s : State, s.rst = true ∧ ∀ b, HostMove.readMem 0 ≠ .rst b :=
  ⟨by decide +kernel, { State.reset with rst := true }, rfl, by simp⟩

theorem witness_ResetCommandClearsTheBlock :
    (State.reset.awaitCompletion 0xFF000001).turn = .completion 0xFF000001 ∧ wordOpc 0xFF000001 = 0xFF ∧
    wordN 0xFF000001 ≠ 0 ∧ wordOpc 0xFF010000 = 0xFF ∧ wordA 0xFF010000 ≠ 0 := by decide +kernel

/-- The counts 2^64 - 1 and 2^64 - 2. -/
theorem witness_FtRecordCountsOneByte :
    ((counted [(0x61, 0xFFFFFFFFFFFFFFFF)]).get 0x61).toNat = 2 ^ 64 - 1 ∧
    ((counted [(0x61, 0xFFFFFFFFFFFFFFFE)]).get 0x61).toNat ≠ 2 ^ 64 - 1 := by decide +kernel

/-- V2.1.8, V2.1.7 and V2.1.9. -/
theorem witness_FtScanAddsTheByteCounts :
    (∃ s : State, s.cfg.memBytes < s.srcAddr.toNat + s.srcLen.toNat) ∧
    (∃ s : State, s.srcAddr.toNat + s.srcLen.toNat ≤ s.cfg.memBytes ∧
      ∃ c, 2 ^ 64 - 1 < (s.freq.get c).toNat + sourceCount s c) ∧
    (∃ s : State, s.srcAddr.toNat + s.srcLen.toNat = s.cfg.memBytes ∧
      ∀ c, (s.freq.get c).toNat + sourceCount s c ≤ 2 ^ 64 - 1) := by
  refine ⟨⟨regions State.reset 4090 7 0 0, by decide +kernel⟩,
    ⟨{ regions (holding 0 [0x61]) 0 1 0 0 with freq := counted [(0x61, 0xFFFFFFFFFFFFFFFF)] }, by decide +kernel, 0x61,
      by decide +kernel⟩,
    ⟨regions State.reset 4090 6 0 0, by decide +kernel, fun c => ?_⟩⟩
  have h : sourceCount (regions State.reset 4090 6 0 0) c ≤ 6 :=
    (Finset.card_filter_le _ _).trans (by simp [regions])
  have h0 : (regions State.reset 4090 6 0 0).freq.get c = 0 := by
    simp [regions, State.reset, State.powerOn, FreqTable.get]
  rw [h0]
  exact Nat.le_trans (Nat.add_le_add (Nat.le_refl _) h) (by decide)

theorem witness_PqPushAddsOneEntry :
    fullQueue.queue.length = 256 ∧ (fullQueue.queue.drop 1).length ≠ 256 ∧ fullQueue.pqSeq.toNat ≠ 2 ^ 32 - 1 ∧
    (0xFFFFFFFF#32).toNat = 2 ^ 32 - 1 ∧ (0xFFFFFFFE#32).toNat ≠ 2 ^ 32 - 1 := by decide +kernel

theorem witness_PqPopTakesTheLeastKey : State.reset.queue = [] ∧ fullQueue.queue ≠ [] := by decide +kernel

theorem witness_TreeBuildEdgeCases :
    2 ^ 64 - 1 < (counted [(0, 0x8000000000000000), (1, 0x8000000000000000)]).total ∧
    (∀ c, State.reset.freq.get c = 0) :=
  ⟨by decide +kernel, fun c => by simp [State.reset, State.powerOn, FreqTable.get]⟩

/-- One symbol. -/
theorem witness_TreeBuildShape :
    (counted [(0, 3)]).total ≤ 2 ^ 64 - 1 ∧ (allSymbols.filter fun c => (counted [(0, 3)]).get c != 0).length = 1 := by
  decide +kernel

/-- The textbook tree, and its first and last Internal node. -/
theorem witness_TreeBuildNodes :
    ∃ t, exec .treeBuild textbook = .next t ∧ t.err = .ok ∧
      t.nodes[6]? = some (.internal 14 (some 0) (some 1)) ∧ t.nodes[10]? = some (.internal 100 (some 5) (some 9)) :=
  have ⟨t, h, ht⟩ := of_gives test_treeBuild
  have h2 := of_decide_eq_true ht
  ⟨t, h, h2.1, h2.2.2.2.2.2.2.1, h2.2.2.2.2.2.2.2.2⟩

/-- One entry, and two of equal weight. -/
theorem witness_CombinationTakesTheTwoLeast :
    (∃ f : Forest, f.queue.length = 1) ∧ (∃ f : Forest, f.queue.length = 2 ∧ f.nodes.length = 2) :=
  ⟨⟨{ nodes := [.leaf 1 5], queue := [⟨5, 0, 0⟩], seq := 1 }, rfl⟩,
    ⟨{ nodes := [.leaf 1 5, .leaf 2 5], queue := [⟨5, 0, 0⟩, ⟨5, 1, 1⟩], seq := 2 }, rfl, rfl⟩⟩

theorem witness_RootWeightIsTheSumOfCounts :
    ∃ t, exec .treeBuild textbook = .next t ∧ t.err = .ok ∧ ∃ c, textbook.freq.get c ≠ 0 :=
  have ⟨t, h, ht⟩ := of_gives test_treeBuild
  ⟨t, h, (of_decide_eq_true ht).1, 0x41, by decide +kernel⟩

theorem treeBuild_isNext (s : State) : isNext (exec .treeBuild s) = true := by
  simp only [exec, execTreeBuild]
  split <;> rfl

/-- Two states that differ outside FREQ. -/
theorem witness_TreeBuildDependsOnFreqOnly :
    ∃ t t', textbook.freq = { textbook with arg := 7, nodes := [.leaf 1 1] }.freq ∧
      exec .treeBuild textbook = .next t ∧
      exec .treeBuild { textbook with arg := 7, nodes := [.leaf 1 1] } = .next t' ∧ t.err = .ok :=
  have ⟨t, h, ht⟩ := of_gives test_treeBuild
  ⟨t, _, rfl, h, eq_nextOf (treeBuild_isNext _), (of_decide_eq_true ht).1⟩

/-- NCOUNT - 1 and NCOUNT. -/
theorem witness_NodeReadReportsARecord :
    twoLeaves.nodes[(2#16).toNat]? = some (.internal 7 (some 0) (some 1)) ∧
    twoLeaves.nodes.length ≤ (3#16).toNat := by decide +kernel

theorem oneLeaf_child (i : Nat) (b : Bool) : childOf oneLeaf.nodes i b = none := by
  rcases i with _ | i <;> simp [childOf, oneLeaf, Node.child]

theorem twoLeaves_child {i : Nat} {b : Bool} {j : NodeIndex} (h : childOf twoLeaves.nodes i b = some j) :
    i = 2 ∧ j.toNat < 2 := by
  rcases i with _ | _ | _ | i
  · simp [childOf, twoLeaves, Node.child] at h
  · simp [childOf, twoLeaves, Node.child] at h
  · cases b
    · have : some (0#16) = some j := h
      cases this
      decide
    · have : some (1#16) = some j := h
      cases this
      decide
  · simp [childOf, twoLeaves] at h

theorem oneLeaf_arenaOk : oneLeaf.ArenaOk := by
  refine ⟨⟨by decide, ?_, .inl ?_, fun _ => ⟨by decide, ?_⟩⟩, ⟨?_, ?_⟩, .inl ⟨?_, ?_⟩⟩
  · intro i b j h; rw [oneLeaf_child] at h; cases h
  · intro i b j h; rw [oneLeaf_child] at h; cases h
  · intro c hc
    rcases c with _ | ⟨b, c⟩
    · cases hc
    · rw [followPath, oneLeaf_child]
  · intro i b i' b' j h; rw [oneLeaf_child] at h; cases h
  · intro k hk
    obtain rfl : k = 0 := Nat.lt_one_iff.1 hk
    refine ⟨fun h => absurd rfl h, ?_⟩
    rintro ⟨i, b, j, h, -⟩
    rw [oneLeaf_child] at h
    cases h
  · intro i b j h; rw [oneLeaf_child] at h; cases h
  · intro i w l r h
    rcases i with _ | i <;> simp [oneLeaf] at h

theorem twoLeaves_arenaOk : twoLeaves.ArenaOk := by
  refine ⟨⟨by decide, ?_, .inl ?_, fun _ => ⟨by decide, ?_⟩⟩, ⟨?_, ?_⟩, .inl ⟨?_, ?_⟩⟩
  · intro i b j h
    have := (twoLeaves_child h).2
    have e : twoLeaves.nodes.length = 3 := rfl
    omega
  · intro i b j h
    have := twoLeaves_child h
    omega
  · intro c hc
    rcases c with _ | ⟨b, c⟩
    · cases hc
    · rw [followPath]
      split
      · rfl
      · next j hj =>
        rcases c with _ | ⟨b', c⟩
        · cases hc
        · rw [followPath]
          split
          · rfl
          · next k hk =>
            have h1 := (twoLeaves_child hk).1
            have h2 := (twoLeaves_child hj).2
            omega
  · intro i b i' b' j h h'
    obtain ⟨rfl, -⟩ := twoLeaves_child h
    obtain ⟨rfl, -⟩ := twoLeaves_child h'
    refine ⟨rfl, ?_⟩
    cases b <;> cases b' <;> first | rfl | (simp [childOf, twoLeaves, Node.child] at h h'; rw [← h] at h'; cases h')
  · intro k hk
    have hk : k < 3 := hk
    obtain rfl | rfl | rfl : k = 0 ∨ k = 1 ∨ k = 2 := by omega
    · exact ⟨fun _ => ⟨2, false, 0, rfl, rfl⟩, fun _ => by decide⟩
    · exact ⟨fun _ => ⟨2, true, 1, rfl, rfl⟩, fun _ => by decide⟩
    · refine ⟨fun h => absurd rfl h, ?_⟩
      rintro ⟨i, b, j, h, e⟩
      have := (twoLeaves_child h).2
      omega
  · intro i b j h
    have := twoLeaves_child h
    omega
  · intro i w l r h
    rcases i with _ | _ | _ | i <;> simp [twoLeaves] at h
    obtain ⟨rfl, rfl, rfl⟩ := h
    exact ⟨0, 1, .leaf 0x61 3, .leaf 0x62 4, rfl, rfl, rfl, rfl, rfl⟩

theorem reset_childless (i : Nat) (b : Bool) : childOf State.reset.nodes i b = none := by
  simp [childOf, State.reset, State.powerOn]

theorem reset_arenaOk : State.reset.ArenaOk := by
  refine ⟨⟨by decide, ?_, .inl ?_, ?_⟩, ⟨?_, ?_⟩, .inl ⟨?_, ?_⟩⟩
  · intro i b j h; rw [reset_childless] at h; cases h
  · intro i b j h; rw [reset_childless] at h; cases h
  · intro h; cases h
  · intro i b i' b' j h; rw [reset_childless] at h; cases h
  · intro k hk; cases hk
  · intro i b j h; rw [reset_childless] at h; cases h
  · intro i w l r h; simp [State.reset, State.powerOn] at h

/-- No tree, a root that is a Leaf, and a root that is an Internal node. -/
theorem witness_CbGenAssignsThePaths :
    (State.reset.LinksOk ∧ State.reset.rootValid = false) ∧
    (oneLeaf.LinksOk ∧ oneLeaf.rootValid = true ∧ oneLeaf.nodes[oneLeaf.root.toNat]? = some (.leaf 0x61 3)) ∧
    (twoLeaves.LinksOk ∧ twoLeaves.rootValid = true ∧
      twoLeaves.nodes[twoLeaves.root.toNat]? = some (.internal 7 (some 0) (some 1))) :=
  ⟨⟨reset_arenaOk.1, rfl⟩, ⟨oneLeaf_arenaOk.1, rfl, rfl⟩, ⟨twoLeaves_arenaOk.1, rfl, rfl⟩⟩

theorem witness_CodesArePrefixFree :
    ∃ t, exec .cbGen twoLeaves = .next t ∧ (0x61 : Byte) ≠ 0x62 ∧ t.codebook.codeOf 0x61 = some [false] ∧
      t.codebook.codeOf 0x62 = some [true] :=
  ⟨_, eq_nextOf (by decide +kernel), by decide +kernel⟩

/-- n = 1 and n = 2. -/
theorem witness_CodesAreComplete :
    (∃ t u, exec .treeBuild { State.reset with freq := counted [(0, 3)] } = .next t ∧ t.err = .ok ∧
      exec .cbGen t = .next u ∧ 1 = (allSymbols.filter fun c => (counted [(0, 3)]).get c != 0).length) ∧
    (∃ t u, exec .treeBuild { State.reset with freq := counted [(0, 3), (9, 1)] } = .next t ∧ t.err = .ok ∧
      exec .cbGen t = .next u ∧ 2 = (allSymbols.filter fun c => (counted [(0, 3), (9, 1)]).get c != 0).length) :=
  ⟨⟨_, _, eq_nextOf (by decide +kernel), by decide +kernel, eq_nextOf (by decide +kernel), by decide +kernel⟩,
    ⟨_, _, eq_nextOf (by decide +kernel), by decide +kernel, eq_nextOf (by decide +kernel), by decide +kernel⟩⟩

theorem witness_CbReadReportsAnEntry :
    (0#16).toNat ≤ 3 ∧ (3#16).toNat ≤ 3 ∧ (State.reset.codebook.get 0x47).valid = false ∧
    (State.reset.codebook.get 0x47).Ok := by
  unfold CbEntry.Ok
  decide +kernel

/-- Regions that end at MEM_BYTES and one byte beyond. -/
theorem witness_PackerAndReaderInit :
    (∃ s : State, s.cfg.memBytes + 1 = s.dstAddr.toNat + s.dstCap.toNat ∧
      s.cfg.memBytes + 1 = s.srcAddr.toNat + s.srcLen.toNat) ∧
    (∃ s : State, s.dstAddr.toNat + s.dstCap.toNat = s.cfg.memBytes ∧
      s.srcAddr.toNat + s.srcLen.toNat = s.cfg.memBytes) :=
  ⟨⟨regions State.reset 4090 7 4095 2, by decide +kernel⟩, ⟨regions State.reset 4090 6 4095 1, by decide +kernel⟩⟩

/-- A full buffer, the first bit of a byte and the last. -/
theorem witness_BpPushPacksOneBit :
    (∃ s : State, (1#8).toNat ≤ 1 ∧ s.mem.wf = true ∧ s.PackerOk ∧ s.bpBitcnt.toNat = 8 * s.bpCap.toNat) ∧
    (∃ s : State, s.mem.wf = true ∧ s.PackerOk ∧ s.bpBitcnt.toNat ≠ 8 * s.bpCap.toNat ∧ s.bpBitcnt.toNat % 8 = 0) ∧
    (∃ s : State, s.mem.wf = true ∧ s.PackerOk ∧ s.bpBitcnt.toNat ≠ 8 * s.bpCap.toNat ∧ s.bpBitcnt.toNat % 8 = 7) := by
  unfold State.PackerOk
  exact ⟨⟨{ State.reset with bpCap := 1, bpBitcnt := 8 }, by decide +kernel⟩,
    ⟨{ State.reset with bpCap := 1 }, by decide +kernel⟩,
    ⟨{ State.reset with bpCap := 1, bpBitcnt := 7 }, by decide +kernel⟩⟩

/-- Exhausted, out of bytes (V2.6.2), and the last bit of the buffer. -/
theorem witness_BrNextReadsOneBit :
    (∃ s : State, s.ReaderOk ∧ s.brPos = s.brLimit) ∧
    (∃ s : State, s.ReaderOk ∧ s.brPos ≠ s.brLimit ∧ s.brBytes.toNat = s.brPos.toNat / 8) ∧
    (∃ s : State, s.ReaderOk ∧ s.brPos ≠ s.brLimit ∧ s.brPos.toNat / 8 + 1 = s.brBytes.toNat) := by
  unfold State.ReaderOk
  exact ⟨⟨State.reset, by decide +kernel⟩,
    ⟨{ State.reset with brBytes := 2, brLimit := 17, brPos := 16 }, by decide +kernel⟩,
    ⟨{ State.reset with brBytes := 2, brLimit := 17, brPos := 15 }, by decide +kernel⟩⟩

/-- The last byte of MEM as the buffer. -/
def smallBuffer : State := { State.reset with dstAddr := 4095, dstCap := 1 }

/-- The state after two pushes into it. -/
def packed : State :=
  (runOk (.bpInit :: [true, false].map fun b => .bpPush (if b then 1 else 0)) smallBuffer).getD State.reset

theorem runOk_packed :
    runOk (.bpInit :: [true, false].map fun b => .bpPush (if b then 1 else 0)) smallBuffer = some packed := by
  have h : (runOk (.bpInit :: [true, false].map fun b => .bpPush (if b then 1 else 0)) smallBuffer).isSome = true := by
    decide +kernel
  obtain ⟨t, ht⟩ := Option.isSome_iff_exists.1 h
  rw [packed, ht, Option.getD_some]

/-- Two bits in a buffer of one byte, and the reader's registers set for them. -/
theorem witness_PackedBitsReadBack :
    ∃ (s t u : State) (bits : List Bool), s.mem.wf = true ∧ s.dstAddr.toNat + s.dstCap.toNat ≤ s.cfg.memBytes ∧
      (bits.length + 7) / 8 = s.dstCap.toNat ∧ 0 < bits.length ∧
      runOk (.bpInit :: bits.map fun b => .bpPush (if b then 1 else 0)) s = some t ∧ u.cfg = s.cfg ∧
      u.srcAddr = s.dstAddr ∧ u.srcLen.toNat = (bits.length + 7) / 8 ∧ u.arg.toNat = bits.length ∧
      ∀ k, k < (bits.length + 7) / 8 → u.mem.read (s.dstAddr.toNat + k) = t.mem.read (s.dstAddr.toNat + k) :=
  ⟨smallBuffer, packed, { packed with srcAddr := 4095, srcLen := 1, arg := 2 }, [true, false], by decide +kernel,
    by decide +kernel, by decide, by decide, runOk_packed, by decide +kernel, rfl, rfl, rfl, fun _ _ => rfl⟩

/-- The states of log entries 14 and 15, which no run reaches. -/
theorem witness_StopsOutsideTheInvariant :
    (∃ s : State, (1#8).toNat ≤ 1 ∧ s.bpBitcnt.toNat ≠ 8 * s.bpCap.toNat ∧ s.cfg.memBytes = s.packAddress) ∧
    (∃ s : State, s.brPos ≠ s.brLimit ∧ s.brPos.toNat / 8 < s.brBytes.toNat ∧ s.cfg.memBytes = s.readAddress) ∧
    (∃ s : State, s.rootValid = true ∧ s.nodes[s.root.toNat]? = none) :=
  ⟨⟨{ State.reset with bpBase := 4096, bpCap := 1 }, by decide +kernel⟩,
    ⟨{ State.reset with brBase := 4096, brBytes := 1, brLimit := 1 }, by decide +kernel⟩,
    ⟨{ State.reset with rootValid := true }, by decide +kernel⟩⟩

/-- V2.9.22, V2.9.21. -/
theorem witness_EncoderAndDecoderRegionErrors :
    (∃ s : State, s.cfg.memBytes + 1 = s.dstAddr.toNat + s.dstCap.toNat) ∧
    (∃ s : State, s.srcAddr.toNat + s.srcLen.toNat ≤ s.cfg.memBytes ∧
      s.dstAddr.toNat + s.dstCap.toNat ≤ s.cfg.memBytes ∧ 0 < s.srcLen.toNat ∧ 0 < s.dstCap.toNat ∧
      s.srcAddr.toNat < s.dstAddr.toNat + s.dstCap.toNat ∧ s.dstAddr.toNat + 1 = s.srcAddr.toNat + s.srcLen.toNat) :=
  ⟨⟨regions State.reset 0x100 28 4090 7, by decide +kernel⟩, ⟨regions State.reset 0x100 28 0x11B 64, by decide +kernel⟩⟩

/-- The container of "abracadabra" in exactly its size and in one byte less (V2.7.5, V2.7.4). -/
theorem witness_EncRunCompletes :
    RegionsOk { beforeEncode with dstCap := 28 } ∧ RegionsOk { beforeEncode with dstCap := 27 } := by
  unfold RegionsOk
  decide +kernel

theorem beforeEncode_ok : ∃ t, exec .encRun beforeEncode = .next t ∧ t.err = .ok :=
  have ⟨t, h, ht⟩ := of_gives test_encRun
  ⟨t, h, (of_decide_eq_true ht).1⟩

/-- OK, and OUTPUT_OVERFLOW (V2.7.6). -/
theorem witness_EncRunBuildsTheTreeOfItsInput :
    (∃ t, exec .encRun beforeEncode = .next t ∧ t.err = .ok) ∧
    (∃ t, exec .encRun (regions State.reset 0 0 0x100 9) = .next t ∧ t.err = .outputOverflow) :=
  ⟨beforeEncode_ok, ⟨_, eq_nextOf (by decide +kernel), by decide +kernel⟩⟩

theorem witness_EncRunWritesTheContainer :
    beforeEncode.mem.wf = true ∧ ∃ t, exec .encRun beforeEncode = .next t ∧ t.err = .ok :=
  ⟨by decide +kernel, beforeEncode_ok⟩

/-- DST_CAP = 10 and DST_CAP = 9 (V2.7.6). -/
theorem witness_EncRunOfTheEmptyInput :
    (∃ s : State, s.mem.wf = true ∧ RegionsOk s ∧ s.srcLen = 0 ∧ s.dstCap.toNat = 10) ∧
    (∃ s : State, s.mem.wf = true ∧ RegionsOk s ∧ s.srcLen = 0 ∧ s.dstCap.toNat = 9) := by
  unfold RegionsOk
  exact ⟨⟨regions State.reset 0 0 0x100 10, by decide +kernel⟩, ⟨regions State.reset 0 0 0x100 9, by decide +kernel⟩⟩

/-- V1.5 with DST_CAP exactly the container's size. -/
theorem witness_EncRunOfASingleSymbol :
    ∃ s : State, s.mem.wf = true ∧ RegionsOk s ∧ 1 ≤ s.srcLen.toNat ∧
      (∀ k, k < s.srcLen.toNat → s.mem.read (s.srcAddr.toNat + k) = 0x61) ∧
      13 + (s.srcLen.toNat + 7) / 8 = s.dstCap.toNat := by
  unfold RegionsOk
  exact ⟨regions (holding 0 [0x61, 0x61, 0x61, 0x61]) 0 4 0x100 14, by decide +kernel⟩

theorem witness_DecRunCompletes : RegionsOk (beforeDecode container 28 64) := by
  unfold RegionsOk
  decide +kernel

/-- A table of one entry, a = 01. -/
def oneEntry : List (Byte × Code) := [(0x61, [false, true])]

theorem oneEntry_good : GoodTable oneEntry := ⟨by decide, by decide, by decide, by simp [oneEntry]⟩

theorem nil_good : GoodTable [] := ⟨by decide, by decide, by decide, by simp⟩

/-- The premises of DecRunChecksTheHeader's second part for the table of one entry, with the next entry at offset 5. -/
def AfterOneEntry (s : State) : Prop :=
  RegionsOk s ∧ s.srcAddr.toNat = 0x100 ∧ TableAt s.mem 0x102 oneEntry ∧ 5 ≤ s.srcLen.toNat ∧ 2 = s.mem.readLE 0x100 2

theorem afterOneEntry {bytes : List Byte} {len : Word}
    (h : (beforeDecode ([2, 0, 0x61, 2, 2] ++ bytes) len 64).mem.readBytes 0x100 5 = [2, 0, 0x61, 2, 2])
    (hr : 0x100 + len.toNat ≤ 0x200) (hl : 5 ≤ len.toNat) :
    AfterOneEntry (beforeDecode ([2, 0, 0x61, 2, 2] ++ bytes) len 64) := by
  generalize hm : (beforeDecode ([2, 0, 0x61, 2, 2] ++ bytes) len 64).mem = m at h
  simp only [Memory.readBytes, List.cons.injEq] at h
  obtain ⟨h0, h1, h2, h3, h4, -⟩ := h
  refine ⟨?_, rfl, ?_, hl, ?_⟩
  · have e : (beforeDecode ([2, 0, 0x61, 2, 2] ++ bytes) len 64).cfg.memBytes = 4096 := rfl
    simp only [RegionsOk, e]
    simp only [beforeDecode, regions]
    simp
    omega
  · rw [hm]
    refine ⟨h2, by rw [h3]; rfl, ?_, trivial⟩
    intro j hj
    have hj : j < 2 := hj
    obtain rfl | rfl : j = 0 ∨ j = 1 := by omega
    · rw [Memory.bitAt, h4]; rfl
    · rw [Memory.bitAt, h4]; rfl
  · rw [hm, Memory.readLE, Memory.readLE, Memory.readLE, h0, h1]
    rfl

/-- V2.9.10, V2.9.9; after the entry a = 01 an entry of 1 byte (R262(a)), of length 0 (b), with the symbol a again (c), with
a byte of code less than its length 9 needs (d), and with the code 010 (e); and 7 bytes after an empty table (R263). -/
theorem witness_DecRunChecksTheHeader :
    (∃ s : State, RegionsOk s ∧ s.srcLen.toNat = 1) ∧
    (∃ s : State, RegionsOk s ∧ s.srcLen.toNat = 2 ∧
      257 = (s.mem.read s.srcAddr.toNat).toNat + 256 * (s.mem.read (s.srcAddr.toNat + 1)).toNat) ∧
    GoodTable oneEntry ∧ 5 = 2 + tableLength oneEntry ∧
    (∃ s, AfterOneEntry s ∧ s.srcLen.toNat + 1 = 5 + 2) ∧
    (∃ s, AfterOneEntry s ∧ 5 + 2 ≤ s.srcLen.toNat ∧ s.mem.read 0x106 = 0) ∧
    (∃ s, AfterOneEntry s ∧ 5 + 2 ≤ s.srcLen.toNat ∧ s.mem.read 0x106 = 1 ∧
      s.mem.read 0x105 ∈ oneEntry.map Prod.fst) ∧
    (∃ s, AfterOneEntry s ∧ (s.mem.read 0x106).toNat = 9 ∧ s.srcLen.toNat + 1 = 5 + 2 + (9 + 7) / 8) ∧
    (∃ s, AfterOneEntry s ∧ (s.mem.read 0x106).toNat = 3 ∧ 5 + 2 + (3 + 7) / 8 = s.srcLen.toNat ∧
      [false, true] <+: (List.range 3).map (s.mem.bitAt 0x107)) ∧
    GoodTable [] ∧
    (∃ s : State, RegionsOk s ∧ TableAt s.mem (s.srcAddr.toNat + 2) [] ∧ 0 = s.mem.readLE s.srcAddr.toNat 2 ∧
      s.srcLen.toNat + 1 = 2 + 8) := by
  refine ⟨⟨beforeDecode [0x01] 1 64, ?_⟩, ⟨beforeDecode [0x01, 0x01] 2 64, ?_⟩, oneEntry_good, by decide,
    ⟨_, afterOneEntry (bytes := [0x62]) (len := 6) ?_ (by decide) (by decide), by decide⟩,
    ⟨_, afterOneEntry (bytes := [0x62, 0]) (len := 7) ?_ (by decide) (by decide), by decide, ?_⟩,
    ⟨_, afterOneEntry (bytes := [0x61, 1, 1]) (len := 8) ?_ (by decide) (by decide), by decide, ?_, ?_⟩,
    ⟨_, afterOneEntry (bytes := [0x62, 9, 1]) (len := 8) ?_ (by decide) (by decide), ?_, by decide⟩,
    ⟨_, afterOneEntry (bytes := [0x62, 3, 2]) (len := 8) ?_ (by decide) (by decide), ?_, by decide, ?_⟩,
    nil_good, ⟨beforeDecode [] 9 64, ?_, trivial, ?_, by decide⟩⟩
  all_goals first | decide +kernel | (unfold RegionsOk; decide +kernel)

/-- What DecRunDecodesAContainer asks of a container with the table of one entry and a payload of these bits. -/
def HasPayload (s : State) (P : Nat) (bits : Code) : Prop :=
  RegionsOk s ∧ s.mem.readLE s.srcAddr.toNat 2 = 1 ∧ TableAt s.mem (s.srcAddr.toNat + 2) oneEntry ∧
  5 + 8 ≤ s.srcLen.toNat ∧ s.mem.readLE (s.srcAddr.toNat + 5) 8 = P ∧
  ∀ k (h : k < bits.length), s.mem.bitAt (s.srcAddr.toNat + 5 + 8) k = bits[k]

/-- The container of V2.9.19, one entry a = 01, with P = 2 and the payload "a" in a destination of 1 byte and of none; with
no payload byte; with P = 3, the payload going on with the beginning 0 of the code and with the bit 1 that leaves the trie;
and the empty container of V1.8. -/
theorem witness_DecRunDecodesAContainer :
    (GoodTable oneEntry ∧ 5 = 2 + tableLength oneEntry ∧ (0x61, [false, true]) ∈ oneEntry) ∧
    (∃ s, HasPayload s 2 [false, true] ∧ 5 + 8 + (2 + 7) / 8 = s.srcLen.toNat ∧ 1 = s.dstCap.toNat ∧
      s.mem.wf = true) ∧
    (∃ s, HasPayload s 2 [false, true] ∧ 5 + 8 + (2 + 7) / 8 = s.srcLen.toNat ∧ s.dstCap.toNat < 1) ∧
    (∃ s, HasPayload s 2 [] ∧ s.srcLen.toNat < 5 + 8 + (2 + 7) / 8) ∧
    (∃ s, HasPayload s 3 ([false, true] ++ [false]) ∧ 5 + 8 + (3 + 7) / 8 = s.srcLen.toNat ∧
      [false] <+: [false, true] ∧ [false] ≠ [false, true]) ∧
    (∃ s, HasPayload s 3 ([false, true] ++ [true]) ∧ 5 + 8 + (3 + 7) / 8 = s.srcLen.toNat ∧
      ∀ e ∈ oneEntry, ¬ [true] <+: e.2 ∧ ¬ e.2 <+: [true]) ∧
    (∃ s : State, GoodTable [] ∧ s.mem.wf = true ∧ RegionsOk s ∧ s.mem.readLE s.srcAddr.toNat 2 = 0 ∧
      TableAt s.mem (s.srcAddr.toNat + 2) [] ∧ s.mem.readLE (s.srcAddr.toNat + 2) 8 = 0 ∧
      2 + 8 + (0 + 7) / 8 = s.srcLen.toNat) := by
  unfold HasPayload RegionsOk
  refine ⟨⟨oneEntry_good, by decide, by decide⟩,
    ⟨beforeDecode [1, 0, 0x61, 2, 2, 2, 0, 0, 0, 0, 0, 0, 0, 0x0A] 14 1, ⟨?_, ?_, ⟨?_, ?_, ?_, trivial⟩, ?_⟩, ?_⟩,
    ⟨beforeDecode [1, 0, 0x61, 2, 2, 2, 0, 0, 0, 0, 0, 0, 0, 0x0A] 14 0, ⟨?_, ?_, ⟨?_, ?_, ?_, trivial⟩, ?_⟩, ?_⟩,
    ⟨beforeDecode [1, 0, 0x61, 2, 2, 2, 0, 0, 0, 0, 0, 0, 0] 13 1, ⟨?_, ?_, ⟨?_, ?_, ?_, trivial⟩, ?_⟩, ?_⟩,
    ⟨beforeDecode [1, 0, 0x61, 2, 2, 3, 0, 0, 0, 0, 0, 0, 0, 0x02] 14 1, ⟨?_, ?_, ⟨?_, ?_, ?_, trivial⟩, ?_⟩, ?_⟩,
    ⟨beforeDecode [1, 0, 0x61, 2, 2, 3, 0, 0, 0, 0, 0, 0, 0, 0x06] 14 1, ⟨?_, ?_, ⟨?_, ?_, ?_, trivial⟩, ?_⟩, ?_⟩,
    ⟨beforeDecode [] 10 0, nil_good, ?_, ?_, ?_, trivial, ?_, ?_⟩⟩
  all_goals decide +kernel

/-- V1.7: 'A' = 0, 'B' = 01; and the reverse entry order. -/
theorem witness_ConflictingTableIsMalformed :
    (∃ s : State, RegionsOk s ∧ s.srcAddr.toNat = 0x100 ∧ 4 ≤ s.srcLen.toNat ∧ s.mem.readLE 0x100 2 = 2 ∧
      1 = (s.mem.read 0x103).toNat ∧ 5 + 2 ≤ s.srcLen.toNat ∧ 2 = (s.mem.read 0x106).toNat ∧
      5 + 2 + (2 + 7) / 8 ≤ s.srcLen.toNat ∧
      (List.range 1).map (s.mem.bitAt 0x104) <+: (List.range 2).map (s.mem.bitAt 0x107)) ∧
    (∃ s : State, RegionsOk s ∧ s.srcAddr.toNat = 0x100 ∧ 4 ≤ s.srcLen.toNat ∧ s.mem.readLE 0x100 2 = 2 ∧
      2 = (s.mem.read 0x103).toNat ∧ 5 + 2 ≤ s.srcLen.toNat ∧ 1 = (s.mem.read 0x106).toNat ∧
      5 + 2 + (1 + 7) / 8 ≤ s.srcLen.toNat ∧
      (List.range 1).map (s.mem.bitAt 0x107) <+: (List.range 2).map (s.mem.bitAt 0x104)) := by
  unfold RegionsOk
  exact ⟨⟨beforeDecode [2, 0, 0x41, 1, 0, 0x42, 2, 2, 0, 0, 0, 0, 0, 0, 0, 0] 16 16, by decide +kernel⟩,
    ⟨beforeDecode [2, 0, 0x42, 2, 2, 0x41, 1, 0, 0, 0, 0, 0, 0, 0, 0, 0] 16 16, by decide +kernel⟩⟩

/-- P1, then DEC_RUN over the same MEM with the output right after the container. -/
theorem witness_DecodeOfEncodeIsTheInput :
    ∃ t, exec .encRun beforeEncode = .next t ∧ beforeEncode.mem.wf = true ∧ t.err = .ok ∧
      (regions t 0x100 28 0x11C 11).mem.wf = true ∧ RegionsOk (regions t 0x100 28 0x11C 11) ∧
      (regions t 0x100 28 0x11C 11).srcAddr = beforeEncode.dstAddr ∧
      t.outLen.toNat ≤ (regions t 0x100 28 0x11C 11).srcLen.toNat ∧
      beforeEncode.srcLen.toNat ≤ (regions t 0x100 28 0x11C 11).dstCap.toNat := by
  obtain ⟨t, h, h2⟩ := of_gives test_encRun
  obtain ⟨he, -, hl, -, -, -, -, -, -, -, hw, hc⟩ := of_decide_eq_true h2
  refine ⟨t, h, by decide +kernel, he, hw, ?_, rfl, ?_, Nat.le_refl 11⟩
  · simp only [RegionsOk, regions, hc]
    decide +kernel
  · simp [regions, hl]

theorem witness_CommandsKeepTheOperandRegisters :
    (∃ t, exec .decRun (beforeDecode container 28 64) = .next t) ∧ Instr.decRun ≠ .reset :=
  ⟨⟨_, eq_nextOf (by decide +kernel)⟩, by decide⟩

theorem witness_OtherCommandsKeepMem :
    (∃ t, exec .ftClear State.reset = .next t) ∧ (∀ b, Instr.ftClear ≠ .bpPush b) ∧ Instr.ftClear ≠ .encRun ∧
    Instr.ftClear ≠ .decRun :=
  ⟨⟨_, rfl⟩, by simp, by simp, by simp⟩

theorem witness_StepKeepsMemoryCanonical :
    ∃ s t : State, s.mem.wf = true ∧ step s = .next t ∧ t.mem ≠ s.mem :=
  ⟨{ State.reset with host := [quietMove (.writeMem 7 1)] }, _, rfl, rfl, by decide +kernel⟩

theorem reset_inv : State.reset.Inv where
  mem := by unfold State.MemOk; decide +kernel
  queue := by unfold State.QueueOk; decide +kernel
  arena := reset_arenaOk
  codebook := by
    intro c
    have : State.reset.codebook.get c = ⟨false, 0, 0⟩ := by
      simp [State.reset, State.powerOn, Codebook.get, emptyCodebook]
    rw [this]
    exact ⟨by simp, by simp⟩
  packer := by unfold State.PackerOk; decide +kernel
  reader := by unfold State.ReaderOk; decide +kernel
  control := by unfold State.ControlOk; decide +kernel

/-- The last address of MEM listed at power-on. -/
theorem witness_ResetMeetsTheInvariant :
    Memory.wf [(4095, 1)] = true ∧ ∀ c ∈ ([(4095, 1)] : Memory), c.1 < Config.testVectors.memBytes := by
  decide +kernel

theorem witness_StepKeepsTheInvariant : State.reset.Inv ∧ ∃ t, step State.reset = .next t := ⟨reset_inv, _, rfl⟩

/-- ENC_RUN pending in the reset state. -/
theorem witness_EveryCommandCompletes :
    (State.reset.awaitCompletion 0x70000000).Inv ∧
    (State.reset.awaitCompletion 0x70000000).turn = .completion 0x70000000 :=
  ⟨⟨reset_inv.mem, reset_inv.queue, reset_inv.arena, reset_inv.codebook, reset_inv.packer, reset_inv.reader,
    reset_inv.control.1, fun h => by cases h⟩, rfl⟩

end Sys2Proof.Tests
end

section
/-! ### What every step keeps: the machine's invariant (Safety.lean)

`exec_ends` says how a command but RESET ends; the lemmas here say that the state it ends in meets the invariant. A
command that writes only fields no part of the invariant speaks of ends in `{ h with }`; the others name the parts
they have to show again. -/

namespace Sys2Proof.Machine

/-- The end of a command gives ControlOk back, whatever the state was (60_exceptions.md R301, R308). -/
theorem State.Inv.complete {s : State} (h : s.Inv) {code : ErrCode} (hc : code ≠ .unknownSymbol) :
    (s.complete code).Inv :=
  { h with control := ⟨hc, fun _ => rfl⟩ }

/-- The result registers and OUT_LEN stand in no part of the invariant. -/
theorem State.Inv.withResults {s : State} (h : s.Inv) (res0 res1 : DWord) (outLen : Word) :
    { s with res0 := res0, res1 := res1, outLen := outLen }.Inv :=
  { h with }

theorem State.Inv.withCodebook {s : State} (h : s.Inv) {cb : Codebook} (hcb : ∀ x, (cb.get x).Ok) :
    { s with codebook := cb }.Inv :=
  { h with codebook := hcb }

/-- An outcome that, if it is a next state, is one that meets the invariant. -/
def NextInv (o : Host.Outcome State Fault Refusal) : Prop := ∀ t, o = .next t → t.Inv

theorem NextInv.of_next {t : State} (h : t.Inv) : NextInv (.next t) := by
  intro t' ht
  cases ht
  exact h

theorem NextInv.of_complete {u : State} {code : ErrCode} (h : u.Inv) (hc : code ≠ .unknownSymbol) :
    NextInv (.next (u.complete code)) :=
  .of_next (h.complete hc)

theorem NextInv.of_fault {f : Fault} : NextInv (.fault f) := by
  intro t ht
  cases ht

/-- What the error code of a command's end is not (60_exceptions.md R308). -/
theorem Ends.err_ne_unknownSymbol {s t : State} {o : Host.Outcome State Fault Refusal} (h : Ends s o)
    (ho : o = .next t) : t.err ≠ .unknownSymbol := by
  obtain ⟨u, code, rfl, -, hc⟩ := h t ho
  exact hc

/-! #### The frequency table and the queue -/

theorem execFtRecord_inv (sym : Byte) {s : State} (h : s.Inv) : NextInv (execFtRecord sym s) := by
  unfold execFtRecord
  split
  · exact .of_complete h (by decide)
  · exact .of_complete { h with } (by decide)

theorem execFtScan_inv {s : State} (h : s.Inv) : NextInv (execFtScan s) := by
  unfold execFtScan
  split
  · exact .of_complete h (by decide)
  split
  · exact .of_complete h (by decide)
  · exact .of_complete { h with } (by decide)

/-- A queue that is not full, with PQ_SEQ below its end, takes one more entry (42_priority_queue.md R143, R146). -/
theorem State.QueueOk.push {s : State} (h : s.QueueOk) (hl : s.queue.length ≠ pqCap)
    (hs : s.pqSeq.toNat ≠ 2 ^ 32 - 1) (w : DWord) (node : NodeIndex) :
    { s with
      queue := heapPush s.queue { weight := w, seq := s.pqSeq, node := node }
      pqSeq := s.pqSeq + 1 }.QueueOk := by
  obtain ⟨hlen, hrise, hbelow⟩ := h
  have hseq : (s.pqSeq + 1).toNat = s.pqSeq.toNat + 1 := by
    have := s.pqSeq.isLt
    have hone : (1 : Word).toNat = 1 := rfl
    rw [BitVec.toNat_add, hone]
    omega
  refine ⟨?_, List.pairwise_append.2 ⟨hrise, List.pairwise_singleton _ _, ?_⟩, ?_⟩
  · simp only [heapPush, List.length_append, List.length_singleton]
    omega
  · intro a ha b hb
    rw [List.mem_singleton.1 hb]
    exact hbelow a ha
  · intro e he
    simp only [heapPush, List.mem_append, List.mem_singleton] at he
    simp only [hseq]
    rcases he with he | rfl
    · have := hbelow e he
      omega
    · exact Nat.lt_succ_self _

/-- A pop keeps the order of the other entries (42_priority_queue.md R142). -/
theorem State.QueueOk.pop {s : State} (h : s.QueueOk) {e : PqEntry} {q : List PqEntry}
    (hp : heapPop s.queue = some (e, q)) : { s with queue := q }.QueueOk := by
  obtain ⟨hlen, hrise, hbelow⟩ := h
  obtain ⟨-, hsub, -⟩ := heapPop_spec hp
  exact ⟨hsub.length_le.trans hlen, hrise.sublist hsub, fun x hx => hbelow x (hsub.subset hx)⟩

theorem queueOk_of_nil {s : State} (h : s.queue = []) : s.QueueOk := by
  simp [State.QueueOk, h]

theorem execPqClear_inv {s : State} (h : s.Inv) : NextInv (execPqClear s) :=
  .of_complete { h with queue := queueOk_of_nil rfl } (by decide)

theorem execPqPush_inv (node : NodeIndex) {s : State} (h : s.Inv) : NextInv (execPqPush node s) := by
  unfold execPqPush
  split
  · exact .of_complete h (by decide)
  next hl =>
  split
  · exact .of_complete h (by decide)
  next hs => exact .of_complete { h with queue := h.queue.push hl hs s.arg node } (by decide)

theorem execPqPop_inv {s : State} (h : s.Inv) : NextInv (execPqPop s) := by
  unfold execPqPop
  split
  · exact .of_complete h (by decide)
  next hp => exact .of_complete { h with queue := h.queue.pop hp } (by decide)

/-! #### The arena and the codebook -/

/-- TREE_BUILD's tree (43_tree_builder.md R163): a new arena, an empty queue and an empty codebook. -/
theorem State.Inv.plantForest {s : State} (h : s.Inv) (ht : s.freq.total ≤ maxCount) :
    (Machine.plantForest s (Forest.build s.freq)).Inv := by
  rw [plantForest_frame]
  exact { h with
    queue := queueOk_of_nil (queue_plantForest s ht)
    arena := arenaOk_plantForest s ht
    codebook := CbEntry.ok_empty }

theorem execTreeBuild_inv {s : State} (h : s.Inv) : NextInv (execTreeBuild s) := by
  by_cases ht : s.freq.total ≤ maxCount
  · rw [execTreeBuild_fits ht]
    exact .of_complete ((h.plantForest ht).withResults _ _ _) (by decide)
  · rw [execTreeBuild_overflow (by omega)]
    exact .of_complete h (by decide)

theorem execNodeRead_inv (index : NodeIndex) {s : State} (h : s.Inv) : NextInv (execNodeRead index s) := by
  unfold execNodeRead
  split
  · exact .of_complete h (by decide)
  · exact .of_complete { h with } (by decide)

theorem execCbGen_inv {s : State} (h : s.Inv) : NextInv (execCbGen s) := by
  unfold execCbGen
  split
  · exact .of_fault
  next cb hcb => exact .of_complete ((h.withCodebook (generateCodebook_ok hcb)).withResults _ _ _) (by decide)

theorem execCbRead_inv (sym : Byte) (chunk : BitVec 16) {s : State} (h : s.Inv) :
    NextInv (execCbRead sym chunk s) := by
  unfold execCbRead
  split
  · exact .of_complete h (by decide)
  · exact .of_complete { h with } (by decide)

/-! #### The bit packer and the bit reader -/

theorem execBpInit_inv {s : State} (h : s.Inv) : NextInv (execBpInit s) := by
  unfold execBpInit
  split
  · exact .of_complete h (by decide)
  next hd =>
    have hd : s.dstInRange = true := by simpa using hd
    exact .of_complete { h with packer := ⟨(dstInRange_iff s).1 hd, Nat.zero_le _⟩ } (by decide)

/-- A byte of MEM written at an address inside it (20_memory.md R60). -/
theorem State.MemOk.write {s : State} (h : s.MemOk) {a : Nat} (ha : a < s.cfg.memBytes) (v : Byte) :
    { s with mem := s.mem.write a v }.MemOk := by
  obtain ⟨hwf, hin⟩ := h
  refine ⟨Memory.wf_write hwf a v, fun c hc => ?_⟩
  rcases Memory.mem_write hc with rfl | hc
  · exact ha
  · exact hin c hc

/-- One more bit in a packer that is not full (10_state.md R33, 45_bit_packer.md R201). -/
theorem State.PackerOk.push {s : State} (h : s.PackerOk) (hf : s.bpBitcnt.toNat ≠ 8 * s.bpCap.toNat) :
    { s with bpBitcnt := s.bpBitcnt + 1 }.PackerOk := by
  obtain ⟨hin, hcnt⟩ := h
  refine ⟨hin, ?_⟩
  have := s.bpCap.isLt
  have hone : (1 : DWord).toNat = 1 := rfl
  change (s.bpBitcnt + 1).toNat ≤ 8 * s.bpCap.toNat
  rw [BitVec.toNat_add, hone]
  omega

theorem execBpPush_inv (bit : Byte) {s : State} (h : s.Inv) : NextInv (execBpPush bit s) := by
  unfold execBpPush
  split
  · exact .of_complete h (by decide)
  split
  · exact .of_complete h (by decide)
  next hf =>
  split
  · exact .of_fault
  next ha =>
    exact .of_complete { h with mem := h.mem.write (Nat.lt_of_not_le ha) _, packer := h.packer.push hf } (by decide)

theorem execBrInit_inv {s : State} (h : s.Inv) : NextInv (execBrInit s) := by
  unfold execBrInit
  split
  · exact .of_complete h (by decide)
  next hd =>
    have hd : s.srcInRange = true := by simpa using hd
    exact .of_complete { h with reader := ⟨(srcInRange_iff s).1 hd, Nat.zero_le _⟩ } (by decide)

/-- A bit is read only before BR_LIMIT (46_bit_reader.md R221). -/
theorem brPos_ne_of_readBit {s : State} {b : Bool} (h : readBit s = .bit b) : s.brPos ≠ s.brLimit := by
  intro he
  rw [readBit, if_pos he] at h
  cases h

/-- BR_POS one further, from a place before BR_LIMIT (10_state.md R34, 46_bit_reader.md R222). -/
theorem State.ReaderOk.advance {s : State} (h : s.ReaderOk) (hp : s.brPos ≠ s.brLimit) :
    { s with brPos := s.brPos + 1 }.ReaderOk := by
  obtain ⟨hin, hpos⟩ := h
  refine ⟨hin, ?_⟩
  have hne : s.brPos.toNat ≠ s.brLimit.toNat := fun e => hp (BitVec.eq_of_toNat_eq e)
  have hone : (1 : DWord).toNat = 1 := rfl
  change (s.brPos + 1).toNat ≤ s.brLimit.toNat
  rw [BitVec.toNat_add, hone]
  omega

theorem execBrNext_inv {s : State} (h : s.Inv) : NextInv (execBrNext s) := by
  unfold execBrNext
  split
  · exact .of_complete { h with } (by decide)
  · exact .of_complete h (by decide)
  next hb => exact .of_complete { h with reader := h.reader.advance (brPos_ne_of_readBit hb) } (by decide)
  · exact .of_fault

/-! #### ENC_RUN and DEC_RUN -/

/-- The weights of ENC_RUN's tree fit (47_encoder.md R245). -/
theorem total_countsOf_srcBytes_le (s : State) : (countsOf s.srcBytes).total ≤ maxCount := by
  rw [total_countsOf_srcBytes, maxCount]
  have := s.srcLen.isLt
  omega

theorem State.Inv.countAndPlant {s : State} (h : s.Inv) : s.countAndPlant.Inv :=
  State.Inv.plantForest (s := { s with freq := countsOf s.srcBytes }) { h with } (total_countsOf_srcBytes_le s)

/-- A codebook of codes of 1 to 255 bits is in order (10_state.md R32). -/
theorem ok_bookOf {rs : List (Byte × Code)} (hl : ∀ r ∈ rs, 1 ≤ r.2.length ∧ r.2.length ≤ 255) (x : Byte) :
    ((bookOf rs).get x).Ok :=
  ok_records hl x

/-- A container that fits into a destination region in range keeps the invariant (47_encoder.md R244, R245). -/
theorem State.Inv.writeContainer {u : State} (h : u.Inv) {P size : Nat} {bits : List Bool} (hP : P = bits.length)
    (hlt : P < 2 ^ 40) (hsize : (headerBytes u.codebook P).length + ceil8 P ≤ u.dstCap.toNat)
    (hin : u.dstAddr.toNat + u.dstCap.toNat ≤ u.cfg.memBytes) : (writeContainer u P size bits).Inv := by
  obtain ⟨hwf, hmem⟩ := h.mem
  have hcap := u.dstCap.isLt
  refine { h with mem := ⟨writeContainer_wf hwf P size bits, fun c hc => ?_⟩, packer := ⟨?_, ?_⟩ }
  · rcases writeContainer_mem hc with ⟨-, hc⟩ | hc
    · rw [← hP] at hc
      change c.1 < u.cfg.memBytes
      omega
    · exact hmem c hc
  · change (addressReg _).toNat + (BitVec.ofNat 32 (ceil8 P)).toNat ≤ u.cfg.memBytes
    rw [BitVec.toNat_ofNat, Nat.mod_eq_of_lt (by omega)]
    exact addressReg_fits (by omega)
  · change (BitVec.ofNat 64 bits.length).toNat ≤ 8 * (BitVec.ofNat 32 (ceil8 P)).toNat
    rw [BitVec.toNat_ofNat, BitVec.toNat_ofNat, Nat.mod_eq_of_lt (by omega), Nat.mod_eq_of_lt (by omega), ceil8]
    omega

theorem execEncRun_inv {s : State} (h : s.Inv) : NextInv (execEncRun s) := by
  intro t ht
  have herr := (execEncRun_ends s).err_ne_unknownSymbol ht
  by_cases hr : RegionsOk s
  · obtain ⟨rs, hrs, -, hend⟩ := execEncRun_next hr ht
    have hu := h.countAndPlant.withCodebook (ok_bookOf hrs.length)
    obtain ⟨r, rfl⟩ | ⟨P, size, bits, hP, hlt, rfl, hcap, rfl⟩ := hend
    · -- Which tree was planted does not matter here; hidden, it is not unfolded.
      generalize s.countAndPlant = u at hu ⊢
      exact (hu.withResults r _ 0).complete (by decide)
    · obtain ⟨e1, e2, -, e4⟩ := countAndPlant_same s
      obtain ⟨-, hin, -⟩ := hr
      refine (hu.writeContainer hP hlt ?_ ?_).complete herr
      · rwa [e1]
      · rwa [e1, e2, e4]
  · obtain ⟨e, he⟩ := execEncRun_region_error hr
    obtain rfl := Host.Outcome.next.inj (ht.symm.trans he)
    exact (h.withResults _ _ 0).complete herr

/-- Fail of DEC_RUN (48_decoder.md R269): no tree and an empty codebook. -/
theorem State.Inv.failDecode {s : State} (h : s.Inv) : s.failDecode.Inv :=
  { h with arena := arenaOk_empty rfl rfl, codebook := CbEntry.ok_empty }

/-- The output and the reader of a container inside regions in range keep MEM's and the reader's bounds (48_decoder.md
R268). -/
theorem State.Inv.writeOutput {s : State} (h : s.Inv) (hr : RegionsOk s) {d : Decoded} {t : TableParse}
    {es : List (Byte × Code)} (hes : es.length ≤ 256) (hp : Parsed s.mem s.srcAddr.toNat s.srcLen.toNat t es)
    (hn : d.nodes = t.nodes) (hb : d.codebook = bookOf es) (hlen : d.offset + ceil8 d.payload ≤ s.srcLen.toNat)
    (hout : d.out.length ≤ s.dstCap.toNat) : (writeOutput s d).Inv := by
  obtain ⟨hwf, hmem⟩ := h.mem
  obtain ⟨hsrc, hdst, -⟩ := hr
  have hlt := s.srcLen.isLt
  have hbook : ∀ x, (d.codebook.get x).Ok := by
    rw [hb]
    exact ok_bookOf hp.lens
  refine { h with
    mem := ⟨Memory.wf_writeBytes hwf _ _, fun c hc => ?_⟩
    arena := hp.arenaOk hes hn rfl rfl
    codebook := hbook
    reader := ⟨?_, Nat.le_refl _⟩ }
  · rcases Memory.mem_writeBytes hc with ⟨-, hc⟩ | hc
    · change c.1 < s.cfg.memBytes
      omega
    · exact hmem c hc
  · change (addressReg _).toNat + (BitVec.ofNat 32 (ceil8 d.payload)).toNat ≤ s.cfg.memBytes
    rw [BitVec.toNat_ofNat, Nat.mod_eq_of_lt (by omega)]
    exact addressReg_fits (by omega)

theorem execDecRun_inv {s : State} (h : s.Inv) : NextInv (execDecRun s) := by
  intro t ht
  have herr := (execDecRun_ends s).err_ne_unknownSymbol ht
  by_cases hr : RegionsOk s
  · obtain ⟨r, e, rfl⟩ | ⟨d, t', es, hes, hp, hn, hb, hlen, -, hout, rfl⟩ := execDecRun_next hr ht
    · exact (h.failDecode.withResults r _ _).complete herr
    · exact (h.writeOutput hr hes hp hn hb hlen hout).complete herr
  · obtain ⟨e, he⟩ := execDecRun_region_error hr
    obtain rfl := Host.Outcome.next.inj (ht.symm.trans he)
    exact (h.withResults _ _ 0).complete herr

/-! #### Every command, every move of the outside, every step -/

/-- The reset values meet the invariant with any MEM that does (70_reset_and_hazards.md R342). -/
theorem State.Inv.resetBlock {s : State} (h : s.Inv) : s.resetBlock.Inv :=
  { h with
    queue := queueOk_of_nil rfl
    arena := arenaOk_empty rfl rfl
    codebook := CbEntry.ok_empty
    packer := ⟨Nat.zero_le _, Nat.zero_le _⟩
    reader := ⟨Nat.zero_le _, Nat.zero_le _⟩
    control := ⟨nofun, fun _ => rfl⟩ }

theorem State.Inv.setReset {s : State} (h : s.Inv) (asserted : Bool) : (s.setReset asserted).Inv := by
  obtain ⟨herr, -⟩ := h.control
  cases asserted with
  | true => exact { h.resetBlock with control := ⟨nofun, fun _ => rfl⟩ }
  | false => exact { h with control := ⟨herr, nofun⟩ }

theorem exec_inv (i : Instr) {s : State} (h : s.Inv) : NextInv (exec i s) := by
  cases i
  case nop => exact .of_complete h (by decide)
  case ftClear => exact .of_complete { h with } (by decide)
  case ftRecord sym => exact execFtRecord_inv sym h
  case ftWrite sym => exact .of_complete { h with } (by decide)
  case ftRead sym => exact .of_complete { h with } (by decide)
  case ftScan => exact execFtScan_inv h
  case pqClear => exact execPqClear_inv h
  case pqPush node => exact execPqPush_inv node h
  case pqPop => exact execPqPop_inv h
  case treeBuild => exact execTreeBuild_inv h
  case nodeRead index => exact execNodeRead_inv index h
  case cbGen => exact execCbGen_inv h
  case cbRead sym chunk => exact execCbRead_inv sym chunk h
  case bpInit => exact execBpInit_inv h
  case bpPush bit => exact execBpPush_inv bit h
  case bpFinish => exact .of_complete { h with } (by decide)
  case brInit => exact execBrInit_inv h
  case brNext => exact execBrNext_inv h
  case encRun => exact execEncRun_inv h
  case decRun => exact execDecRun_inv h
  case reset => exact .of_complete h.resetBlock (by decide)

theorem completeWord_inv (w : Word) {s : State} (h : s.Inv) : NextInv (completeWord w s) := by
  obtain ⟨i, -, he⟩ | ⟨-, he⟩ := completeWord_cases w s
  · rw [he]
    exact exec_inv i h
  · rw [he]
    exact .of_complete h (by decide)

/-- A write of the window while rst is released (10_state.md R22): no operand register stands in the invariant, and a
word may be pending. -/
theorem State.Inv.writeRegister {s : State} (h : s.Inv) (hr : s.rst = false) (offset : Nat) (v : Word) :
    (s.writeRegister offset v).Inv := by
  obtain ⟨herr, -⟩ := h.control
  rw [writeRegister_eq]
  refine { h with control := ⟨herr, fun hr' => ?_⟩ }
  exact absurd (hr.symm.trans hr') Bool.false_ne_true

theorem hostMove_inv (m : HostMove) {s : State} (h : s.Inv) : NextInv (hostMove s m) := by
  intro t ht
  obtain ⟨a, -, rfl⟩ | ⟨r, rfl⟩ | ⟨-, rfl⟩ | ⟨offset, v, -, -, hr, rfl⟩ | ⟨a, v, -, ha, -, -, rfl⟩ :=
    hostMove_cases ht
  · exact h.setReset a
  · exact { h with }
  · exact { h with }
  · exact h.writeRegister hr offset v
  · exact { h with mem := h.mem.write ha v }

/-- Settles O59, along the three turns a step can take: a completion, a move of the outside, and nothing. -/
theorem stepKeepsTheInvariant : Obligations.StepKeepsTheInvariant := by
  intro s t h ht
  obtain ⟨w, -, he⟩ | ⟨m, rest, -, he⟩ | ⟨-, he⟩ := step_cases s
  · exact completeWord_inv w h t (he.symm.trans ht)
  · have hu : { s with host := rest }.Inv := { h with }
    exact hostMove_inv m hu t (he.symm.trans ht)
  · obtain rfl := Host.Outcome.next.inj (he.symm.trans ht)
    exact h

/-- Settles O55: a command but RESET ends with the operand registers as before. -/
theorem commandsKeepTheOperandRegisters : Obligations.CommandsKeepTheOperandRegisters := by
  intro i s t ht hi
  obtain ⟨u, code, rfl, hu, -⟩ := exec_ends hi s t ht
  obtain ⟨-, -, -, -, -, hsrc, hlen, hdst, hcap, harg⟩ := hu
  exact ⟨hsrc, hlen, hdst, hcap, harg⟩

end Sys2Proof.Machine
end

section
/-! ### The register window, STATUS, and the accesses and states the spec rules out (10_state.md R21 to R25, R28,
R33, R34; 60_exceptions.md R305) -/

namespace Sys2Proof.Machine

/-! #### Admitted accesses -/

theorem registerAdmitted_iff (width : AccessWidth) (offset : Nat) :
    registerAdmitted width offset = true ↔ width = .word ∧ offset % 4 = 0 ∧ offset < 0x100 := by
  simp [registerAdmitted, and_assoc]

/-- An admitted read answers the register's value and keeps the state but for the reply (10_state.md R25). -/
theorem hostMove_readReg {s : State} (hr : s.rst = false) {offset : Nat} (h4 : offset % 4 = 0)
    (hlt : offset < 0x100) :
    hostMove s (.readReg .word offset) = .next (s.reply (.reg (s.readRegister offset))) := by
  rw [hostMove_access _ hr, hostAccess, if_pos ((registerAdmitted_iff _ _).2 ⟨rfl, h4, hlt⟩)]

/-- An admitted write of an idle block is the write of the register (10_state.md R22, R25). -/
theorem hostMove_writeReg_idle {s : State} (hb : s.busy = false) (hr : s.rst = false) {offset : Nat}
    (h4 : offset % 4 = 0) (hlt : offset < 0x100) (v : Word) :
    hostMove s (.writeReg .word offset v) = .next (s.writeRegister offset v) := by
  have ha : registerAdmitted .word offset = true := (registerAdmitted_iff _ _).2 ⟨rfl, h4, hlt⟩
  simp [hostMove_access _ hr, hostAccess, ha, hb]

/-- Settles O14: the two refusals, the form of a register access and rst asserted. -/
theorem accessesNotAdmitted : Obligations.AccessesNotAdmitted := by
  refine ⟨fun s width offset hr hform => ?_, fun s m hr hm => ?_⟩
  · have ha : registerAdmitted width offset = false := by
      rw [← Bool.not_eq_true, registerAdmitted_iff]
      rintro ⟨hw, h4, hlt⟩
      rcases hform with h | h | h
      · exact h hw
      · exact h h4
      · omega
    refine ⟨?_, fun v => ?_⟩
    · simp [hostMove_access _ hr, hostAccess, ha]
    · simp [hostMove_access _ hr, hostAccess, ha]
  · cases m with
    | rst b => exact absurd rfl (hm b)
    | readReg width offset => exact if_pos hr
    | writeReg width offset v => exact if_pos hr
    | readMem a => exact if_pos hr
    | writeMem a v => exact if_pos hr

/-! #### Writes -/

/-- STATUS, the result registers and the reserved offsets ignore a write (10_state.md R22, R25(d)). -/
theorem writeRegister_ignored {offset : Nat} (h : offset = 0x04 ∨ 0x20 ≤ offset) (s : State) (v : Word) :
    s.writeRegister offset v = s := by
  unfold State.writeRegister
  split <;> simp at h ⊢

/-- Settles O10, offset by offset. -/
theorem operandRegisterWrites : Obligations.OperandRegisterWrites := by
  intro s v hb hr
  refine ⟨hostMove_writeReg_idle hb hr rfl (by decide) v, hostMove_writeReg_idle hb hr rfl (by decide) v,
    hostMove_writeReg_idle hb hr rfl (by decide) v, hostMove_writeReg_idle hb hr rfl (by decide) v,
    ⟨_, hostMove_writeReg_idle hb hr rfl (by decide) v, rfl, ?_⟩,
    ⟨_, hostMove_writeReg_idle hb hr rfl (by decide) v, rfl, ?_⟩, fun k hk hlt => ?_⟩
  · have := v.isLt
    change (s.arg.extractLsb' 32 32 ++ v).toNat % _ = _ ∧ (s.arg.extractLsb' 32 32 ++ v).toNat / _ = _
    rw [append_toNat, BitVec.extractLsb'_toNat, Nat.shiftRight_eq_div_pow]
    omega
  · have := v.isLt
    change (v ++ s.arg.extractLsb' 0 32).toNat % _ = _ ∧ (v ++ s.arg.extractLsb' 0 32).toNat / _ = _
    rw [append_toNat, BitVec.extractLsb'_toNat, Nat.shiftRight_eq_div_pow]
    omega
  · rw [hostMove_writeReg_idle hb hr (by omega) (by omega), writeRegister_ignored (by omega)]

/-! #### Reads -/

/-- The two window words of a 64-bit register make it (10_state.md R22). -/
theorem extractLsb'_append_halves (x : DWord) : x.extractLsb' 32 32 ++ x.extractLsb' 0 32 = x := by
  apply BitVec.eq_of_toNat_eq
  have := x.isLt
  rw [append_toNat, BitVec.extractLsb'_toNat, BitVec.extractLsb'_toNat, Nat.shiftRight_eq_div_pow,
    Nat.shiftRight_eq_div_pow]
  omega

/-- The offsets behind PQ_SEQ are reserved (10_state.md R22). -/
theorem readRegister_reserved {offset : Nat} (h : 0x58 ≤ offset) (s : State) : s.readRegister offset = 0 := by
  unfold State.readRegister
  split <;> simp at h ⊢

theorem pqCount_word_toNat (s : State) : (s.pqCount.setWidth 32).toNat = s.queue.length % 2 ^ 9 := by
  rw [State.pqCount, BitVec.toNat_setWidth, BitVec.toNat_ofNat]
  omega

theorem ncount_word_toNat (s : State) : (s.ncount.setWidth 32).toNat = s.nodes.length % 2 ^ 17 := by
  rw [State.ncount, BitVec.toNat_setWidth, BitVec.toNat_ofNat]
  omega

/-- CB_COUNT is at most 256, so its 9 bits hold it (10_state.md R32). -/
theorem cbCount_word_toNat (s : State) : (s.cbCount.setWidth 32).toNat = s.codebook.count := by
  have := s.codebook.count_le
  rw [State.cbCount, BitVec.toNat_setWidth, BitVec.toNat_ofNat]
  omega

theorem root_word_toNat (v : Bool) (r : NodeIndex) :
    ((0#15 ++ BitVec.ofBool v) ++ r).toNat = v.toNat * 2 ^ 16 + r.toNat := by
  rw [append_toNat, append_toNat, BitVec.toNat_ofBool]
  simp

/-- Settles O11: the reply of every offset, and the register map row by row. -/
theorem registerWindowReads : Obligations.RegisterWindowReads := by
  intro s hr
  exact ⟨fun k hk => hostMove_readReg hr (by omega) (by omega), rfl, rfl, rfl, rfl, rfl, rfl,
    extractLsb'_append_halves s.arg, extractLsb'_append_halves s.res0, extractLsb'_append_halves s.res1, rfl,
    pqCount_word_toNat s, ncount_word_toNat s, root_word_toNat s.rootValid s.root, cbCount_word_toNat s,
    extractLsb'_append_halves s.bpBitcnt, extractLsb'_append_halves s.brPos, rfl,
    fun k hk _ => readRegister_reserved (by omega) s⟩

/-! #### STATUS -/

/-- STATUS as a number: one bit each for BUSY, OVR, EXH and BIT, then ERR (10_state.md R24). -/
theorem status_toNat (s : State) :
    s.status.toNat =
      s.busy.toNat + 2 * s.ovr.toNat + 4 * s.exh.toNat + 8 * s.bit.toNat + 16 * s.err.number.toNat := by
  simp only [State.status, append_toNat, BitVec.toNat_ofBool, BitVec.toNat_ofNat]
  omega

/-- Settles O12: the layout is `status_toNat`, and the numbers are R305's table. -/
theorem statusWordLayout : Obligations.StatusWordLayout :=
  ⟨fun s => ⟨status_toNat s, Option.isSome_iff_exists⟩,
    rfl, rfl, rfl, rfl, rfl, rfl, rfl, rfl, rfl, rfl, rfl, rfl, rfl⟩

/-! #### The model's stops -/

/-- ReadBit with bits and bytes left, beyond MEM (log entry 15). -/
theorem readBit_beyondMem {s : State} (hp : s.brPos ≠ s.brLimit) (hb : s.brPos.toNat / 8 < s.brBytes.toNat)
    (ha : s.cfg.memBytes ≤ s.readAddress) : readBit s = .beyondMem := by
  rw [readBit, if_neg hp, if_neg (by omega), if_pos ha]

/-- No codes from a root that is not allocated (log entry 14). -/
theorem codesOf_unallocated {nodes : List Node} {root : Nat} (h : nodes[root]? = none) : codesOf nodes root = none := by
  simp [codesOf, walk, h]

/-- Settles O43: in each of the three states the command reaches its fault. -/
theorem stopsOutsideTheInvariant : Obligations.StopsOutsideTheInvariant := by
  refine ⟨fun s bit hb hf ha => ?_, fun s hp hb ha => ?_, fun s hv hn => ?_⟩
  · change execBpPush bit s = _
    rw [execBpPush, if_neg (by omega), if_neg hf, if_pos ha]
  · change execBrNext s = _
    rw [execBrNext, readBit_beyondMem hp hb ha]
  · change execCbGen s = _
    rw [execCbGen, generateCodebook, if_pos hv, codesOf_unallocated hn]
    rfl

end Sys2Proof.Machine
end

section
/-! ### MEM: who writes it, its canonical form, and the host's port (20_memory.md R60 to R62) -/

namespace Sys2Proof.Machine

/-! #### The commands that leave MEM alone (R61) -/

/-- An outcome that, if it is a next state, has the MEM of `s`. -/
def KeepsMem (s : State) (o : Host.Outcome State Fault Refusal) : Prop := ∀ t, o = .next t → t.mem = s.mem

theorem KeepsMem.of_next {s u : State} (h : u.mem = s.mem) : KeepsMem s (.next u) := by
  intro t ht
  cases ht
  exact h

theorem KeepsMem.of_fault {s : State} {f : Fault} : KeepsMem s (.fault f) := by
  intro t ht
  cases ht

theorem KeepsMem.ite {s : State} {o o' : Host.Outcome State Fault Refusal} {c : Prop} [Decidable c]
    (h : KeepsMem s o) (h' : KeepsMem s o') : KeepsMem s (if c then o else o') := by
  split
  · exact h
  · exact h'

theorem plantForest_mem (s : State) (f : Forest) : (plantForest s f).mem = s.mem := by
  rw [plantForest_frame]

theorem execPqPop_keepsMem (s : State) : KeepsMem s (execPqPop s) := by
  unfold execPqPop
  split
  · exact .of_next rfl
  · exact .of_next rfl

theorem execTreeBuild_keepsMem (s : State) : KeepsMem s (execTreeBuild s) := by
  unfold execTreeBuild
  refine .ite (.of_next rfl) ?_
  -- Which forest is planted does not matter here; hidden, it is not unfolded.
  generalize Forest.build s.freq = f
  exact .of_next (plantForest_mem s f)

theorem execNodeRead_keepsMem (index : NodeIndex) (s : State) : KeepsMem s (execNodeRead index s) := by
  unfold execNodeRead
  split
  · exact .of_next rfl
  · exact .of_next rfl

theorem execCbGen_keepsMem (s : State) : KeepsMem s (execCbGen s) := by
  unfold execCbGen
  split
  · exact .of_fault
  · exact .of_next rfl

theorem execBrNext_keepsMem (s : State) : KeepsMem s (execBrNext s) := by
  unfold execBrNext
  split
  · exact .of_next rfl
  · exact .of_next rfl
  · exact .of_next rfl
  · exact .of_fault

/-- Only BP_PUSH, ENC_RUN and DEC_RUN write MEM. -/
theorem exec_keepsMem {i : Instr} (hpush : ∀ b, i ≠ .bpPush b) (henc : i ≠ .encRun) (hdec : i ≠ .decRun) (s : State) :
    KeepsMem s (exec i s) := by
  cases i
  case bpPush bit => exact absurd rfl (hpush bit)
  case encRun => exact absurd rfl henc
  case decRun => exact absurd rfl hdec
  case nop => exact .of_next rfl
  case ftClear => exact .of_next rfl
  case ftRecord sym => exact .ite (.of_next rfl) (.of_next rfl)
  case ftWrite sym => exact .of_next rfl
  case ftRead sym => exact .of_next rfl
  case ftScan => exact .ite (.of_next rfl) (.ite (.of_next rfl) (.of_next rfl))
  case pqClear => exact .of_next rfl
  case pqPush node => exact .ite (.of_next rfl) (.ite (.of_next rfl) (.of_next rfl))
  case pqPop => exact execPqPop_keepsMem s
  case treeBuild => exact execTreeBuild_keepsMem s
  case nodeRead index => exact execNodeRead_keepsMem index s
  case cbGen => exact execCbGen_keepsMem s
  case cbRead sym chunk => exact .ite (.of_next rfl) (.of_next rfl)
  case bpInit => exact .ite (.of_next rfl) (.of_next rfl)
  case bpFinish => exact .of_next rfl
  case brInit => exact .ite (.of_next rfl) (.of_next rfl)
  case brNext => exact execBrNext_keepsMem s
  case reset => exact .of_next rfl

/-- Settles O56: the list of cells is the same, so every byte reads the same. -/
theorem otherCommandsKeepMem : Obligations.OtherCommandsKeepMem := by
  intro i s t ht hpush henc hdec
  have hm : t.mem = s.mem := exec_keepsMem hpush henc hdec s t ht
  exact ⟨hm, fun a => congrArg (Memory.read · a) hm⟩

/-! #### The canonical form (R60) -/

theorem execBpPush_wf {bit : Byte} {s t : State} (hm : s.mem.wf = true) (h : execBpPush bit s = .next t) :
    t.mem.wf = true := by
  obtain he | ⟨-, he⟩ := execBpPush_mem h
  · rwa [he]
  · rw [he]
    exact packBit_wf hm _ _ _

theorem execEncRun_wf {s t : State} (hm : s.mem.wf = true) (h : execEncRun s = .next t) : t.mem.wf = true := by
  by_cases hr : RegionsOk s
  · obtain ⟨-, -, hplant, -⟩ := countAndPlant_same s
    have hu : s.countAndPlant.mem.wf = true := by
      rw [hplant]
      exact hm
    obtain ⟨rs, -, -, hend⟩ := execEncRun_next hr h
    -- As above, the planted tree is hidden.
    generalize s.countAndPlant = u at hu hend
    obtain ⟨r, rfl⟩ | ⟨P, size, bits, -, -, -, -, rfl⟩ := hend
    · exact hu
    · exact writeContainer_wf (u := { u with codebook := bookOf rs }) hu P size bits
  · obtain ⟨e, he⟩ := execEncRun_region_error hr
    obtain rfl := Host.Outcome.next.inj (h.symm.trans he)
    exact hm

theorem execDecRun_wf {s t : State} (hm : s.mem.wf = true) (h : execDecRun s = .next t) : t.mem.wf = true := by
  by_cases hr : RegionsOk s
  · obtain ⟨r, e, rfl⟩ | ⟨d, t', es, -, -, -, -, -, -, -, rfl⟩ := execDecRun_next hr h
    · exact hm
    · exact Memory.wf_writeBytes hm _ _
  · obtain ⟨e, he⟩ := execDecRun_region_error hr
    obtain rfl := Host.Outcome.next.inj (h.symm.trans he)
    exact hm

theorem exec_wf {i : Instr} {s t : State} (hm : s.mem.wf = true) (h : exec i s = .next t) : t.mem.wf = true := by
  by_cases hpush : ∃ b, i = .bpPush b
  · obtain ⟨b, rfl⟩ := hpush
    exact execBpPush_wf hm h
  by_cases henc : i = .encRun
  · subst henc
    exact execEncRun_wf hm h
  by_cases hdec : i = .decRun
  · subst hdec
    exact execDecRun_wf hm h
  rwa [exec_keepsMem (not_exists.1 hpush) henc hdec s t h]

theorem completeWord_wf {w : Word} {s t : State} (hm : s.mem.wf = true) (h : completeWord w s = .next t) :
    t.mem.wf = true := by
  obtain ⟨i, -, he⟩ | ⟨-, he⟩ := completeWord_cases w s
  · exact exec_wf hm (he.symm.trans h)
  · obtain rfl := Host.Outcome.next.inj (he.symm.trans h)
    exact hm

@[simp] theorem setReset_mem (s : State) (asserted : Bool) : (s.setReset asserted).mem = s.mem := by
  cases asserted
  · rfl
  · rfl

@[simp] theorem writeRegister_mem (s : State) (offset : Nat) (v : Word) : (s.writeRegister offset v).mem = s.mem := by
  rw [writeRegister_eq]

/-- A move of the outside writes one byte of MEM while the block is idle, or none (R62). -/
theorem hostMove_mem {s t : State} {m : HostMove} (h : hostMove s m = .next t) :
    t.mem = s.mem ∨ (s.busy = false ∧ ∃ a v, t.mem = s.mem.write a v) := by
  obtain ⟨a, -, rfl⟩ | ⟨r, rfl⟩ | ⟨-, rfl⟩ | ⟨offset, v, -, -, -, rfl⟩ | ⟨a, v, -, -, hb, -, rfl⟩ := hostMove_cases h
  · exact .inl (setReset_mem s a)
  · exact .inl rfl
  · exact .inl rfl
  · exact .inl (writeRegister_mem s offset v)
  · exact .inr ⟨hb, a, v, rfl⟩

theorem hostMove_wf {s t : State} {m : HostMove} (hm : s.mem.wf = true) (h : hostMove s m = .next t) :
    t.mem.wf = true := by
  obtain he | ⟨-, a, v, he⟩ := hostMove_mem h
  · rwa [he]
  · rw [he]
    exact Memory.wf_write hm a v

/-- Settles O57, along the three turns a step can take. -/
theorem stepKeepsMemoryCanonical : Obligations.StepKeepsMemoryCanonical := by
  intro s t hm ht
  obtain ⟨w, -, he⟩ | ⟨m, rest, -, he⟩ | ⟨-, he⟩ := step_cases s
  · exact completeWord_wf hm (he.symm.trans ht)
  · have hu : { s with host := rest }.mem.wf = true := hm
    exact hostMove_wf hu (he.symm.trans ht)
  · obtain rfl := Host.Outcome.next.inj (he.symm.trans ht)
    exact hm

/-! #### The BUSY window (R62; 60_exceptions.md R301) -/

/-- Every command ends with PENDING empty, RESET too (60_exceptions.md R301). -/
theorem not_busy_of_exec {i : Instr} {s t : State} (h : exec i s = .next t) : t.busy = false := by
  by_cases hi : i = .reset
  · subst hi
    cases h
    rfl
  · obtain ⟨u, code, rfl, -⟩ := exec_ends hi s t h
    rfl

theorem not_busy_of_completeWord {w : Word} {s t : State} (h : completeWord w s = .next t) : t.busy = false := by
  obtain ⟨i, -, he⟩ | ⟨-, he⟩ := completeWord_cases w s
  · exact not_busy_of_exec (he.symm.trans h)
  · obtain rfl := Host.Outcome.next.inj (he.symm.trans h)
    rfl

/-- No step inside the window changes MEM: a completion ends the window, and a host write is dropped. -/
theorem step_mem_of_busy {s t : State} (h : step s = .next t) (hs : s.busy = true) (ht : t.busy = true) :
    t.mem = s.mem := by
  obtain ⟨w, -, he⟩ | ⟨m, rest, -, he⟩ | ⟨-, he⟩ := step_cases s
  · have hidle := not_busy_of_completeWord (he.symm.trans h)
    exact absurd (hidle.symm.trans ht) Bool.false_ne_true
  · obtain hm | ⟨hidle, -⟩ := hostMove_mem (he.symm.trans h)
    · exact hm
    · have hbusy : { s with host := rest }.busy = true := hs
      exact absurd (hidle.symm.trans hbusy) Bool.false_ne_true
  · obtain rfl := Host.Outcome.next.inj (he.symm.trans h)
    rfl

/-! #### The port (R62) -/

theorem hostMove_readMem_beyond {s : State} (hr : s.rst = false) {a : Nat} (ha : s.cfg.memBytes ≤ a) :
    hostMove s (.readMem a) = .refused .memoryAddress := by
  rw [hostMove_access _ hr, hostAccess, if_neg (Nat.not_lt_of_le ha)]

theorem hostMove_writeMem_beyond {s : State} (hr : s.rst = false) {a : Nat} (ha : s.cfg.memBytes ≤ a) (v : Byte) :
    hostMove s (.writeMem a v) = .refused .memoryAddress := by
  rw [hostMove_access _ hr, hostAccess, if_pos ha]

theorem hostMove_readMem {s : State} (hr : s.rst = false) {a : Nat} (ha : a < s.cfg.memBytes) :
    hostMove s (.readMem a) = .next (s.reply (.byte (s.mem.read a))) := by
  rw [hostMove_access _ hr, hostAccess, if_pos ha]

theorem hostMove_writeMem_busy {s : State} (hb : s.busy = true) (hr : s.rst = false) {a : Nat}
    (ha : a < s.cfg.memBytes) (v : Byte) : hostMove s (.writeMem a v) = .next s.dropWrite := by
  rw [hostMove_access _ hr, hostAccess, if_neg (Nat.not_le_of_lt ha), if_pos hb]

theorem hostMove_writeMem_idle {s : State} (hb : s.busy = false) (hr : s.rst = false) {a : Nat}
    (ha : a < s.cfg.memBytes) (v : Byte) :
    hostMove s (.writeMem a v) = .next { s with mem := s.mem.write a v } := by
  rw [hostMove_access _ hr, hostAccess, if_neg (Nat.not_le_of_lt ha), if_neg (by simp [hb])]

/-- One byte written at `a` leaves every byte outside [a, a + 1). -/
theorem sameMemOutside_write (s : State) (a : Nat) (v : Byte) :
    SameMemOutside a 1 s { s with mem := s.mem.write a v } :=
  fun _ h => Memory.read_write_ne s.mem v (by omega)

/-- Settles O13: the window by `step_mem_of_busy`, then the port's answers beyond MEM, at a read, while BUSY and
while idle. -/
theorem hostMemoryPort : Obligations.HostMemoryPort := by
  refine ⟨fun s t => step_mem_of_busy, fun s a hr => ⟨fun ha => ?_, fun ha => ⟨?_, fun hb v => ?_, ?_⟩⟩⟩
  · exact ⟨hostMove_readMem_beyond hr ha, hostMove_writeMem_beyond hr ha⟩
  · exact hostMove_readMem hr ha
  · exact hostMove_writeMem_busy hb hr ha v
  · intro hb hm v
    exact ⟨_, hostMove_writeMem_idle hb hr ha v, rfl, Memory.read_write_self hm a v, sameMemOutside_write s a v⟩

end Sys2Proof.Machine
end

section
/-! ### The encoding: decoder and encoder agree, and what an illegal word does (30_encoding.md R80 to R85) -/

namespace Sys2Proof

/-- A command's own opcode and fields select it. -/
theorem selectRow_fields (i : Instr) : selectRow i.opcode i.fieldA i.fieldN = some i := by
  cases i <;> rfl

/-- A field that is its word's where the row uses it, and zero where not, is its word's exactly if the row uses it or
the word has zero there (R84 (a), (b)). -/
theorem used_or_zero_iff {k : Nat} {used : Bool} {field x : BitVec k} (hused : used = true → field = x)
    (hunused : used = false → field = 0) : (used || x == 0) = true ↔ field = x := by
  cases used with
  | true => simp [hused]
  | false => simpa [hunused] using eq_comm

/-- The field check of a selected row (R84): the operands are in range, and the command carries the word's two fields,
an unused field being zero in both. -/
theorem fieldCheck_eq_true_iff {o a : Byte} {n : BitVec 16} {i : Instr} (h : selectRow o a n = some i) :
    fieldCheck i a n = true ↔ i.WellFormed ∧ i.fieldA = a ∧ i.fieldN = n := by
  obtain ⟨-, hA, hA0, hN, hN0⟩ := selectRow_spec h
  rw [fieldCheck, Bool.and_eq_true, Bool.and_eq_true, used_or_zero_iff hA hA0, used_or_zero_iff hN hN0, and_comm]

/-- A word decodes to a command exactly if it selects the command's row and passes its field check (R85). -/
theorem decode_eq_ok_iff {w : Word} {i : Instr} :
    decode w = .ok i ↔
      selectRow (cmdOpc w) (cmdA w) (cmdN w) = some i ∧ fieldCheck i (cmdA w) (cmdN w) = true := by
  refine ⟨decode_ok, fun ⟨hrow, hcheck⟩ => ?_⟩
  simp only [decode, hrow, if_pos hcheck]

/-- Settles O2: the fields of the assembled word are the command's own, so they select it and pass its field check. -/
theorem encodeThenDecode : Obligations.EncodeThenDecode := by
  intro i hi
  have hrow := selectRow_fields i
  rw [decode_eq_ok_iff, cmdOpc_encode, cmdA_encode, cmdN_encode]
  exact ⟨hrow, (fieldCheck_eq_true_iff hrow).2 ⟨hi, rfl, rfl⟩⟩

/-- Settles O3: the command carries the word's opcode and its two fields, which make up the word. -/
theorem decodeThenEncode : Obligations.DecodeThenEncode := by
  intro w i h
  obtain ⟨hrow, hcheck⟩ := decode_ok h
  obtain ⟨hopc, -⟩ := selectRow_spec hrow
  obtain ⟨hwf, hA, hN⟩ := (fieldCheck_eq_true_iff hrow).1 hcheck
  exact ⟨hwf, by rw [encode, hopc, hA, hN, append_fields]⟩

/-- Settles O1: each word's fields are numerals, so the decoder computes. -/
theorem sampleWordsDecode : Obligations.SampleWordsDecode :=
  ⟨rfl, rfl, rfl, rfl, rfl, rfl, rfl, rfl, rfl, rfl, rfl, rfl, rfl, rfl, rfl⟩

namespace Machine

/-- A word that decodes has one of the 21 opcodes and passes R84's field conditions. -/
theorem definedOpcode_and_legalFields_of_decode {w : Word} {i : Instr} (h : decode w = .ok i) :
    wordOpc w ∈ definedOpcodes ∧ legalFields w := by
  obtain ⟨hrow, hcheck⟩ := decode_ok h
  refine ⟨?_, (fieldCheck_iff hrow).1 hcheck⟩
  by_contra hopc
  rw [← cmdOpc_toNat, ← selectRow_eq_none _ (cmdA w) (cmdN w), hrow] at hopc
  cases hopc

/-- The step that completes a word which is no command: ILLEGAL_COMMAND, PENDING empty, and nothing else (R83, R84). -/
theorem step_of_illegal {s : State} {w : Word} (ht : s.turn = .completion w) (h : ∀ i, decode w ≠ .ok i) :
    step s = .next { s with err := .illegalCommand, pending := none } := by
  obtain ⟨i, hi, -⟩ | ⟨-, he⟩ := completeWord_cases w s
  · exact absurd hi (h i)
  · exact (step_of_completion ht).trans he

/-- A word with a defined opcode and legal fields is a command (R84, R85). -/
theorem decode_of_legalFields {w : Word} (ho : wordOpc w ∈ definedOpcodes) (hf : legalFields w) :
    ∃ i, decode w = .ok i := by
  cases hrow : selectRow (cmdOpc w) (cmdA w) (cmdN w) with
  | none =>
    rw [selectRow_eq_none, cmdOpc_toNat] at hrow
    exact absurd ho hrow
  | some i => exact ⟨i, decode_eq_ok_iff.2 ⟨hrow, (fieldCheck_iff hrow).2 hf⟩⟩

/-- Settles O4: a word with a reserved opcode is no command. -/
theorem reservedOpcodeIsIllegal : Obligations.ReservedOpcodeIsIllegal := by
  refine ⟨rfl, fun s w ht ho => step_of_illegal ht fun i hi => ?_⟩
  exact ho (definedOpcode_and_legalFields_of_decode hi).1

/-- Settles O5: an illegal word is no command, and a legal one is the assembled word of its command (O3), whose opcode
and fields it therefore has. -/
theorem fieldCheckDecidesLegality : Obligations.FieldCheckDecidesLegality := by
  refine fun s w ht ho => ⟨fun hf => step_of_illegal ht fun i hi => ?_, fun hf => ?_⟩
  · exact hf (definedOpcode_and_legalFields_of_decode hi).2
  · obtain ⟨i, hi⟩ := decode_of_legalFields ho hf
    obtain ⟨-, rfl⟩ := decodeThenEncode w i hi
    refine ⟨i, hi, ?_, ?_, ?_⟩
    · rw [← cmdOpc_toNat, cmdOpc_encode]
    · rw [← cmdA_toNat, cmdA_encode]
    · rw [← cmdN_toNat, cmdN_encode]

end Machine

end Sys2Proof
end

section
/-! ### The frequency table commands (41_frequency_table.md R120 to R125) -/

namespace Sys2Proof.Machine

/-! #### The operations on FREQ -/

theorem FreqTable.get_put_ne (f : FreqTable) {s t : Byte} (h : t ≠ s) (v : DWord) : (f.put s v).get t = f.get t := by
  rw [FreqTable.get_put, if_neg h]

/-- A count below 2^64 - 1 takes one more without a wrap (R120). -/
theorem toNat_count_add_one {v : DWord} (h : v.toNat ≠ 2 ^ 64 - 1) : (v + 1).toNat = v.toNat + 1 := by
  have := v.isLt
  have hone : (1 : DWord).toNat = 1 := rfl
  rw [BitVec.toNat_add_of_lt, hone]
  omega

@[simp] theorem FreqTable.get_addCounts (f : FreqTable) (bytes : List Byte) (c : Byte) :
    (f.addCounts bytes).get c = BitVec.ofNat 64 ((f.get c).toNat + bytes.count c) :=
  FreqTable.get_tabulate _ c

/-- A sum of at most 2^64 - 1 is the new count itself (R125). -/
theorem FreqTable.toNat_get_addCounts {f : FreqTable} {bytes : List Byte} {c : Byte}
    (h : (f.get c).toNat + bytes.count c ≤ maxCount) :
    ((f.addCounts bytes).get c).toNat = (f.get c).toNat + bytes.count c := by
  rw [FreqTable.get_addCounts, BitVec.toNat_ofNat, Nat.mod_eq_of_lt (Nat.lt_of_le_of_lt h (by decide))]

/-- The scan's overflow check, on the counts of the source region (R125). -/
theorem scanOverflows_srcBytes_iff (s : State) :
    s.freq.scanOverflows s.srcBytes = true ↔ ∃ c, 2 ^ 64 - 1 < (s.freq.get c).toNat + sourceCount s c := by
  simp only [FreqTable.scanOverflows_iff, count_srcBytes]

/-! #### FT_RECORD and FT_SCAN, case by case -/

theorem execFtRecord_full {s : State} {sym : Byte} (h : (s.freq.get sym).toNat = maxCount) :
    execFtRecord sym s = .next (s.complete .weightOverflow) := if_pos h

theorem execFtRecord_counts {s : State} {sym : Byte} (h : (s.freq.get sym).toNat ≠ maxCount) :
    execFtRecord sym s = .next ({ s with freq := s.freq.put sym (s.freq.get sym + 1) }.complete .ok) := if_neg h

theorem execFtScan_outOfRange {s : State} (h : s.cfg.memBytes < s.srcAddr.toNat + s.srcLen.toNat) :
    execFtScan s = .next (s.complete .addrRange) := by
  have hr : ¬ s.srcInRange = true := by rw [srcInRange_iff]; omega
  rw [execFtScan, if_pos (by simpa using hr)]

theorem execFtScan_overflow {s : State} (h : s.srcAddr.toNat + s.srcLen.toNat ≤ s.cfg.memBytes)
    (ho : ∃ c, 2 ^ 64 - 1 < (s.freq.get c).toNat + sourceCount s c) :
    execFtScan s = .next (s.complete .weightOverflow) := by
  rw [execFtScan, if_neg (by simpa using (srcInRange_iff s).2 h), if_pos ((scanOverflows_srcBytes_iff s).2 ho)]

theorem execFtScan_adds {s : State} (h : s.srcAddr.toNat + s.srcLen.toNat ≤ s.cfg.memBytes)
    (hf : ∀ c, (s.freq.get c).toNat + sourceCount s c ≤ 2 ^ 64 - 1) :
    execFtScan s = .next ({ s with freq := s.freq.addCounts s.srcBytes }.complete .ok) := by
  have hno : ¬ s.freq.scanOverflows s.srcBytes = true := by
    rw [scanOverflows_srcBytes_iff]
    exact fun ⟨c, hc⟩ => Nat.not_lt_of_le (hf c) hc
  rw [execFtScan, if_neg (by simpa using (srcInRange_iff s).2 h), if_neg hno]

/-! #### The words and the commands -/

/-- The word of a command whose one operand is a symbol: the symbol stands in A, and N is zero (30_encoding.md R80). -/
theorem encode_toNat_of_symbol {i : Instr} {sym : Byte} (o : Byte) (ho : i.opcode = o) (ha : i.fieldA = sym)
    (hn : i.fieldN = 0#16) : (encode i).toNat = o.toNat * 2 ^ 24 + sym.toNat * 2 ^ 16 := by
  rw [encode_toNat, ho, ha, hn, BitVec.toNat_zero, Nat.add_zero]

/-- Settles O20: the two cases of FT_RECORD; below 2^64 - 1 the sum does not wrap. -/
theorem ftRecordCountsOneByte : Obligations.FtRecordCountsOneByte := by
  refine ⟨fun _ => encode_toNat_of_symbol 0x11 rfl rfl rfl, fun s sym => ⟨execFtRecord_full, fun h => ?_⟩⟩
  refine ⟨_, execFtRecord_counts h, ?_, fun c hc => FreqTable.get_put_ne _ hc _, rfl, fun _ => rfl⟩
  rw [State.complete_freq, FreqTable.get_put_self, toNat_count_add_one h]

/-- Settles O21: FREQ after the write is the table with the one count put. -/
theorem ftWriteSetsOneCount : Obligations.FtWriteSetsOneCount := by
  refine ⟨fun _ => encode_toNat_of_symbol 0x12 rfl rfl rfl, fun s sym => ?_⟩
  refine ⟨_, rfl, ?_, fun c hc => ?_, rfl, fun _ => rfl⟩
  · exact FreqTable.get_put_self _ _ _
  · exact FreqTable.get_put_ne _ hc _

/-- Settles O23: the three cases of FT_SCAN; where no sum passes 2^64 - 1, every new count is its sum. -/
theorem ftScanAddsTheByteCounts : Obligations.FtScanAddsTheByteCounts := by
  refine ⟨rfl, fun s => ⟨execFtScan_outOfRange, fun h => ⟨execFtScan_overflow h, fun hf => ?_⟩⟩⟩
  refine ⟨_, execFtScan_adds h hf, fun c => ?_, rfl, fun _ => rfl⟩
  have hc : (s.freq.get c).toNat + s.srcBytes.count c ≤ maxCount := by
    rw [count_srcBytes]
    exact hf c
  rw [State.complete_freq, FreqTable.toNat_get_addCounts hc, count_srcBytes]

/-- Settles O19: FREQ becomes the table of 256 zeros. -/
theorem ftClearZeroesEveryCount : Obligations.FtClearZeroesEveryCount :=
  ⟨rfl, fun _ => ⟨_, rfl, FreqTable.get_replicate 0, rfl, fun _ => rfl⟩⟩

/-- Settles O22: only RES0 is written. -/
theorem ftReadReturnsOneCount : Obligations.FtReadReturnsOneCount :=
  ⟨fun _ => encode_toNat_of_symbol 0x13 rfl rfl rfl, fun _ _ => ⟨_, rfl, rfl, fun _ => rfl⟩⟩

end Sys2Proof.Machine
end

section
/-! ### The priority queue's commands, and one combination of its two least entries (42_priority_queue.md R140 to R147,
43_tree_builder.md R164) -/

namespace Sys2Proof.Machine

/-! #### PQ_PUSH and PQ_POP, case by case -/

/-- A sequence number below 2^32 - 1 takes one more without a wrap (R143). -/
theorem toNat_seq_add_one {q : Word} (h : q.toNat ≠ 2 ^ 32 - 1) : (q + 1).toNat = q.toNat + 1 := by
  have := q.isLt
  have hone : (1 : Word).toNat = 1 := rfl
  rw [BitVec.toNat_add_of_lt, hone]
  omega

theorem execPqPush_full {s : State} {node : NodeIndex} (h : s.queue.length = 256 ∨ s.pqSeq.toNat = 2 ^ 32 - 1) :
    execPqPush node s = .next (s.complete .pqFull) := by
  by_cases hl : s.queue.length = pqCap
  · exact if_pos hl
  · rw [execPqPush, if_neg hl, if_pos (h.resolve_left hl)]

theorem execPqPush_adds {s : State} {node : NodeIndex} (hl : s.queue.length ≠ 256)
    (hs : s.pqSeq.toNat ≠ 2 ^ 32 - 1) :
    execPqPush node s = .next ({ s with
      queue := heapPush s.queue { weight := s.arg, seq := s.pqSeq, node := node }
      pqSeq := s.pqSeq + 1 }.complete .ok) := by
  rw [execPqPush, if_neg hl, if_neg hs]

theorem execPqPop_empty {s : State} (h : s.queue = []) : execPqPop s = .next (s.complete .pqEmpty) := by
  rw [execPqPop, h, heapPop_nil]

theorem execPqPop_of_heapPop {s : State} {e : PqEntry} {q : List PqEntry} (h : heapPop s.queue = some (e, q)) :
    execPqPop s = .next ({ s with queue := q, res0 := e.weight, res1 := e.resultWord }.complete .ok) := by
  rw [execPqPop, h]

/-- The number PQ_POP leaves in RES1 (R147). -/
theorem PqEntry.resultWord_toNat (e : PqEntry) : e.resultWord.toNat = e.seq.toNat * 2 ^ 32 + e.node.toNat := by
  rw [PqEntry.resultWord, append_toNat, append_toNat, BitVec.toNat_zero]
  omega

/-! #### One combination -/

/-- Two pops that answer make a combination of what they answer (43_tree_builder.md R164). -/
theorem Forest.combineOnce_of_heapPop {f : Forest} {a b : PqEntry} {q1 q2 : List PqEntry}
    (ha : heapPop f.queue = some (a, q1)) (hb : heapPop q1 = some (b, q2)) :
    f.combineOnce = some (Forest.addNode { f with queue := q2 }
      (.internal (a.weight + b.weight) (some a.node) (some b.node))) := by
  simp only [Forest.combineOnce, ha, hb]

/-- A queue of two entries or more answers two pops. -/
theorem exists_two_heapPop {q : List PqEntry} (h : 2 ≤ q.length) :
    ∃ a q1 b q2, heapPop q = some (a, q1) ∧ heapPop q1 = some (b, q2) := by
  obtain ⟨a, q1, ha⟩ := exists_heapPop (List.ne_nil_of_length_pos (by omega : 0 < q.length))
  have hlen := heapPop_length ha
  obtain ⟨b, q2, hb⟩ := exists_heapPop (List.ne_nil_of_length_pos (by omega : 0 < q1.length))
  exact ⟨a, q1, b, q2, ha, hb⟩

/-! #### The words and the commands -/

/-- The word of a command whose one operand is an index: the index stands in N, and A is zero (30_encoding.md R80). -/
theorem encode_toNat_of_index {i : Instr} {index : NodeIndex} (o : Byte) (ho : i.opcode = o) (ha : i.fieldA = 0#8)
    (hn : i.fieldN = index) : (encode i).toNat = o.toNat * 2 ^ 24 + index.toNat := by
  rw [encode_toNat, ho, ha, hn, BitVec.toNat_zero, Nat.zero_mul, Nat.add_zero]

/-- Settles O25: the new entry is last in push order, and below 2^32 - 1 the sequence number does not wrap. -/
theorem pqPushAddsOneEntry : Obligations.PqPushAddsOneEntry := by
  refine ⟨fun _ => encode_toNat_of_index 0x21 rfl rfl rfl, fun s node => ⟨execPqPush_full, fun hl hs => ?_⟩⟩
  exact ⟨_, execPqPush_adds hl hs, List.perm_append_singleton _ _, List.length_append, toNat_seq_add_one hs, rfl,
    fun _ => rfl⟩

/-- Settles O26: from a queue with entries `heapPop` answers, and its answer is the pop law. -/
theorem pqPopTakesTheLeastKey : Obligations.PqPopTakesTheLeastKey := by
  refine ⟨rfl, fun s => ⟨execPqPop_empty, fun hne => ?_⟩⟩
  obtain ⟨e, q, hpop⟩ := exists_heapPop hne
  obtain ⟨hperm, -, hleast⟩ := heapPop_spec hpop
  refine ⟨_, e, execPqPop_of_heapPop hpop, hperm, fun x hx => ?_, rfl, e.resultWord_toNat, rfl, fun _ => rfl⟩
  exact ((PqEntry.not_before_iff x e).1 (hleast x hx)).imp_right (And.imp_left Eq.symm)

/-- Settles O30: the two entries are those of two pops, each least by the pop law in what it was popped from. -/
theorem combinationTakesTheTwoLeast : Obligations.CombinationTakesTheTwoLeast := by
  refine fun f => ⟨Forest.combineOnce_eq_none.2, fun hlen => ?_⟩
  obtain ⟨a, q1, b, q2, ha, hb⟩ := exists_two_heapPop hlen
  obtain ⟨perm_a, -, least_a⟩ := heapPop_spec ha
  obtain ⟨perm_b, -, least_b⟩ := heapPop_spec hb
  exact ⟨_, a, b, q2, Forest.combineOnce_of_heapPop ha hb, perm_a.trans (perm_b.cons a),
    fun x hx => least_a x (perm_b.mem_iff.2 hx), least_b, rfl, rfl, rfl⟩

/-- Settles O24: only the queue and PQ_SEQ are written. -/
theorem pqClearEmptiesTheQueue : Obligations.PqClearEmptiesTheQueue :=
  ⟨rfl, fun _ => ⟨_, rfl, rfl, fun _ => rfl⟩⟩

end Sys2Proof.Machine
end

section
/-! ### The tree builder's commands (43_tree_builder.md R160 to R169)

`Forest.build_spec` says what the construction answers; the lemmas here say what state TREE_BUILD makes of that answer. -/

namespace Sys2Proof.Machine

/-! #### The state TREE_BUILD ends in -/

/-- No symbol is counted exactly when every count is 0. -/
theorem counted_eq_nil_iff (freq : FreqTable) : counted freq = [] ↔ ∀ c, freq.get c = 0 := by
  simp [List.eq_nil_iff_forall_not_mem, mem_counted]

theorem total_of_counted_eq_nil {freq : FreqTable} (h : counted freq = []) : freq.total = 0 := by
  rw [total_eq_sum_counted, h, List.map_nil, List.sum_nil]

/-- With no symbol counted TREE_BUILD ends with an empty tree (R166). -/
theorem treeBuilt_of_counted_eq_nil {s : State} (h : counted s.freq = []) :
    treeBuilt s = { s with
      nodes := [], root := 0, rootValid := false, queue := [], pqSeq := 0, codebook := emptyCodebook,
      res0 := 0, res1 := 0, err := .ok, pending := none } := by
  have hn : (counted s.freq).length = 0 := List.length_eq_zero_iff.2 h
  rw [treeBuilt, Forest.build_empty hn, leafCount_eq, hn]
  rfl

/-- Where the construction leaves one entry, TREE_BUILD pops it as the root and ends with that tree (R163, R164). -/
theorem treeBuilt_of_heapPop {s : State} {e : PqEntry} (h : heapPop (Forest.build s.freq).queue = some (e, [])) :
    treeBuilt s = { s with
      nodes := (Forest.build s.freq).nodes, root := e.node, rootValid := true, queue := [],
      pqSeq := (Forest.build s.freq).seq, codebook := emptyCodebook,
      res0 := e.weight, res1 := BitVec.ofNat 64 (counted s.freq).length, err := .ok, pending := none } := by
  simp only [treeBuilt, plantForest, Forest.rootWeight, h, leafCount_eq, State.complete]

/-- The construction keeps its invariant to the end, with leaves or without. -/
theorem Forest.exists_grows_build {freq : FreqTable} (h : freq.total ≤ maxCount) :
    ∃ ps, (Forest.build freq).Grows freq (counted freq) ps := by
  rw [total_eq_sum_counted] at h
  exact (Forest.Grows.combine (length_counted_le freq) h _ _ (Forest.seed_grows freq).1 (Nat.le_succ _)).1

/-- The arena TREE_BUILD leaves is the one that was built, the empty one too. -/
theorem treeBuilt_nodes {s : State} (h : s.freq.total ≤ maxCount) :
    (treeBuilt s).nodes = (Forest.build s.freq).nodes := by
  by_cases hnil : counted s.freq = []
  · rw [treeBuilt_of_counted_eq_nil hnil, Forest.build_empty (List.length_eq_zero_iff.2 hnil)]
    rfl
  · obtain ⟨e, t, -, hpop, -, -⟩ := Forest.build_spec (List.length_pos_of_ne_nil hnil) h
    rw [treeBuilt_of_heapPop hpop]

/-- What TREE_BUILD writes is a function of FREQ (R169). -/
theorem treeBuilt_of_freq_eq {s s' : State} (h : s'.freq = s.freq) :
    treeBuilt s' = { s' with
      nodes := (treeBuilt s).nodes, root := (treeBuilt s).root, rootValid := (treeBuilt s).rootValid,
      queue := (treeBuilt s).queue, pqSeq := (treeBuilt s).pqSeq, codebook := (treeBuilt s).codebook,
      res0 := (treeBuilt s).res0, res1 := (treeBuilt s).res1, err := .ok, pending := none } := by
  unfold treeBuilt plantForest
  rw [h]
  split <;> rfl

/-- The one tree that is left weighs the sum of the counts (R168). -/
theorem Forest.Grows.weight_eq_total {freq : FreqTable} {f : Forest} {e : PqEntry} {t : CodeTree}
    (h : f.Grows freq (counted freq) [(e, t)]) : t.weight freq = freq.total := by
  have hleaves : t.leaves.Perm (counted freq) := by simpa using h.leaves
  rw [CodeTree.weight_eq_sum, total_eq_sum_counted]
  exact (hleaves.map _).sum_eq

/-! #### TREE_BUILD -/

/-- Settles O27: the overflow check, and the construction from no leaf at all. -/
theorem treeBuildEdgeCases : Obligations.TreeBuildEdgeCases := by
  refine fun s => ⟨execTreeBuild_overflow, fun hzero => ?_⟩
  have hnil := (counted_eq_nil_iff s.freq).2 hzero
  have hfits : s.freq.total ≤ maxCount := (total_of_counted_eq_nil hnil).trans_le (Nat.zero_le _)
  refine ⟨_, (execTreeBuild_fits hfits).trans (congrArg _ (treeBuilt_of_counted_eq_nil hnil)), fun c => ?_, rfl,
    fun _ => rfl⟩
  exact congrArg CbEntry.valid (Codebook.get_emptyCodebook c)

/-- Settles O28: `Forest.build_spec` gives the number of nodes and the root's index, PQ_SEQ went up with NCOUNT, and all
these numbers are below 512, so none wraps. -/
theorem treeBuildShape : Obligations.TreeBuildShape := by
  rintro s n hfits rfl hn
  obtain ⟨e, t, hgrows, hpop, hnodes, hroot⟩ := Forest.build_spec hn hfits
  have hle := length_counted_le s.freq
  refine ⟨_, (execTreeBuild_fits hfits).trans (congrArg _ (treeBuilt_of_heapPop hpop)), hnodes, hroot, rfl, rfl, ?_, ?_,
    Codebook.get_emptyCodebook, rfl, fun _ => rfl⟩
  · change (Forest.build s.freq).seq.toNat = 2 * (counted s.freq).length - 1
    rw [hgrows.seq, BitVec.toNat_ofNat, hnodes]
    omega
  · change (BitVec.ofNat 64 (counted s.freq).length).toNat = (counted s.freq).length
    rw [BitVec.toNat_ofNat]
    omega

/-- Settles O29: the parts `first`, `later` and `picked` of the construction's invariant. -/
theorem treeBuildNodes : Obligations.TreeBuildNodes := by
  intro s t ht hok
  obtain ⟨hfits, rfl⟩ := execTreeBuild_of_ok ht hok
  obtain ⟨ps, hgrows⟩ := Forest.exists_grows_build hfits
  rw [treeBuilt_nodes hfits]
  refine ⟨hgrows.first, fun i m hi hm => ?_⟩
  obtain ⟨l, r, a, b, hinternal, hl, hr, ha, hb, hweight⟩ := hgrows.later i m hi hm
  exact ⟨l, r, a, b, hinternal, hl, hr, ha, hb, hweight, hgrows.picked i m.weight l r (hinternal ▸ hm)⟩

/-- Settles O31: the root entry and its record both carry the weight of the one tree that is left. -/
theorem rootWeightIsTheSumOfCounts : Obligations.RootWeightIsTheSumOfCounts := by
  rintro s t ht hok ⟨c, hc⟩
  obtain ⟨hfits, rfl⟩ := execTreeBuild_of_ok ht hok
  have hn : 1 ≤ (counted s.freq).length := List.length_pos_of_mem ((mem_counted s.freq c).2 hc)
  obtain ⟨e, t, hgrows, hpop, -, -⟩ := Forest.build_spec hn hfits
  have hentry : e.weight.toNat = t.weight s.freq := hgrows.weight _ (List.mem_singleton_self _)
  obtain ⟨m, hm, hrecord⟩ := (hgrows.holds _ (List.mem_singleton_self _)).root
  rw [treeBuilt_of_heapPop hpop]
  exact ⟨m, hm, hrecord.trans hgrows.weight_eq_total, BitVec.eq_of_toNat_eq (hentry.trans hrecord.symm)⟩

/-- Settles O32: the overflow check and the state after it are both functions of FREQ. -/
theorem treeBuildDependsOnFreqOnly : Obligations.TreeBuildDependsOnFreqOnly := by
  intro s s' t t' hfreq ht ht'
  by_cases hfits : s.freq.total ≤ maxCount
  · cases (execTreeBuild_fits hfits).symm.trans ht
    cases (execTreeBuild_fits (hfreq ▸ hfits)).symm.trans ht'
    rw [treeBuilt_of_freq_eq hfreq.symm]
    exact ⟨rfl, fun _ => ⟨rfl, rfl, rfl, rfl, rfl, rfl, rfl, rfl⟩⟩
  · have hover : maxCount < s.freq.total := Nat.lt_of_not_le hfits
    cases (execTreeBuild_overflow hover).symm.trans ht
    cases (execTreeBuild_overflow (hfreq ▸ hover)).symm.trans ht'
    exact ⟨rfl, fun hok => by cases hok⟩

/-! #### NODE_READ -/

theorem execNodeRead_badIndex {s : State} {index : NodeIndex} (h : s.nodes.length ≤ index.toNat) :
    execNodeRead index s = .next (s.complete .badIndex) := by
  rw [execNodeRead, List.getElem?_eq_none h]

theorem execNodeRead_of_record {s : State} {index : NodeIndex} {n : Node} (h : s.nodes[index.toNat]? = some n) :
    execNodeRead index s = .next ({ s with res0 := n.weight, res1 := n.resultWord }.complete .ok) := by
  rw [execNodeRead, h]

/-- The number NODE_READ leaves in RES1: the fields at their bit positions (R167). -/
theorem Node.resultWord_toNat (n : Node) :
    n.resultWord.toNat = (n.child true).isSome.toNat * 2 ^ 42 + (n.child false).isSome.toNat * 2 ^ 41 +
      n.isLeaf.toNat * 2 ^ 40 + n.sym.toNat * 2 ^ 32 + ((n.child true).getD 0).toNat * 2 ^ 16 +
      ((n.child false).getD 0).toNat := by
  simp only [Node.resultWord, append_toNat, BitVec.toNat_ofBool, BitVec.toNat_zero]
  omega

/-- Settles O33: the record at the index, or none from NCOUNT on. -/
theorem nodeReadReportsARecord : Obligations.NodeReadReportsARecord := by
  refine ⟨fun _ => encode_toNat_of_index 0x31 rfl rfl rfl, fun s index => ⟨execNodeRead_badIndex, fun n hn => ?_⟩⟩
  exact ⟨_, execNodeRead_of_record hn, rfl, n.resultWord_toNat, rfl, fun _ => rfl⟩

end Sys2Proof.Machine
end

section
/-! ### The codebook generator's commands (44_codebook.md R182 to R186) -/

namespace Sys2Proof.Machine

/-! #### The codes of CB_GEN -/

/-- The state of a CB_GEN that makes a codebook (R182). -/
def codebookGenerated (s : State) (cb : Codebook) : State :=
  { s with
    codebook := cb
    res0 := BitVec.ofNat 64 cb.count
    res1 := BitVec.ofNat 64 cb.longest }.complete .ok

/-- CB_GEN answers a next state exactly where there is a codebook (R182; log entry 14). -/
theorem execCbGen_eq_next_iff {s t : State} :
    execCbGen s = .next t ↔ ∃ cb, generateCodebook s = some cb ∧ t = codebookGenerated s cb := by
  cases hcb : generateCodebook s with
  | none => simp [execCbGen, hcb]
  | some cb => simp [execCbGen, hcb, codebookGenerated, eq_comm]

/-- A code the rules give a leaf of symbol x in the current tree: [0] for a root that is a Leaf (R183), else a path to
the leaf from the root (R182). -/
def State.LeafCode (s : State) (x : Byte) (c : Code) : Prop :=
  s.rootValid = true ∧
    ((∃ w, s.nodes[s.root.toNat]? = some (.leaf x w) ∧ c = [false]) ∨
     (∃ w l r w', s.nodes[s.root.toNat]? = some (.internal w l r) ∧
        followPath s.nodes s.root.toNat c = some (.leaf x w')))

theorem State.leafCode_of_leafRoot {s : State} {y : Byte} {v : DWord} (hv : s.rootValid = true)
    (hroot : s.nodes[s.root.toNat]? = some (.leaf y v)) (x : Byte) (c : Code) :
    s.LeafCode x c ↔ x = y ∧ c = [false] := by
  simp [State.LeafCode, hv, hroot, eq_comm]

theorem State.leafCode_of_internalRoot {s : State} {v : DWord} {l r : Option NodeIndex} (hv : s.rootValid = true)
    (hroot : s.nodes[s.root.toNat]? = some (.internal v l r)) (x : Byte) (c : Code) :
    s.LeafCode x c ↔ ∃ w, followPath s.nodes s.root.toNat c = some (.leaf x w) := by
  simp [State.LeafCode, hv, hroot]

/-- The records of CB_GEN are the leaves' codes of at most 255 bits (R182, R183). -/
theorem mem_codesOf_iff {s : State} {rs : List (Byte × Code)} (hv : s.rootValid = true)
    (h : codesOf s.nodes s.root.toNat = some rs) (x : Byte) (c : Code) :
    (x, c) ∈ rs ↔ s.LeafCode x c ∧ c.length ≤ 255 := by
  rcases codesOf_spec h with ⟨y, w, hroot, rfl⟩ | ⟨w, l, r, hroot, hmem⟩
  · rw [State.leafCode_of_leafRoot hv hroot, List.mem_singleton, Prod.mk.injEq]
    exact ⟨fun ⟨hx, hc⟩ => ⟨⟨hx, hc⟩, by simp [hc]⟩, And.left⟩
  · rw [State.leafCode_of_internalRoot hv hroot, hmem]
    refine ⟨fun ⟨_, hle, hpath⟩ => ⟨hpath, hle⟩, fun ⟨hpath, hle⟩ => ⟨?_, hle, hpath⟩⟩
    refine List.length_pos_of_ne_nil ?_
    rintro rfl
    obtain ⟨w', hpath⟩ := hpath
    rw [followPath_nil, hroot] at hpath
    cases hpath

/-- In an arena in order no leaf's code is longer than 255 (10_state.md R28(a), R29). -/
theorem State.LeafCode.length_le {s : State} {x : Byte} {c : Code} (h : s.LeafCode x c) (hlinks : s.LinksOk) :
    c.length ≤ 255 := by
  obtain ⟨-, hchildren, -, htree⟩ := hlinks
  obtain ⟨hv, ⟨w, -, rfl⟩ | ⟨w, l, r, w', -, hpath⟩⟩ := h
  · decide
  · obtain ⟨hroot, hbounded⟩ := htree hv
    by_contra hlong
    have hnone := followPath_append_none hchildren hroot
      (hbounded (c.take 256) (by rw [List.length_take]; omega)) (c.drop 256)
    rw [List.take_append_drop, hpath] at hnone
    cases hnone

/-- A leaf has no children, so of two leaves' codes one is a prefix of the other only where the leaf is the same (R185). -/
theorem State.LeafCode.eq_of_prefix {s : State} {x y : Byte} {c d : Code} (hx : s.LeafCode x c) (hy : s.LeafCode y d)
    (hprefix : c <+: d) : x = y := by
  obtain ⟨hv, ⟨w, hroot, -⟩ | ⟨w, l, r, v, hroot, hpath⟩⟩ := hx
  · exact (((State.leafCode_of_leafRoot hv hroot y d).1 hy).1).symm
  · obtain ⟨v', hpath'⟩ := (State.leafCode_of_internalRoot hv hroot y d).1 hy
    exact (leaf_paths_prefix_free hpath hpath' hprefix).2

/-- A symbol's code after CB_GEN is a code of a leaf of that symbol (R182). -/
theorem leafCode_of_codeOf {s : State} {cb : Codebook} (h : generateCodebook s = some cb) {x : Byte} {c : Code}
    (hc : cb.codeOf x = some c) : s.LeafCode x c ∧ 1 ≤ c.length := by
  rcases generateCodebook_cases h with ⟨-, rfl⟩ | ⟨hv, rs, hrs, rfl⟩
  · rw [Codebook.codeOf_emptyCodebook] at hc
    cases hc
  · have hmem := codeOf_records (fun r hr => (codesOf_length hrs r hr).2) hc
    exact ⟨((mem_codesOf_iff hv hrs x c).1 hmem).1, (codesOf_length hrs _ hmem).1⟩

/-- In an arena in order every leaf's symbol has a code after CB_GEN (R182). -/
theorem State.LeafCode.exists_codeOf {s : State} {x : Byte} {c : Code} (h : s.LeafCode x c) (hlinks : s.LinksOk)
    {cb : Codebook} (hcb : generateCodebook s = some cb) : ∃ d, cb.codeOf x = some d := by
  rcases generateCodebook_cases hcb with ⟨hv, -⟩ | ⟨hv, rs, hrs, rfl⟩
  · cases hv.symm.trans h.1
  · exact exists_codeOf_records ((mem_codesOf_iff hv hrs x c).2 ⟨h, h.length_le hlinks⟩)

/-- Settles O35: both codes are codes of leaves, and those are prefix-free. -/
theorem codesArePrefixFree : Obligations.CodesArePrefixFree := by
  intro s t x y c d ht hne hc hd hprefix
  obtain ⟨cb, hcb, rfl⟩ := execCbGen_eq_next_iff.1 ht
  exact hne ((leafCode_of_codeOf hcb hc).1.eq_of_prefix (leafCode_of_codeOf hcb hd).1 hprefix)

/-! #### The numbers CB_GEN reports -/

theorem toNat_count (cb : Codebook) : (BitVec.ofNat 64 cb.count).toNat = cb.count := by
  have := cb.count_le
  rw [BitVec.toNat_ofNat]
  omega

theorem toNat_longest (cb : Codebook) : (BitVec.ofNat 64 cb.longest).toNat = cb.longest := by
  have := cb.longest_lt
  rw [BitVec.toNat_ofNat]
  omega

theorem Codebook.length_le_longest {cb : Codebook} {x : Byte} {c : Code} (h : cb.codeOf x = some c) :
    c.length ≤ cb.longest := by
  obtain ⟨hvalid, rfl⟩ := Codebook.codeOf_eq_some.1 h
  rw [CbEntry.length_code]
  exact Codebook.le_longest hvalid

theorem Codebook.exists_length_eq_longest {cb : Codebook} {x : Byte} {c : Code} (h : cb.codeOf x = some c) :
    ∃ y d, cb.codeOf y = some d ∧ d.length = cb.longest := by
  rcases cb.longest_attained with hzero | ⟨y, hvalid, hlen⟩
  · exact ⟨x, c, h, Nat.le_antisymm (Codebook.length_le_longest h) (hzero ▸ Nat.zero_le _)⟩
  · exact ⟨y, _, Codebook.codeOf_eq_some.2 ⟨hvalid, rfl⟩, (CbEntry.length_code _).trans hlen⟩

theorem Codebook.longest_eq_zero {cb : Codebook} (h : ∀ x, cb.codeOf x = none) : cb.longest = 0 := by
  rcases cb.longest_attained with hzero | ⟨y, hvalid, -⟩
  · exact hzero
  · cases (Codebook.codeOf_eq_none.1 (h y)).symm.trans hvalid

/-- Settles O34: `generateCodebook` answers, the codes it gives are codes of leaves, and each leaf's symbol has one. -/
theorem cbGenAssignsThePaths : Obligations.CbGenAssignsThePaths := by
  intro s hlinks
  obtain ⟨cb, hcb⟩ := exists_generateCodebook hlinks
  have hcount : (codebookGenerated s cb).res0.toNat = cb.count := toNat_count cb
  have hlongest : (codebookGenerated s cb).res1.toNat = cb.longest := toNat_longest cb
  refine ⟨codebookGenerated s cb, execCbGen_eq_next_iff.2 ⟨cb, hcb, rfl⟩, rfl, fun _ => rfl, fun hv => ?_,
    fun x w hv hroot c => ?_, fun w l r hv hroot => ⟨fun x c hc => ?_, fun x c w' hpath => ?_⟩,
    hcount.trans cb.count_eq_length, fun x c hc => ?_, ?_, fun hnone => ?_⟩
  · have hempty : cb = emptyCodebook := by
      rcases generateCodebook_cases hcb with ⟨-, he⟩ | ⟨hv', -⟩
      · exact he
      · cases hv.symm.trans hv'
    subst hempty
    have hnone := Codebook.codeOf_emptyCodebook
    exact ⟨hnone, BitVec.eq_of_toNat_eq (hcount.trans Codebook.count_emptyCodebook),
      BitVec.eq_of_toNat_eq (hlongest.trans (Codebook.longest_eq_zero hnone))⟩
  · have hleaf := State.leafCode_of_leafRoot hv hroot
    split
    · next heq =>
      obtain ⟨d, hd⟩ := ((hleaf c [false]).2 ⟨heq, rfl⟩).exists_codeOf hlinks hcb
      rw [← ((hleaf c d).1 (leafCode_of_codeOf hcb hd).1).2]
      exact hd
    · next hne =>
      refine Option.eq_none_iff_forall_ne_some.2 fun d hd => hne ?_
      exact ((hleaf c d).1 (leafCode_of_codeOf hcb hd).1).1
  · exact (State.leafCode_of_internalRoot hv hroot x c).1 (leafCode_of_codeOf hcb hc).1
  · exact ((State.leafCode_of_internalRoot hv hroot x c).2 ⟨w', hpath⟩).exists_codeOf hlinks hcb
  · exact ⟨(leafCode_of_codeOf hcb hc).2, hlongest ▸ Codebook.length_le_longest hc⟩
  · rintro ⟨x, c, hc⟩
    rw [hlongest]
    exact Codebook.exists_length_eq_longest hc
  · exact BitVec.eq_of_toNat_eq (hlongest.trans (Codebook.longest_eq_zero hnone))

/-! #### The Kraft sum of TREE_BUILD's codes -/

theorem perm_valid_bookOf {rs : List (Byte × Code)} (hnodup : (rs.map Prod.fst).Nodup) :
    (allSymbols.filter fun c => ((bookOf rs).get c).valid).Perm (rs.map Prod.fst) := perm_valid_records hnodup

/-- The Kraft sum over a codebook of recorded codes is the one over the records. -/
theorem kraftSum_records {rs : List (Byte × Code)} (hnodup : (rs.map Prod.fst).Nodup)
    (hlen : ∀ r ∈ rs, r.2.length ≤ 255) :
    ((allSymbols.filter fun c => ((bookOf rs).get c).valid).map
      fun c => 2 ^ (255 - ((bookOf rs).get c).len.toNat)).sum = (rs.map fun r => 2 ^ (255 - r.2.length)).sum := by
  rw [((perm_valid_bookOf hnodup).map _).sum_eq, List.map_map]
  refine congrArg List.sum (List.map_congr_left fun r hr => ?_)
  have hentry : (bookOf rs).get r.1 = CbEntry.ofCode r.2 := get_records_of_mem hnodup hr
  rw [Function.comp_apply, hentry, CbEntry.ofCode_len (hlen r hr)]

theorem count_records {rs : List (Byte × Code)} (hnodup : (rs.map Prod.fst).Nodup) : (bookOf rs).count = rs.length := by
  rw [Codebook.count_eq_length, (perm_valid_bookOf hnodup).length_eq, List.length_map]

theorem CodeTree.assigned_fst (t : CodeTree) : t.assigned.map Prod.fst = t.leaves := by
  cases t with
  | leaf x => rfl
  | node l r => exact CodeTree.codes_fst _ _

/-- A full binary tree's codes have the Kraft sum 1, and the code [0] of a lone leaf has 1/2 (R186). -/
theorem CodeTree.kraftSum_assigned {t : CodeTree} (h : t.leaves.length ≤ 256) :
    (t.assigned.map fun r => 2 ^ (255 - r.2.length)).sum = if t.leaves.length = 1 then 2 ^ 254 else 2 ^ 255 := by
  cases t with
  | leaf x => simp [CodeTree.assigned, CodeTree.leaves]
  | node l r =>
    have hheight := (CodeTree.node l r).height_lt
    have hl := l.leaves_pos
    have hr := r.leaves_pos
    have hmany : (CodeTree.node l r).leaves.length ≠ 1 := by
      rw [CodeTree.leaves, List.length_append]
      omega
    rw [if_neg hmany]
    exact (CodeTree.node l r).kraft [] 255 (by rw [List.length_nil]; omega)

/-- CB_GEN on TREE_BUILD's tree records the codes of one tree, whose leaves are the counted symbols (R163, R182). -/
theorem generateCodebook_treeBuilt {s : State} (hfits : s.freq.total ≤ maxCount) (hn : 1 ≤ (counted s.freq).length) :
    ∃ t : CodeTree, t.leaves.Perm (counted s.freq) ∧ codesOf (treeBuilt s).nodes (treeBuilt s).root.toNat = some t.assigned ∧
      generateCodebook (treeBuilt s) = some (bookOf t.assigned) := by
  obtain ⟨e, t, hgrows, hpop, -, -⟩ := Forest.build_spec hn hfits
  have hleaves : t.leaves.Perm (counted s.freq) := by simpa using hgrows.leaves
  have hcodes := codesOf_holds (hgrows.holds _ (List.mem_singleton_self _))
    (hleaves.length_eq.trans_le (length_counted_le _))
  rw [treeBuilt_of_heapPop hpop]
  exact ⟨t, hleaves, hcodes, by simp only [generateCodebook, if_true, hcodes, Option.map_some]; rfl⟩

/-- Settles O36: the codebook is that of one full binary tree with n leaves. -/
theorem codesAreComplete : Obligations.CodesAreComplete := by
  rintro s t u n ht hok hu rfl hn
  obtain ⟨hfits, rfl⟩ := execTreeBuild_of_ok ht hok
  obtain ⟨cb, hcb, rfl⟩ := execCbGen_eq_next_iff.1 hu
  obtain ⟨tree, hleaves, hcodes, hbook⟩ := generateCodebook_treeBuilt hfits hn
  cases hcb.symm.trans hbook
  have hnodup : (tree.assigned.map Prod.fst).Nodup := by
    rw [tree.assigned_fst]
    exact hleaves.nodup_iff.2 (nodup_counted _)
  have hlength : tree.leaves.length = (counted s.freq).length := hleaves.length_eq
  have hassigned : tree.assigned.length = tree.leaves.length := by rw [← tree.assigned_fst, List.length_map]
  refine ⟨(count_records hnodup).trans (hassigned.trans hlength), ?_⟩
  refine (kraftSum_records hnodup fun r hr => (codesOf_length hcodes r hr).2).trans ?_
  rw [CodeTree.kraftSum_assigned (hlength.trans_le (length_counted_le _)), hlength]
  rfl

/-! #### CB_READ -/

theorem execCbRead_of_chunk {sym : Byte} {chunk : BitVec 16} (h : chunk.toNat ≤ 3) (s : State) :
    execCbRead sym chunk s = .next ({ s with
      res0 := (s.codebook.get sym).bits.extractLsb' (64 * chunk.toNat) 64
      res1 := (s.codebook.get sym).resultWord }.complete .ok) := if_neg (Nat.not_lt.2 h)

/-- The number CB_READ leaves in RES1: the valid bit above the length (R184). -/
theorem CbEntry.resultWord_toNat (e : CbEntry) : e.resultWord.toNat = e.valid.toNat * 2 ^ 8 + e.len.toNat := by
  rw [CbEntry.resultWord, append_toNat, append_toNat, BitVec.toNat_ofBool, BitVec.toNat_zero]
  omega

/-- An entry in order with no code holds zeros only (10_state.md R32). -/
theorem CbEntry.Ok.eq_of_not_valid {e : CbEntry} (h : e.Ok) (hv : e.valid = false) :
    e = { valid := false, len := 0, bits := 0 } := by
  obtain ⟨valid, len, bits⟩ := e
  obtain ⟨rfl, rfl⟩ : len = 0 ∧ bits = 0 := h.2 hv
  cases hv
  rfl

/-- The word of a command with two operands: the symbol in A, the chunk in N (30_encoding.md R80). -/
theorem encode_cbRead_toNat (sym : Byte) (chunk : BitVec 16) :
    (encode (.cbRead sym chunk)).toNat = 0x41000000 + sym.toNat * 2 ^ 16 + chunk.toNat := by
  have hopcode : (Instr.cbRead sym chunk).opcode.toNat = 0x41 := rfl
  rw [encode_toNat, hopcode]
  rfl

/-- Settles O37: the chunk's bits as a number, and for an entry without a code, which is all zeros, 0 twice. -/
theorem cbReadReportsAnEntry : Obligations.CbReadReportsAnEntry := by
  refine ⟨encode_cbRead_toNat, fun s sym chunk hchunk => ?_⟩
  refine ⟨_, execCbRead_of_chunk hchunk s, ?_, CbEntry.resultWord_toNat _, fun hv hok => ?_, rfl, fun _ => rfl⟩
  · change (BitVec.extractLsb' _ _ _).toNat = _
    rw [BitVec.extractLsb'_toNat, Nat.shiftRight_eq_div_pow]
  · simp only [State.complete_res0, State.complete_res1, hok.eq_of_not_valid hv]
    exact ⟨BitVec.extractLsb'_zero, rfl⟩

end Sys2Proof.Machine
end

section
/-! ### The bit packer's commands and the bit reader's start (45_bit_packer.md R200 to R202, 46_bit_reader.md R220) -/

namespace Sys2Proof.Machine

/-! #### BP_INIT and BR_INIT, case by case -/

theorem execBpInit_outOfRange {s : State} (h : s.cfg.memBytes < s.dstAddr.toNat + s.dstCap.toNat) :
    execBpInit s = .next (s.complete .addrRange) := by
  have hr : ¬ s.dstInRange = true := by rw [dstInRange_iff]; omega
  rw [execBpInit, if_pos (by simpa using hr)]

theorem execBpInit_starts {s : State} (h : s.dstAddr.toNat + s.dstCap.toNat ≤ s.cfg.memBytes) :
    execBpInit s = .next ({ s with bpBase := s.dstAddr, bpCap := s.dstCap, bpBitcnt := 0 }.complete .ok) := by
  rw [execBpInit, if_neg (by simpa using (dstInRange_iff s).2 h)]

theorem execBrInit_outOfRange {s : State} (h : s.cfg.memBytes < s.srcAddr.toNat + s.srcLen.toNat) :
    execBrInit s = .next (s.complete .addrRange) := by
  have hr : ¬ s.srcInRange = true := by rw [srcInRange_iff]; omega
  rw [execBrInit, if_pos (by simpa using hr)]

theorem execBrInit_starts {s : State} (h : s.srcAddr.toNat + s.srcLen.toNat ≤ s.cfg.memBytes) :
    execBrInit s =
      .next ({ s with brBase := s.srcAddr, brBytes := s.srcLen, brLimit := s.arg, brPos := 0 }.complete .ok) := by
  rw [execBrInit, if_neg (by simpa using (srcInRange_iff s).2 h)]

/-- Settles O38: each command's region is in range or not. -/
theorem packerAndReaderInit : Obligations.PackerAndReaderInit := by
  refine ⟨rfl, rfl, fun s => ⟨execBpInit_outOfRange, fun h => ?_, execBrInit_outOfRange, fun h => ?_⟩⟩
  · exact ⟨_, execBpInit_starts h, rfl, fun _ => rfl⟩
  · exact ⟨_, execBrInit_starts h, rfl, fun _ => rfl⟩

/-! #### BP_PUSH -/

/-- The room left in a packer in order is inside MEM (10_state.md R33), so the next push has its byte (R201). -/
theorem State.PackerOk.packAddress_lt {s : State} (h : s.PackerOk) (hf : s.bpBitcnt.toNat ≠ 8 * s.bpCap.toNat) :
    s.packAddress < s.cfg.memBytes := by
  obtain ⟨hregion, hcount⟩ := h
  rw [State.packAddress]
  omega

/-- The bit count of a packer in order is at most 8 × BP_CAP, so one more does not wrap (10_state.md R33). -/
theorem State.PackerOk.toNat_bpBitcnt_add_one {s : State} (h : s.PackerOk) :
    (s.bpBitcnt + 1).toNat = s.bpBitcnt.toNat + 1 := by
  obtain ⟨-, hcount⟩ := h
  have hcap := s.bpCap.isLt
  exact toNat_count_add_one (by omega)

theorem execBpPush_full {s : State} {bit : Byte} (hbit : bit.toNat ≤ 1) (hf : s.bpBitcnt.toNat = 8 * s.bpCap.toNat) :
    execBpPush bit s = .next (s.complete .outputOverflow) := by
  rw [execBpPush, if_neg (Nat.not_lt.2 hbit), if_pos hf]

theorem execBpPush_packs {s : State} {bit : Byte} (hbit : bit.toNat ≤ 1) (hf : s.bpBitcnt.toNat ≠ 8 * s.bpCap.toNat)
    (ha : s.packAddress < s.cfg.memBytes) :
    execBpPush bit s = .next ({ s with
      mem := packBit s.mem s.bpBase.toNat s.bpBitcnt.toNat (bit.getLsbD 0)
      bpBitcnt := s.bpBitcnt + 1 }.complete .ok) := by
  rw [execBpPush, if_neg (Nat.not_lt.2 hbit), if_neg hf, if_neg (Nat.not_le.2 ha)]

/-- A byte that holds a bit is that bit, zero-extended. -/
theorem setWidth_ofBool_getLsbD_zero {bit : Byte} (h : bit.toNat ≤ 1) :
    (BitVec.ofBool (bit.getLsbD 0)).setWidth 8 = bit := by
  obtain h0 | h1 : bit.toNat = 0 ∨ bit.toNat = 1 := by omega
  · obtain rfl : bit = 0#8 := BitVec.eq_of_toNat_eq h0
    rfl
  · obtain rfl : bit = 1#8 := BitVec.eq_of_toNat_eq h1
    rfl

/-- The byte a push writes. -/
theorem packBit_read_self {m : Memory} (hm : m.wf = true) (base n : Nat) (b : Bool) :
    (packBit m base n b).read (base + n / 8) = packByte (m.read (base + n / 8)) (n % 8) b :=
  Memory.read_write_self hm _ _

/-- The first bit of a byte rewrites the whole byte (R201). -/
theorem packByte_first (old : Byte) {bit : Byte} (h : bit.toNat ≤ 1) : packByte old 0 (bit.getLsbD 0) = bit := by
  rw [packByte, if_pos rfl, setWidth_ofBool_getLsbD_zero h]

/-- Settles O39: a full buffer is refused; else the write is inside MEM, and the byte it leaves is `packByte`'s. -/
theorem bpPushPacksOneBit : Obligations.BpPushPacksOneBit := by
  refine ⟨rfl, rfl, fun s bit hbit hm hp => ⟨execBpPush_full hbit, fun hf => ?_⟩⟩
  have hread : (packBit s.mem s.bpBase.toNat s.bpBitcnt.toNat (bit.getLsbD 0)).read s.packAddress =
      packByte (s.mem.read s.packAddress) (s.bpBitcnt.toNat % 8) (bit.getLsbD 0) := packBit_read_self hm _ _ _
  refine ⟨_, execBpPush_packs hbit hf (hp.packAddress_lt hf), hp.toNat_bpBitcnt_add_one, fun hfirst => ?_,
    fun hlater j hj => ?_, sameMemOutside_write s s.packAddress _, rfl⟩
  · rw [State.complete_mem, hread, hfirst, packByte_first _ hbit]
  · rw [State.complete_mem, hread, packByte_getLsbD _ (Nat.mod_lt _ (by decide)) hj, if_neg hlater]

/-! #### BP_FINISH -/

/-- The number of bytes that hold a 64-bit count of bits is itself a 64-bit number (00_scope.md R11). -/
theorem toNat_ofNat_ceil8 (n : DWord) : (BitVec.ofNat 64 (ceil8 n.toNat)).toNat = ceil8 n.toNat := by
  have := n.isLt
  rw [BitVec.toNat_ofNat, Nat.mod_eq_of_lt]
  unfold ceil8
  omega

/-- Settles O40: only RES0 and RES1 are written, and the byte count does not wrap. -/
theorem bpFinishReportsTheCounts : Obligations.BpFinishReportsTheCounts :=
  ⟨rfl, fun s => ⟨_, rfl, rfl, toNat_ofNat_ceil8 s.bpBitcnt, rfl, fun _ => rfl⟩⟩

end Sys2Proof.Machine
end

section
/-! ### The bit reader's reads, and the packed bits read back (46_bit_reader.md R221 to R223) -/

namespace Sys2Proof.Machine

/-! #### BR_NEXT, case by case -/

/-- The state after a read that delivered the bit at BR_POS (R221, R222). -/
def State.afterRead (s : State) : State :=
  ({ s with brPos := s.brPos + 1 }.setReadFlags false (s.mem.bitAt s.brBase.toNat s.brPos.toNat)).complete .ok

theorem execBrNext_exhausted {s : State} (h : s.brPos = s.brLimit) :
    execBrNext s = .next ((s.setReadFlags true false).complete .ok) := by
  have hread : readBit s = .exhausted := by rw [readBit, if_pos h]
  rw [execBrNext, hread]

theorem execBrNext_outOfBytes {s : State} (h : s.brPos ≠ s.brLimit) (hb : s.brBytes.toNat ≤ s.brPos.toNat / 8) :
    execBrNext s = .next (s.complete .truncatedPayload) := by
  have hread : readBit s = .outOfBytes := by rw [readBit, if_neg h, if_pos hb]
  rw [execBrNext, hread]

/-- A reader in order has its buffer inside MEM (10_state.md R34), so a read with bits and bytes left delivers. -/
theorem State.ReaderOk.execBrNext_delivers {s : State} (h : s.ReaderOk) (hp : s.brPos ≠ s.brLimit)
    (hb : s.brPos.toNat / 8 < s.brBytes.toNat) : execBrNext s = .next s.afterRead := by
  obtain ⟨hregion, -⟩ := h
  have ha : ¬ s.cfg.memBytes ≤ s.readAddress := by
    rw [State.readAddress]
    omega
  have hread : readBit s = .bit (s.mem.bitAt s.brBase.toNat s.brPos.toNat) := by
    rw [readBit, if_neg hp, if_neg (Nat.not_le.2 hb), if_neg ha]
  rw [execBrNext, hread]
  rfl

/-- BR_POS is at most the 64-bit BR_LIMIT, so before it one more does not wrap (10_state.md R34). -/
theorem State.ReaderOk.toNat_brPos_add_one {s : State} (h : s.ReaderOk) (hp : s.brPos ≠ s.brLimit) :
    (s.brPos + 1).toNat = s.brPos.toNat + 1 := by
  obtain ⟨-, hpos⟩ := h
  have hne : s.brPos.toNat ≠ s.brLimit.toNat := fun e => hp (BitVec.eq_of_toNat_eq e)
  have hlimit := s.brLimit.isLt
  exact toNat_count_add_one (by omega)

/-- Settles O41: the reader is exhausted, or at the end of its bytes, or has a bit to deliver. -/
theorem brNextReadsOneBit : Obligations.BrNextReadsOneBit := by
  refine ⟨rfl, fun s h => ⟨fun he => ?_, execBrNext_outOfBytes, fun hp hb => ?_⟩⟩
  · exact ⟨_, execBrNext_exhausted he, rfl, fun _ => rfl⟩
  · exact ⟨_, h.execBrNext_delivers hp hb, h.toNat_brPos_add_one hp, rfl, fun _ => rfl⟩

/-! #### Runs of BR_NEXT -/

theorem runOk_cons (i : Instr) {s t : State} (h : exec i s = .next t) (hok : t.err = .ok) (is : List Instr) :
    runOk (i :: is) s = runOk is t := by
  rw [runOk, h]
  exact if_pos hok

/-- A reader in order with `n` bits still to deliver, each with its byte in the buffer. -/
def State.BitsLeft (s : State) (n : Nat) : Prop :=
  s.ReaderOk ∧ s.brPos.toNat + n = s.brLimit.toNat ∧ s.brLimit.toNat ≤ 8 * s.brBytes.toNat

theorem State.BitsLeft.brPos_ne {s : State} {n : Nat} (h : s.BitsLeft (n + 1)) : s.brPos ≠ s.brLimit := by
  obtain ⟨-, hleft, -⟩ := h
  intro he
  rw [he] at hleft
  omega

theorem State.BitsLeft.runOk_brNext {s : State} {n : Nat} (h : s.BitsLeft (n + 1)) (is : List Instr) :
    runOk (.brNext :: is) s = runOk is s.afterRead := by
  have hp := h.brPos_ne
  obtain ⟨hreader, hleft, hbytes⟩ := h
  exact runOk_cons .brNext (hreader.execBrNext_delivers hp (by omega)) rfl is

theorem State.BitsLeft.afterRead {s : State} {n : Nat} (h : s.BitsLeft (n + 1)) :
    s.afterRead.brPos.toNat = s.brPos.toNat + 1 ∧ s.afterRead.BitsLeft n := by
  have hp := h.brPos_ne
  obtain ⟨hreader, hleft, hbytes⟩ := h
  have hpos : s.afterRead.brPos.toNat = s.brPos.toNat + 1 := hreader.toNat_brPos_add_one hp
  refine ⟨hpos, hreader.advance hp, ?_, hbytes⟩
  change s.afterRead.brPos.toNat + n = s.brLimit.toNat
  omega

/-- The reads deliver the stream in order: read k + 1 gives bit k from where the reader stands (R223). -/
theorem State.BitsLeft.read_delivers {s : State} {n k : Nat} (h : s.BitsLeft n) (hk : k < n) :
    ∃ v, runOk (List.replicate (k + 1) .brNext) s = some v ∧ v.exh = false ∧
      v.bit = s.mem.bitAt s.brBase.toNat (s.brPos.toNat + k) := by
  induction k generalizing s n with
  | zero =>
    obtain ⟨n, rfl⟩ := Nat.exists_eq_add_one.2 hk
    exact ⟨s.afterRead, h.runOk_brNext [], rfl, rfl⟩
  | succ k ih =>
    obtain ⟨n, rfl⟩ := Nat.exists_eq_add_one.2 (Nat.zero_lt_of_lt hk)
    obtain ⟨hpos, hrest⟩ := h.afterRead
    obtain ⟨v, hrun, hexh, hbit⟩ := ih hrest (Nat.lt_of_succ_lt_succ hk)
    refine ⟨v, (h.runOk_brNext _).trans hrun, hexh, hbit.trans ?_⟩
    rw [hpos, Nat.add_assoc, Nat.add_comm 1 k]
    rfl

/-- One read more than there are bits finds the reader exhausted (R221, R223). -/
theorem State.BitsLeft.read_exhausts {s : State} {n : Nat} (h : s.BitsLeft n) :
    ∃ v, runOk (List.replicate (n + 1) .brNext) s = some v ∧ v.exh = true := by
  induction n generalizing s with
  | zero =>
    obtain ⟨-, hend, -⟩ := h
    exact ⟨_, runOk_cons .brNext (execBrNext_exhausted (BitVec.eq_of_toNat_eq hend)) rfl [], rfl⟩
  | succ n ih =>
    obtain ⟨-, hrest⟩ := h.afterRead
    obtain ⟨v, hrun, hexh⟩ := ih hrest
    exact ⟨v, (h.runOk_brNext _).trans hrun, hexh⟩

/-! #### Runs of BP_PUSH -/

/-- The state after a push of one bit that had room (45_bit_packer.md R201). -/
def State.afterPush (s : State) (b : Bool) : State :=
  { s with mem := packBit s.mem s.bpBase.toNat s.bpBitcnt.toNat b, bpBitcnt := s.bpBitcnt + 1 }.complete .ok

/-- A packer in order with room left has the byte inside MEM (10_state.md R33), so a push packs its bit. -/
theorem State.PackerOk.execBpPush_bit {s : State} (h : s.PackerOk) (hf : s.bpBitcnt.toNat ≠ 8 * s.bpCap.toNat)
    (b : Bool) : execBpPush (if b then 1 else 0) s = .next (s.afterPush b) := by
  have hle : (if b then 1 else 0 : Byte).toNat ≤ 1 := by cases b <;> decide
  have hbit : (if b then 1 else 0 : Byte).getLsbD 0 = b := by cases b <;> decide
  rw [execBpPush_packs hle hf (h.packAddress_lt hf), hbit]
  rfl

/-- Pushes that fit the room left in a packer in order all complete OK, and MEM is what `packBits` leaves (R201). -/
theorem runOk_bpPush {s : State} {bits : List Bool} (h : s.PackerOk)
    (hfits : s.bpBitcnt.toNat + bits.length ≤ 8 * s.bpCap.toNat) :
    ∃ t, runOk (bits.map fun b => .bpPush (if b then 1 else 0)) s = some t ∧
      t.mem = packBits s.bpBase.toNat s.mem s.bpBitcnt.toNat bits := by
  induction bits generalizing s with
  | nil => exact ⟨s, rfl, rfl⟩
  | cons b bits ih =>
    rw [List.length_cons] at hfits
    have hpush := h.execBpPush_bit (by omega) b
    have hcount : (s.afterPush b).bpBitcnt.toNat = s.bpBitcnt.toNat + 1 := h.toNat_bpBitcnt_add_one
    have hroom : (s.afterPush b).bpBitcnt.toNat + bits.length ≤ 8 * s.bpCap.toNat := by omega
    obtain ⟨hregion, -⟩ := h
    obtain ⟨t, hrun, hmem⟩ := ih (s := s.afterPush b) ⟨hregion, (Nat.le_add_right _ _).trans hroom⟩ hroom
    refine ⟨t, (runOk_cons (.bpPush _) hpush rfl _).trans hrun, hmem.trans ?_⟩
    rw [hcount]
    rfl

/-- BP_INIT over a destination region in range completes OK with an empty packer there (45_bit_packer.md R200). -/
theorem runOk_bpInit {s : State} (hin : s.dstAddr.toNat + s.dstCap.toNat ≤ s.cfg.memBytes) :
    ∃ t : State, (∀ is, runOk (.bpInit :: is) s = runOk is t) ∧ t.PackerOk ∧ t.mem = s.mem ∧
      t.bpBase = s.dstAddr ∧ t.bpCap = s.dstCap ∧ t.bpBitcnt.toNat = 0 :=
  ⟨_, runOk_cons .bpInit (execBpInit_starts hin) rfl, ⟨hin, Nat.zero_le _⟩, rfl, rfl, rfl, rfl⟩

/-- BP_INIT and pushes that fit the destination region all complete OK, and leave the bits packed there (R200, R201). -/
theorem runOk_packs {s : State} {bits : List Bool} (hm : s.mem.wf = true)
    (hin : s.dstAddr.toNat + s.dstCap.toNat ≤ s.cfg.memBytes) (hfits : (bits.length + 7) / 8 ≤ s.dstCap.toNat) :
    ∃ t, runOk (.bpInit :: bits.map fun b => .bpPush (if b then 1 else 0)) s = some t ∧
      ∀ k (hk : k < bits.length), t.mem.bitAt s.dstAddr.toNat k = bits[k] := by
  obtain ⟨w, hinit, hpacker, hmem, hbase, hcap, hcount⟩ := runOk_bpInit hin
  obtain ⟨t, hrun, hpacked⟩ := runOk_bpPush (bits := bits) hpacker (by rw [hcount, hcap]; omega)
  refine ⟨t, (hinit _).trans hrun, fun k hk => ?_⟩
  have hinside : k < 8 * ceil8 bits.length := by
    unfold ceil8
    omega
  rw [hpacked, hbase, hmem, hcount, bitAt_packBits hm, if_pos hinside, List.getD_eq_getElem _ _ hk]

/-! #### The round trip -/

/-- BR_INIT over a region in range whose bytes hold the ARG bits completes OK with all of them left (R220). -/
theorem runOk_brInit {s : State} (hin : s.srcAddr.toNat + s.srcLen.toNat ≤ s.cfg.memBytes)
    (hbytes : s.arg.toNat ≤ 8 * s.srcLen.toNat) :
    ∃ t : State, (∀ is, runOk (.brInit :: is) s = runOk is t) ∧ t.BitsLeft s.arg.toNat ∧ t.mem = s.mem ∧
      t.brBase = s.srcAddr ∧ t.brPos.toNat = 0 :=
  ⟨_, runOk_cons .brInit (execBrInit_starts hin) rfl, ⟨⟨hin, Nat.zero_le _⟩, Nat.zero_add _, hbytes⟩,
    rfl, rfl, rfl⟩

/-- Settles O42: the pushes leave the bits packed, the kept bytes hold the same bits, and the reads deliver them in
order until none is left. -/
theorem packedBitsReadBack : Obligations.PackedBitsReadBack := by
  intro s bits hm hin hfits
  obtain ⟨t, hpack, hbits⟩ := runOk_packs hm hin hfits
  refine ⟨t, hpack, fun u hcfg haddr hlen harg hkept => ?_⟩
  obtain ⟨w, hinit, hleft, hmem, hbase, hpos⟩ := runOk_brInit (s := u) (by rw [hcfg, haddr, hlen]; omega)
    (by rw [harg, hlen]; omega)
  rw [harg] at hleft
  refine ⟨fun k hk => ?_, ?_⟩
  · obtain ⟨v, hrun, hexh, hbit⟩ := hleft.read_delivers hk
    refine ⟨v, (hinit _).trans hrun, hexh, ?_⟩
    have hsame : u.mem.bitAt s.dstAddr.toNat k = t.mem.bitAt s.dstAddr.toNat k :=
      bitAt_congr (hkept (k / 8) (by omega))
    calc v.bit = u.mem.bitAt s.dstAddr.toNat k := by
          rw [hbit, hmem, hbase, haddr, hpos, Nat.zero_add]
      _ = bits[k] := hsame.trans (hbits k hk)
  · obtain ⟨v, hrun, hexh⟩ := hleft.read_exhausts
    exact ⟨v, (hinit _).trans hrun, hexh⟩

end Sys2Proof.Machine
end

section
/-! ### The encoder (47_encoder.md R240 to R248): its region checks, the tree it builds, and the container it writes

`execEncRun_cases` says what ENC_RUN answers. `EncoderReady` keeps of its steps 1 and 2 what the statements ask for, so
that the proofs below speak of a state `u` with its codebook and never of how the tree came to be. -/

namespace Sys2Proof.Machine

/-! #### The region checks (20_memory.md R63, R64; 60_exceptions.md R307) -/

theorem regions_notInRange {s : State}
    (h : s.cfg.memBytes < s.srcAddr.toNat + s.srcLen.toNat ∨ s.cfg.memBytes < s.dstAddr.toNat + s.dstCap.toNat) :
    (!s.srcInRange || !s.dstInRange) = true := by
  rw [Bool.or_eq_true, Bool.not_eq_true', Bool.not_eq_true', ← Bool.not_eq_true, ← Bool.not_eq_true, srcInRange_iff,
    dstInRange_iff]
  omega

theorem regions_inRange {s : State} (hsrc : s.srcAddr.toNat + s.srcLen.toNat ≤ s.cfg.memBytes)
    (hdst : s.dstAddr.toNat + s.dstCap.toNat ≤ s.cfg.memBytes) : ¬ (!s.srcInRange || !s.dstInRange) = true := by
  rw [(srcInRange_iff s).2 hsrc, (dstInRange_iff s).2 hdst]
  decide

/-- A region out of range ends both commands with ADDR_RANGE, whatever the overlap (R245, R268). -/
theorem exec_encRun_decRun_addrRange {s : State} {i : Instr} (hi : i = .encRun ∨ i = .decRun)
    (h : (!s.srcInRange || !s.dstInRange) = true) :
    exec i s = .next { s with outLen := 0, err := .addrRange, pending := none } := by
  rcases hi with rfl | rfl
  · exact if_pos h
  · exact if_pos h

/-- Regions in range that overlap end both commands with REGION_OVERLAP (R245, R268). -/
theorem exec_encRun_decRun_regionOverlap {s : State} {i : Instr} (hi : i = .encRun ∨ i = .decRun)
    (hin : ¬ (!s.srcInRange || !s.dstInRange) = true) (hover : s.regionsOverlap = true) :
    exec i s = .next { s with outLen := 0, err := .regionOverlap, pending := none } := by
  rcases hi with rfl | rfl
  · exact (if_neg hin).trans (if_pos hover)
  · exact (if_neg hin).trans (if_pos hover)

/-- Settles O44: the range check comes first, and both commands start with the same two checks. -/
theorem encoderAndDecoderRegionErrors : Obligations.EncoderAndDecoderRegionErrors := by
  intro s i hi
  refine ⟨fun h => exec_encRun_decRun_addrRange hi (regions_notInRange h), fun hsrc hdst h1 h2 h3 h4 => ?_⟩
  exact exec_encRun_decRun_regionOverlap hi (regions_inRange hsrc hdst) ((regionsOverlap_iff s).2 ⟨h1, h2, h3, h4⟩)

/-- An ENC_RUN that got past its region checks had its regions in order (R245). -/
theorem regionsOk_of_encRun {s t : State} (h : exec .encRun s = .next t) (hrange : t.err ≠ .addrRange)
    (hoverlap : t.err ≠ .regionOverlap) : RegionsOk s := by
  by_cases hin : (!s.srcInRange || !s.dstInRange) = true
  · cases (exec_encRun_decRun_addrRange (.inl rfl) hin).symm.trans h
    exact absurd rfl hrange
  by_cases hover : s.regionsOverlap = true
  · cases (exec_encRun_decRun_regionOverlap (.inl rfl) hin hover).symm.trans h
    exact absurd rfl hoverlap
  exact (regionsOk_iff s).2 ⟨Bool.eq_false_of_not_eq_true hin, Bool.eq_false_of_not_eq_true hover⟩

/-! #### The state before the container is written (R245, steps 1 and 2) -/

/-- `u` is the state ENC_RUN has after counting, planting the tree and making its codebook (R245, steps 1 and 2). -/
def EncoderReady (s u : State) : Prop :=
  ∃ cb, generateCodebook s.countAndPlant = some cb ∧ u = { s.countAndPlant with codebook := cb }

/-- Steps 1 and 2 write FREQ, the tree, the queue and the codebook, and nothing else. -/
theorem EncoderReady.frame {s u : State} (h : EncoderReady s u) :
    ∃ nodes root rootValid queue pqSeq codebook, u = { s with
      freq := countsOf s.srcBytes, nodes := nodes, root := root, rootValid := rootValid, queue := queue, pqSeq := pqSeq,
      codebook := codebook } := by
  obtain ⟨cb, -, rfl⟩ := h
  rw [countAndPlant_frame]
  exact ⟨_, _, _, _, _, _, rfl⟩

theorem EncoderReady.same {s u : State} (h : EncoderReady s u) :
    u.mem = s.mem ∧ u.dstAddr = s.dstAddr ∧ u.dstCap = s.dstCap := by
  obtain ⟨_, _, _, _, _, _, rfl⟩ := h.frame
  exact ⟨rfl, rfl, rfl⟩

theorem EncoderReady.freq {s u : State} (h : EncoderReady s u) : u.freq = countsOf s.srcBytes := by
  obtain ⟨_, _, _, _, _, _, rfl⟩ := h.frame
  rfl

/-- The byte counts of the source region are below 2^32, so FREQ holds them (R241). -/
theorem EncoderReady.toNat_freq {s u : State} (h : EncoderReady s u) (c : Byte) :
    (u.freq.get c).toNat = sourceCount s c := by
  rw [h.freq, toNat_get_countsOf_srcBytes]

/-! #### The two ends of ENC_RUN (R245, steps 3 to 5) -/

/-- The container's size for an input (30_encoding.md R105). -/
def encodedSize (cb : Codebook) (bytes : List Byte) : Nat := containerSize cb (inputBits cb bytes).length

/-- ENC_RUN's last state when the container does not fit. -/
def encodeOverflowed (u : State) (bytes : List Byte) : State :=
  { u with outLen := 0, res0 := BitVec.ofNat 64 (encodedSize u.codebook bytes) }.complete .outputOverflow

/-- ENC_RUN's last state when the container fits. -/
def encoded (u : State) (bytes : List Byte) : State :=
  (writeContainer u (inputBits u.codebook bytes).length (encodedSize u.codebook bytes)
    (inputBits u.codebook bytes)).complete .ok

/-- With its regions in order ENC_RUN reaches its codebook and then one of the two ends (R245, R247). -/
theorem exists_encoderReady {s : State} (h : RegionsOk s) : ∃ u, EncoderReady s u ∧
    (s.dstCap.toNat < encodedSize u.codebook s.srcBytes → exec .encRun s = .next (encodeOverflowed u s.srcBytes)) ∧
    (encodedSize u.codebook s.srcBytes ≤ s.dstCap.toNat → exec .encRun s = .next (encoded u s.srcBytes)) := by
  obtain ⟨rs, P, size, -, -, hbook, -, rfl, -, -, rfl, he⟩ := execEncRun_cases h
  refine ⟨{ s.countAndPlant with codebook := bookOf rs }, ⟨bookOf rs, hbook, rfl⟩, ?_⟩
  -- Which tree was planted does not matter here; hidden, it is not unfolded.
  generalize s.countAndPlant = p at he ⊢
  exact ⟨fun hc => he.trans (if_pos hc), fun hc => he.trans (if_neg (Nat.not_lt.2 hc))⟩

/-- The two ends, found back from a completed ENC_RUN (R245). -/
theorem encRun_result {s t : State} (h : exec .encRun s = .next t) (ho : t.err = .ok ∨ t.err = .outputOverflow) :
    ∃ u, EncoderReady s u ∧ ((t.err = .outputOverflow ∧ t = encodeOverflowed u s.srcBytes) ∨
      (encodedSize u.codebook s.srcBytes ≤ s.dstCap.toNat ∧ t = encoded u s.srcBytes)) := by
  have hr : RegionsOk s := by
    rcases ho with ho | ho
    · exact regionsOk_of_encRun h (by simp [ho]) (by simp [ho])
    · exact regionsOk_of_encRun h (by simp [ho]) (by simp [ho])
  obtain ⟨u, hu, hsmall, hfits⟩ := exists_encoderReady hr
  refine ⟨u, hu, ?_⟩
  rcases Nat.lt_or_ge s.dstCap.toNat (encodedSize u.codebook s.srcBytes) with hc | hc
  · cases (hsmall hc).symm.trans h
    exact .inl ⟨rfl, rfl⟩
  · cases (hfits hc).symm.trans h
    exact .inr ⟨hc, rfl⟩

/-! #### The sizes (R242; 30_encoding.md R105) -/

theorem length_inputBits_srcBytes (cb : Codebook) (s : State) :
    (inputBits cb s.srcBytes).length = (allSymbols.map fun c => sourceCount s c * (cb.get c).len.toNat).sum := by
  simp only [length_inputBits, count_srcBytes]

theorem length_inputBits_srcBytes_lt (cb : Codebook) (s : State) : (inputBits cb s.srcBytes).length < 2 ^ 40 := by
  have hbits := length_inputBits_le cb s.srcBytes
  rw [length_srcBytes] at hbits
  have hlen := s.srcLen.isLt
  omega

/-- 256 entries of at most 255 code bits. -/
theorem length_tableBytes_le (cb : Codebook) : (tableBytes cb).length ≤ 256 * 34 := by
  rw [length_tableBytes]
  refine (List.sum_le_card_nsmul _ 34 fun x hx => ?_).trans (by simp)
  obtain ⟨c, -, rfl⟩ := List.mem_map.1 hx
  have hlen := (cb.get c).len.isLt
  split
  · unfold ceil8
    omega
  · exact Nat.zero_le _

theorem encodedSize_eq (cb : Codebook) (bytes : List Byte) :
    encodedSize cb bytes = (headerBytes cb (inputBits cb bytes).length).length + ceil8 (inputBits cb bytes).length :=
  containerSize_eq _ _

theorem encodedSize_srcBytes_lt (cb : Codebook) (s : State) : encodedSize cb s.srcBytes < 2 ^ 64 := by
  have htable := length_tableBytes_le cb
  have hbits := length_inputBits_srcBytes_lt cb s
  rw [encodedSize_eq, length_headerBytes, ceil8]
  omega

/-! #### ENC_RUN completes (R241, R242, R245) -/

theorem addressReg_toNat {a : Nat} (h : a < 2 ^ 32) : (addressReg a).toNat = a := by
  rw [addressReg, if_pos h, BitVec.toNat_ofNat, Nat.mod_eq_of_lt h]

/-- What a container that fits leaves in the registers: every number fits its register (R244, R245). -/
theorem EncoderReady.encoded_registers {s u : State} (h : EncoderReady s u) {P size : Nat}
    (hP : P = (inputBits u.codebook s.srcBytes).length) (hsize : size = encodedSize u.codebook s.srcBytes)
    (hfits : size ≤ s.dstCap.toNat) :
    (encoded u s.srcBytes).outLen.toNat = size ∧ (encoded u s.srcBytes).res0.toNat = P ∧
      (encoded u s.srcBytes).res1.toNat = u.codebook.count ∧ (encoded u s.srcBytes).bpCap.toNat = ceil8 P ∧
      (encoded u s.srcBytes).bpBitcnt.toNat = P ∧
      (s.dstAddr.toNat + (size - ceil8 P) < 2 ^ 32 →
        (encoded u s.srcBytes).bpBase.toNat = s.dstAddr.toNat + (size - ceil8 P)) := by
  have hcap := s.dstCap.isLt
  have hlt : P < 2 ^ 40 := hP ▸ length_inputBits_srcBytes_lt u.codebook s
  have hparts : size = (headerBytes u.codebook P).length + ceil8 P := by rw [hsize, encodedSize_eq, hP]
  have hpayload : ceil8 P < 2 ^ 32 := by omega
  obtain ⟨-, haddr, -⟩ := h.same
  simp only [encoded, writeContainer, State.complete, ← hP, ← hsize, haddr]
  refine ⟨?_, ?_, toNat_count _, ?_, ?_, fun hbase => ?_⟩
  · rw [BitVec.toNat_ofNat, Nat.mod_eq_of_lt (by omega)]
  · rw [BitVec.toNat_ofNat, Nat.mod_eq_of_lt (by omega)]
  · rw [BitVec.toNat_ofNat, Nat.mod_eq_of_lt hpayload]
  · rw [BitVec.toNat_ofNat, Nat.mod_eq_of_lt (by omega)]
  · have hheader : (headerBytes u.codebook P).length = size - ceil8 P := by omega
    rw [hheader, addressReg_toNat hbase]

/-- The container's bytes are the only ones written (R245). -/
theorem EncoderReady.encoded_sameMemOutside {s u : State} (h : EncoderReady s u) :
    SameMemOutside s.dstAddr.toNat (encodedSize u.codebook s.srcBytes) s (encoded u s.srcBytes) := by
  obtain ⟨hmem, haddr, -⟩ := h.same
  intro a ha
  rw [encodedSize_eq, ← haddr] at ha
  have hread := writeContainer_read_outside u _ (encodedSize u.codebook s.srcBytes) _ ha
  rwa [hmem] at hread

/-- Settles O45: the container of `encodedSize` bytes fits or it does not, and the frame of steps 1 and 2 gives the frame
of both ends. -/
theorem encRunCompletes : Obligations.EncRunCompletes := by
  intro s hr
  obtain ⟨u, hu, hsmall, hfits⟩ := exists_encoderReady hr
  rcases Nat.lt_or_ge s.dstCap.toNat (encodedSize u.codebook s.srcBytes) with hc | hc
  · refine ⟨encodeOverflowed u s.srcBytes, _, _, hsmall hc, hu.toNat_freq, length_inputBits_srcBytes u.codebook s, rfl,
      fun _ => ⟨?_, ?_, ?_⟩, fun hle => absurd hc (Nat.not_lt.2 hle)⟩
    · exact (BitVec.toNat_ofNat _ _).trans (Nat.mod_eq_of_lt (encodedSize_srcBytes_lt _ _))
    · exact fun a => congrArg (Memory.read · a) hu.same.1
    · obtain ⟨_, _, _, _, _, _, rfl⟩ := hu.frame
      rfl
  · refine ⟨encoded u s.srcBytes, _, _, hfits hc, hu.toNat_freq, length_inputBits_srcBytes u.codebook s, rfl,
      fun hlt => absurd hlt (Nat.not_lt.2 hc), fun _ => ?_⟩
    obtain ⟨houtLen, hres0, hres1, hcap, hbits, hbase⟩ := hu.encoded_registers rfl rfl hc
    refine ⟨houtLen, hres0, hres1, hcap, hbits, hbase, hu.encoded_sameMemOutside, ?_⟩
    obtain ⟨_, _, _, _, _, _, rfl⟩ := hu.frame
    rfl

/-! #### The tree of the input (R245) -/

/-- TREE_BUILD on the input's counts plants ENC_RUN's tree (R245). -/
theorem execTreeBuild_countsOf (s : State) :
    execTreeBuild { s with freq := countsOf s.srcBytes } = .next ({ s.countAndPlant with
      res0 := (Forest.build (countsOf s.srcBytes)).rootWeight
      res1 := BitVec.ofNat 64 (leafCount (countsOf s.srcBytes)) }.complete .ok) :=
  execTreeBuild_fits (total_countsOf_srcBytes_le s)

/-- TREE_BUILD and CB_GEN on the input's counts give the tree and the codebook of ENC_RUN (R245). -/
theorem EncoderReady.exists_treeBuild_cbGen {s t : State} (h : EncoderReady s t) :
    ∃ u v, exec .treeBuild { s with freq := countsOf s.srcBytes } = .next u ∧
      u.err = .ok ∧ exec .cbGen u = .next v ∧ t.nodes = v.nodes ∧ t.root = v.root ∧ t.rootValid = v.rootValid ∧
      t.queue = v.queue ∧ t.pqSeq = v.pqSeq ∧ t.codebook = v.codebook := by
  obtain ⟨cb, hcb, rfl⟩ := h
  have hbuild := execTreeBuild_countsOf s
  -- As above, the planted tree is hidden.
  generalize s.countAndPlant = p, (Forest.build (countsOf s.srcBytes)).rootWeight = r at hcb hbuild ⊢
  have hgen := (generateCodebook_congr rfl rfl rfl).trans hcb
  exact ⟨_, _, hbuild, rfl, execCbGen_eq_next_iff.2 ⟨cb, hgen, rfl⟩, rfl, rfl, rfl, rfl, rfl, rfl⟩

/-- Settles O46: both ends keep FREQ, the tree and the codebook of steps 1 and 2. -/
theorem encRunBuildsTheTreeOfItsInput : Obligations.EncRunBuildsTheTreeOfItsInput := by
  intro s t ht ho
  obtain ⟨u, hu, hend⟩ := encRun_result ht ho
  have htree := hu.exists_treeBuild_cbGen
  rw [← hu.freq] at htree
  obtain ⟨-, rfl⟩ | ⟨-, rfl⟩ := hend
  · exact ⟨hu.toNat_freq, htree⟩
  · exact ⟨hu.toNat_freq, htree⟩

end Sys2Proof.Machine
end

section
/-! ### The bytes of the encoder's container (47_encoder.md R243, R244, R246, R248; 30_encoding.md Part B) -/

namespace Sys2Proof.Machine

/-! #### Runs of bytes in MEM -/

theorem Memory.readBytes_add (m : Memory) (a n k : Nat) :
    m.readBytes a (n + k) = m.readBytes a n ++ m.readBytes (a + n) k := by
  induction n generalizing a with
  | zero => simp [Memory.readBytes]
  | succ n ih =>
    rw [Nat.add_right_comm, Memory.readBytes, ih, Memory.readBytes, List.cons_append, Nat.add_right_comm a 1 n,
      Nat.add_assoc]

/-- A run of bytes that reads as two pieces reads as each of them in its place. -/
theorem Memory.readBytes_eq_append {m : Memory} {a : Nat} {xs ys : List Byte}
    (h : m.readBytes a (xs ++ ys).length = xs ++ ys) :
    m.readBytes a xs.length = xs ∧ m.readBytes (a + xs.length) ys.length = ys := by
  rw [List.length_append, Memory.readBytes_add] at h
  exact List.append_inj h (Memory.length_readBytes _ _ _)

/-- A number's bytes in MEM read as the number (20_memory.md R65). -/
theorem Memory.readLE_of_readBytes {m : Memory} {a n v : Nat} (h : m.readBytes a n = leBytes n v) (hv : v < 256 ^ n) :
    m.readLE a n = v := by
  refine (Memory.readLE_of_bytes fun k hk => ?_).trans (Nat.mod_eq_of_lt hv)
  simp only [← h, Memory.getElem_readBytes]

/-- Bytes whose packed bits are all 0 are zero bytes. -/
theorem Memory.readBytes_of_zeroBits {m : Memory} {a n : Nat} (h : ∀ k, k < 8 * n → m.bitAt a k = false) :
    m.readBytes a n = List.replicate n 0 := by
  refine List.eq_replicate_iff.2 ⟨Memory.length_readBytes m a n, fun b hb => ?_⟩
  obtain ⟨i, hi, rfl⟩ := List.mem_iff_getElem.1 hb
  rw [Memory.length_readBytes] at hi
  rw [Memory.getElem_readBytes]
  refine BitVec.eq_of_getLsbD_eq fun j hj => ?_
  have hbit := h (8 * i + j) (by omega)
  rw [Memory.bitAt, show (8 * i + j) / 8 = i by omega, show (8 * i + j) % 8 = j by omega] at hbit
  exact hbit.trans BitVec.getLsbD_zero.symm

/-! #### The written container (R243, R244) -/

theorem EncoderReady.mem_wf {s u : State} (h : EncoderReady s u) (hm : s.mem.wf = true) : u.mem.wf = true := by
  rwa [h.same.1]

/-- The header and the table stand at DST_ADDR (R243). -/
theorem EncoderReady.encoded_readBytes_header {s u : State} (h : EncoderReady s u) (hm : s.mem.wf = true) :
    (encoded u s.srcBytes).mem.readBytes s.dstAddr.toNat
        (headerBytes u.codebook (inputBits u.codebook s.srcBytes).length).length =
      headerBytes u.codebook (inputBits u.codebook s.srcBytes).length := by
  obtain ⟨-, haddr, -⟩ := h.same
  refine List.ext_getElem (Memory.length_readBytes _ _ _) fun k _ hk => ?_
  rw [Memory.getElem_readBytes, ← haddr]
  exact writeContainer_read_header (h.mem_wf hm) _ (encodedSize u.codebook s.srcBytes) _ hk

/-- The payload stands behind them, its padding bits 0 (R244, 30_encoding.md R104). -/
theorem EncoderReady.encoded_bitAt_payload {s u : State} (h : EncoderReady s u) (hm : s.mem.wf = true) {k : Nat}
    (hk : k < 8 * ceil8 (inputBits u.codebook s.srcBytes).length) :
    (encoded u s.srcBytes).mem.bitAt
        (s.dstAddr.toNat + (headerBytes u.codebook (inputBits u.codebook s.srcBytes).length).length) k =
      (inputBits u.codebook s.srcBytes).getD k false := by
  obtain ⟨-, haddr, -⟩ := h.same
  rw [← haddr]
  exact writeContainer_bitAt (h.mem_wf hm) _ (encodedSize u.codebook s.srcBytes) _ hk

/-- Byte j of a code is the code's number shifted down by 8j bits (30_encoding.md R101). -/
theorem CbEntry.codeBytes_eq (e : CbEntry) :
    e.codeBytes = (List.range (ceil8 e.len.toNat)).map fun j => BitVec.ofNat 8 (e.bits.toNat / 2 ^ (8 * j)) := by
  refine List.map_congr_left fun j _ => BitVec.eq_of_toNat_eq ?_
  rw [BitVec.extractLsb'_toNat, Nat.shiftRight_eq_div_pow, BitVec.toNat_ofNat]

/-- The table, written out (30_encoding.md R97, R101, R103). -/
theorem tableBytes_eq_flatMap (cb : Codebook) :
    tableBytes cb = (allSymbols.filter fun c => (cb.get c).valid).flatMap (fun c =>
      c :: (cb.get c).len :: (List.range (((cb.get c).len.toNat + 7) / 8)).map
        (fun j => BitVec.ofNat 8 ((cb.get c).bits.toNat / 2 ^ (8 * j)))) := by
  simp only [tableBytes_eq, entryBytes, CbEntry.codeBytes_eq]

/-- Settles O47: the header's three parts follow one another, and the payload follows them. -/
theorem encRunWritesTheContainer : Obligations.EncRunWritesTheContainer := by
  intro s t hm ht ho table payload htable hpayload
  obtain ⟨u, hu, ⟨herr, -⟩ | ⟨hfits, rfl⟩⟩ := encRun_result ht (.inl ho)
  · cases ho.symm.trans herr
  obtain rfl : table = tableBytes u.codebook := htable.trans (tableBytes_eq_flatMap _).symm
  obtain rfl : payload = inputBits u.codebook s.srcBytes := by
    rw [srcBytes_eq_map]
    exact hpayload
  have hbits := fun k => hu.encoded_bitAt_payload (k := k) hm
  rw [length_headerBytes, ← Nat.add_assoc, ← Nat.add_assoc] at hbits
  obtain ⟨hlen, -⟩ := hu.encoded_registers rfl rfl hfits
  rw [encodedSize_eq, length_headerBytes] at hlen
  obtain ⟨hcount, hrest⟩ := Memory.readBytes_eq_append (hu.encoded_readBytes_header hm)
  obtain ⟨hentries, hnumber⟩ := Memory.readBytes_eq_append hrest
  rw [length_leBytes] at hcount hentries hnumber
  rw [length_leBytes] at hnumber
  have hcb : u.codebook.count < 256 ^ 2 := u.codebook.count_le.trans_lt (by decide)
  have hlt := length_inputBits_srcBytes_lt u.codebook s
  exact ⟨hlen, Memory.readLE_of_readBytes hcount hcb, hentries, Memory.readLE_of_readBytes hnumber (by omega),
    hbits⟩

/-! #### One distinct byte, and none: the tree and the codebook (R246, R248) -/

theorem counted_countsOf_nil : counted (countsOf []) = [] :=
  (counted_eq_nil_iff _).2 fun c => get_countsOf [] c

theorem counted_countsOf_replicate {n : Nat} (c : Byte) (hpos : 1 ≤ n) (hlt : n < 2 ^ 64) :
    counted (countsOf (List.replicate n c)) = [c] := by
  refine List.perm_singleton.1 ((List.perm_ext_iff_of_nodup (nodup_counted _) (List.nodup_singleton c)).2 fun x => ?_)
  rw [mem_counted_countsOf (by rwa [List.length_replicate]), List.mem_replicate, List.mem_singleton]
  exact and_iff_right (by omega)

/-- One leaf is the whole forest (43_tree_builder.md R163, R164 with n = 1). -/
theorem Forest.build_singleton {freq : FreqTable} {c : Byte} (hc : counted freq = [c]) (hfits : freq.total ≤ maxCount) :
    (Forest.build freq).nodes = [.leaf c (freq.get c)] ∧
      ∃ e, heapPop (Forest.build freq).queue = some (e, []) ∧ e.node.toNat = 0 := by
  obtain ⟨e, t, hgrows, hpop, hlength, hroot⟩ := Forest.build_spec (by rw [hc]; exact Nat.le_refl 1) hfits
  have hfirst := hgrows.first
  rw [hc] at hlength hroot hfirst
  have hone : (Forest.build freq).nodes.length ≤ [c].length := hlength.le
  rw [List.take_of_length_le hone] at hfirst
  exact ⟨hfirst, e, hpop, hroot⟩

/-- The codebook of a tree that is one Leaf: the code [0] (44_codebook.md R183). -/
def oneLeafBook (c : Byte) : Codebook := bookOf [(c, [false])]

/-- The empty input has no tree and no code (R246). -/
theorem EncoderReady.of_srcBytes_nil {s u : State} (h : EncoderReady s u) (hs : s.srcBytes = []) :
    u.nodes = [] ∧ u.rootValid = false ∧ u.codebook = emptyCodebook := by
  obtain ⟨cb, hcb, rfl⟩ := h
  have hbuild : Forest.build (countsOf s.srcBytes) = Forest.empty := by
    rw [hs]
    exact Forest.build_empty (congrArg List.length counted_countsOf_nil)
  rw [State.countAndPlant, hbuild] at hcb ⊢
  exact ⟨rfl, rfl, (Option.some.inj hcb).symm⟩

/-- Copies of one byte c give one Leaf of c and the code [0] (R248). -/
theorem EncoderReady.of_srcBytes_replicate {s u : State} (h : EncoderReady s u) {n : Nat} {c : Byte}
    (hs : s.srcBytes = List.replicate n c) (hpos : 1 ≤ n) :
    (∃ w, u.nodes = [.leaf c w]) ∧ u.codebook = oneLeafBook c := by
  obtain ⟨cb, hcb, rfl⟩ := h
  have hlt := srcBytes_length_lt s
  rw [hs, List.length_replicate] at hlt
  have hcounted : counted (countsOf s.srcBytes) = [c] := by rw [hs, counted_countsOf_replicate c hpos hlt]
  obtain ⟨hnodes, e, hpop, hroot⟩ := Forest.build_singleton hcounted (total_countsOf_srcBytes_le s)
  rw [State.countAndPlant] at hcb ⊢
  -- As above, the construction is hidden: what is known of it stands in `hnodes`, `hpop` and `hroot`.
  generalize Forest.build (countsOf s.srcBytes) = f at hnodes hpop hcb ⊢
  rw [plantForest, hpop] at hcb ⊢
  simp only [generateCodebook, if_true, hnodes, hroot] at hcb
  exact ⟨⟨_, hnodes⟩, (Option.some.inj hcb).symm⟩

/-! #### Their containers (R246, R248) -/

theorem headerBytes_emptyCodebook : headerBytes emptyCodebook 0 = List.replicate 10 0 := by
  have htable : tableBytes emptyCodebook = [] := by simp [tableBytes]
  rw [headerBytes, htable, Codebook.count_emptyCodebook]
  rfl

theorem get_oneLeafBook (c : Byte) : (oneLeafBook c).get c = CbEntry.ofCode [false] :=
  get_records_of_mem (rs := [(c, [false])]) (List.nodup_singleton c) (List.mem_singleton_self _)

theorem codeOf_oneLeafBook (c : Byte) : (oneLeafBook c).codeOf c = some [false] := by
  rw [Codebook.codeOf_eq_some, get_oneLeafBook]
  exact ⟨rfl, rfl⟩

theorem tableBytes_oneLeafBook (c : Byte) : tableBytes (oneLeafBook c) = [c, 1, 0] := by
  have hvalid : (allSymbols.filter fun x => ((oneLeafBook c).get x).valid) = [c] :=
    List.perm_singleton.1 (perm_valid_bookOf (List.nodup_singleton c))
  rw [tableBytes_eq, hvalid, List.flatMap_singleton, get_oneLeafBook]
  rfl

theorem headerBytes_oneLeafBook (c : Byte) (n : Nat) :
    headerBytes (oneLeafBook c) n = [1, 0, c, 1, 0] ++ leBytes 8 n := by
  have hcount : (oneLeafBook c).count = 1 := count_records (List.nodup_singleton c)
  rw [headerBytes, hcount, tableBytes_oneLeafBook]
  rfl

theorem inputBits_oneLeafBook (c : Byte) (n : Nat) :
    inputBits (oneLeafBook c) (List.replicate n c) = List.replicate n false := by
  have hcode : ((oneLeafBook c).get c).code = [false] := (Codebook.codeOf_eq_some.1 (codeOf_oneLeafBook c)).2
  rw [inputBits, List.flatMap_replicate, hcode, List.flatten_replicate_singleton]

/-- A payload of 0 bits gives zero bytes behind the header. -/
theorem EncoderReady.encoded_readBytes_of_zeroPayload {s u : State} (h : EncoderReady s u) (hm : s.mem.wf = true)
    {n : Nat} (hzero : inputBits u.codebook s.srcBytes = List.replicate n false) {header : List Byte}
    (hheader : headerBytes u.codebook n = header) :
    (encoded u s.srcBytes).mem.readBytes s.dstAddr.toNat (header.length + ceil8 n) =
      header ++ List.replicate (ceil8 n) 0 := by
  have hhead := h.encoded_readBytes_header hm
  have hbits := fun k => h.encoded_bitAt_payload (k := k) hm
  rw [hzero, List.length_replicate, hheader] at hhead hbits
  rw [Memory.readBytes_add, hhead, Memory.readBytes_of_zeroBits fun k hk => ?_]
  rw [hbits k hk, List.getD_eq_getElem?_getD, List.getElem?_getD_replicate_default_eq]

/-- Settles O48: the empty codebook's header is ten zero bytes, and no payload follows. -/
theorem encRunOfTheEmptyInput : Obligations.EncRunOfTheEmptyInput := by
  intro s hm hr hlen
  have hs : s.srcBytes = [] := List.length_eq_zero_iff.1 (by rw [length_srcBytes, hlen]; rfl)
  obtain ⟨u, hu, hsmall, hfits⟩ := exists_encoderReady hr
  obtain ⟨hnodes, hroot, hbook⟩ := hu.of_srcBytes_nil hs
  have hfreq : ∀ c, u.freq.get c = 0 := by
    rw [hu.freq, hs]
    exact fun c => get_countsOf [] c
  have hinvalid : ∀ c, (u.codebook.get c).valid = false := by
    rw [hbook]
    exact fun c => congrArg CbEntry.valid (Codebook.get_emptyCodebook c)
  have hbits : inputBits u.codebook s.srcBytes = List.replicate 0 false := by rw [hs]; rfl
  have hheader : headerBytes u.codebook 0 = List.replicate 10 0 := by rw [hbook, headerBytes_emptyCodebook]
  have hsize : encodedSize u.codebook s.srcBytes = 10 := by
    rw [encodedSize_eq, hbits, List.length_replicate, hheader]
    rfl
  rcases Nat.lt_or_ge s.dstCap.toNat 10 with hc | hc
  · refine ⟨_, hsmall (hsize ▸ hc), hfreq, hroot, hnodes, hinvalid, fun hle => absurd hc (Nat.not_lt.2 hle),
      fun _ => ⟨rfl, rfl, ?_⟩⟩
    exact congrArg (BitVec.ofNat 64) hsize
  · refine ⟨_, hfits (hsize ▸ hc), hfreq, hroot, hnodes, hinvalid, fun _ => ⟨rfl, ?_, ?_, ?_, ?_⟩,
      fun hlt => absurd hlt (Nat.not_lt.2 hc)⟩
    · exact hu.encoded_readBytes_of_zeroPayload hm hbits hheader
    · exact congrArg (BitVec.ofNat 32) hsize
    · exact congrArg (BitVec.ofNat 64 ·.length) hbits
    · exact congrArg (BitVec.ofNat 64 ·.count) hbook |>.trans (by rw [Codebook.count_emptyCodebook])

/-- Settles O49: one Leaf, the code [0], and so a payload of as many 0 bits as the input has bytes. -/
theorem encRunOfASingleSymbol : Obligations.EncRunOfASingleSymbol := by
  intro s c hm hr hpos hsame hcap
  have hs : s.srcBytes = List.replicate s.srcLen.toNat c := by
    rw [srcBytes_eq_map, List.eq_replicate_iff]
    refine ⟨by simp, fun b hb => ?_⟩
    obtain ⟨k, hk, rfl⟩ := List.mem_map.1 hb
    exact hsame k (List.mem_range.1 hk)
  obtain ⟨u, hu, -, hfits⟩ := exists_encoderReady hr
  obtain ⟨hnodes, hbook⟩ := hu.of_srcBytes_replicate hs hpos
  have hbits : inputBits u.codebook s.srcBytes = List.replicate s.srcLen.toNat false := by
    rw [hbook, hs, inputBits_oneLeafBook]
  have hheader : headerBytes u.codebook s.srcLen.toNat = [1, 0, c, 1, 0] ++ leBytes 8 s.srcLen.toNat := by
    rw [hbook, headerBytes_oneLeafBook]
  have hlength : ([1, 0, c, 1, 0] ++ leBytes 8 s.srcLen.toNat).length = 13 := by
    rw [List.length_append, length_leBytes]
    rfl
  have hsize : encodedSize u.codebook s.srcBytes = 13 + ceil8 s.srcLen.toNat := by
    rw [encodedSize_eq, hbits, List.length_replicate, hheader, hlength]
  obtain ⟨houtLen, hres0, -⟩ := hu.encoded_registers rfl hsize.symm hcap
  rw [hbits, List.length_replicate] at hres0
  refine ⟨_, hfits (hsize ▸ hcap), rfl, hnodes, ?_, hres0, houtLen, ?_⟩
  · exact (congrArg (Codebook.codeOf · c) hbook).trans (codeOf_oneLeafBook c)
  · have hbytes := hu.encoded_readBytes_of_zeroPayload hm hbits hheader
    rwa [hlength] at hbytes

end Sys2Proof.Machine
end

section
/-! ### The decoder (48_decoder.md R260 to R272): its ends, the header checks, the payload, and the round trip

`decodeContainer` answers an error or what the container holds, and DEC_RUN has three ends: Fail, the output that does not
fit, and the output written. The statements are made of one lemma per end and of what `decodeContainer` answers for a
container given as `ContainerAt` and `PayloadAt`. -/

namespace Sys2Proof.Machine

/-! #### The three ends of DEC_RUN (R267 to R269) -/

/-- DEC_RUN's last state when the output does not fit (R267). -/
def decodeOverflowed (s : State) (d : Decoded) : State :=
  { s.failDecode with res0 := BitVec.ofNat 64 d.out.length }.complete .outputOverflow

/-- DEC_RUN's last state when the output fits (R268). -/
def decodeWritten (s : State) (d : Decoded) : State := (writeOutput s d).complete .ok

theorem decodeWritten_nodes (s : State) (d : Decoded) : (decodeWritten s d).nodes = d.nodes := rfl

theorem decodeWritten_codebook (s : State) (d : Decoded) : (decodeWritten s d).codebook = d.codebook := rfl

theorem decodeFails_failDecode (s : State) (e : ErrCode) : DecodeFails s (s.failDecode.complete e) e :=
  ⟨Codebook.get_emptyCodebook, fun _ => rfl, fun _ => rfl, rfl⟩

theorem decodeFails_decodeOverflowed (s : State) (d : Decoded) : DecodeFails s (decodeOverflowed s d) .outputOverflow :=
  ⟨Codebook.get_emptyCodebook, fun _ => rfl, fun h => absurd rfl h, rfl⟩

/-- A failed decode reports its code and OUT_LEN = 0, with no tree (R269). -/
theorem DecodeFails.reports {s t : State} {e : ErrCode} (h : DecodeFails s t e) :
    t.err = e ∧ t.outLen = 0 ∧ t.rootValid = false := by
  obtain ⟨-, -, -, hframe⟩ := h
  rw [hframe]
  exact ⟨rfl, rfl, rfl⟩

section
variable {s : State} {d : Decoded}

/-- A container that does not decode ends DEC_RUN through Fail (R269). -/
theorem exec_decRun_error (hr : RegionsOk s) {e : ErrCode}
    (h : decodeContainer s.mem s.srcAddr.toNat s.srcLen.toNat = .error e) :
    ∃ t, exec .decRun s = .next t ∧ DecodeFails s t e := by
  refine ⟨_, (execDecRun_regionsOk hr).trans ?_, decodeFails_failDecode s e⟩
  rw [h]

/-- An output that does not fit ends DEC_RUN with OUTPUT_OVERFLOW and the needed length (R267). -/
theorem exec_decRun_overflow (hr : RegionsOk s) (h : decodeContainer s.mem s.srcAddr.toNat s.srcLen.toNat = .ok d)
    (hc : s.dstCap.toNat < d.out.length) :
    ∃ t, exec .decRun s = .next t ∧ DecodeFails s t .outputOverflow ∧ t.res0.toNat = d.out.length := by
  refine ⟨decodeOverflowed s d, (execDecRun_regionsOk hr).trans ?_, decodeFails_decodeOverflowed s d, ?_⟩
  · rw [h]
    exact if_pos hc
  · obtain ⟨-, -, -, -, -, -, -, -, -, hlt, -, hout⟩ := decodeContainer_ok h
    exact (BitVec.toNat_ofNat _ _).trans (Nat.mod_eq_of_lt (by omega))

/-- An output that fits is written (R268). -/
theorem exec_decRun_written (hr : RegionsOk s) (h : decodeContainer s.mem s.srcAddr.toNat s.srcLen.toNat = .ok d)
    (hc : d.out.length ≤ s.dstCap.toNat) : exec .decRun s = .next (decodeWritten s d) := by
  refine (execDecRun_regionsOk hr).trans ?_
  rw [h]
  exact if_neg (Nat.not_lt.2 hc)

/-- The registers of a decode that completes OK: every number fits its register (R268). -/
theorem decodeWritten_registers (h : decodeContainer s.mem s.srcAddr.toNat s.srcLen.toNat = .ok d)
    (hc : d.out.length ≤ s.dstCap.toNat) :
    (decodeWritten s d).outLen.toNat = d.out.length ∧ (decodeWritten s d).res0.toNat = d.payload ∧
      (decodeWritten s d).res1.toNat = d.offset + ceil8 d.payload ∧
      (decodeWritten s d).brBytes.toNat = ceil8 d.payload ∧ (decodeWritten s d).brLimit.toNat = d.payload ∧
      (decodeWritten s d).brPos.toNat = d.payload := by
  obtain ⟨-, -, -, -, -, -, -, -, -, hpayload, hlen, -⟩ := decodeContainer_ok h
  have hsrc := s.srcLen.isLt
  have hdst := s.dstCap.isLt
  simp only [decodeWritten, writeOutput, State.complete, BitVec.toNat_ofNat]
  refine ⟨Nat.mod_eq_of_lt ?_, Nat.mod_eq_of_lt hpayload, Nat.mod_eq_of_lt ?_, Nat.mod_eq_of_lt ?_,
    Nat.mod_eq_of_lt hpayload, Nat.mod_eq_of_lt hpayload⟩ <;> omega

theorem decodeWritten_sameMemOutside : SameMemOutside s.dstAddr.toNat d.out.length s (decodeWritten s d) :=
  fun _ ha => Memory.read_writeBytes_outside s.mem d.out ha

theorem decodeWritten_read (hm : s.mem.wf = true) {k : Nat} (hk : k < d.out.length) :
    (decodeWritten s d).mem.read (s.dstAddr.toNat + k) = d.out[k] :=
  Memory.read_writeBytes_inside hm s.dstAddr.toNat d.out hk

end

/-- The codes of the codebook of a table are the table's (R268). -/
theorem GoodTable.codeOf_bookOf {es : List (Byte × Code)} (h : GoodTable es) (x : Byte) (c : Code) :
    (bookOf es).codeOf x = some c ↔ (x, c) ∈ es :=
  codeOf_records_iff (fun e he => (h.lens e he).2) h.nodup

/-! #### DEC_RUN completes (R260, R265 to R269) -/

/-- Settles O50: DEC_RUN has three ends, and an OK end holds what the parse of the table made. -/
theorem decRunCompletes : Obligations.DecRunCompletes := by
  intro s hr
  cases hd : decodeContainer s.mem s.srcAddr.toNat s.srcLen.toNat with
  | error e =>
    obtain ⟨t, ht, hfails⟩ := exec_decRun_error hr hd
    obtain ⟨rfl, -, -⟩ := hfails.reports
    refine ⟨t, ht, .inr ⟨?_, hfails, fun ho => ?_⟩⟩
    · rcases decodeContainer_error hd with h | h | h <;> simp [h]
    · rcases decodeContainer_error hd with h | h | h <;> cases h.symm.trans ho
  | ok d =>
    rcases Nat.lt_or_ge s.dstCap.toNat d.out.length with hc | hc
    · obtain ⟨t, ht, hfails, hres0⟩ := exec_decRun_overflow hr hd hc
      obtain ⟨herr, -, -⟩ := hfails.reports
      exact ⟨t, ht, .inr ⟨.inr (.inr (.inr herr)), herr ▸ hfails, fun _ => hres0 ▸ hc⟩⟩
    · obtain ⟨houtLen, hres0, hres1, hbytes, hlimit, hpos⟩ := decodeWritten_registers hd hc
      obtain ⟨t, es, hcount, hes, hparsed, hnodes, hbook, hoffset, hpayload, -, hlen, -⟩ := decodeContainer_ok hd
      have hgood := hparsed.goodTable hes
      rw [hparsed.offset] at hoffset hpayload
      refine ⟨decodeWritten s d, exec_decRun_written hr hd hc, .inl ⟨rfl, houtLen ▸ hc, ?_, rfl, es, _, d.payload,
        hgood, hcount.symm, hparsed.table, rfl, hpayload, ?_, ?_, ?_, hoffset ▸ hlen, fun hfits => ?_, hbytes, hlimit,
        hpos, hres0, hoffset ▸ hres1⟩⟩
      · rw [houtLen]
        exact decodeWritten_sameMemOutside
      · rw [decodeWritten_nodes, hnodes]
        exact hparsed.trieOf
      · rw [decodeWritten_codebook, hbook]
        exact hgood.codeOf_bookOf
      · rw [decodeWritten_codebook, hbook]
        exact ok_bookOf hgood.lens
      · rw [← hoffset] at hfits ⊢
        exact addressReg_toNat hfits

/-! #### The header and the table (R261 to R263, R272) -/

/-- A header shorter than 2 bytes, or a symbol_count above 256 (R261). -/
theorem parseTable_badHeader {m : Memory} {src len : Nat} (h : len < 2 ∨ 256 < m.readLE src 2) :
    parseTable m src len = none := by
  rcases h with h | h
  · exact if_pos h
  · by_cases hlen : len < 2
    · exact if_pos hlen
    · exact (if_neg hlen).trans (if_pos h)

/-- Settles O51: each of the three faults ends the parse. -/
theorem decRunChecksTheHeader : Obligations.DecRunChecksTheHeader := by
  intro s hr
  refine ⟨fun hheader => ?_, fun before q _ htable hq _ => ⟨fun hcount hbad => ?_, fun hcount hlen => ?_⟩⟩
  · have hcount : s.mem.readLE s.srcAddr.toNat 2 =
        (s.mem.read s.srcAddr.toNat).toNat + 256 * (s.mem.read (s.srcAddr.toNat + 1)).toNat := by
      simp [Memory.readLE]
    rw [← hcount] at hheader
    exact exec_decRun_error hr (decodeContainer_malformed (parseTable_badHeader hheader))
  · subst hq
    exact exec_decRun_error hr (decodeContainer_malformed (parseTable_badEntry htable hcount hbad))
  · subst hq
    exact exec_decRun_error hr (decodeContainer_noLength htable hcount hlen)

/-- The entry that stands at a MEM address is a table of one entry (30_encoding.md R97). -/
theorem tableAt_entry (m : Memory) (a : Nat) : TableAt m a [(m.read a, codeAt m (a + 2) (m.read (a + 1)).toNat)] :=
  ⟨rfl, (length_codeAt _ _ _).symm, fun j hj => by simp [codeAt], trivial⟩

theorem tableLength_codeAt (m : Memory) (x : Byte) (a l : Nat) : tableLength [(x, codeAt m a l)] = 2 + ceil8 l := by
  simp [tableLength]

/-- A second entry whose code conflicts with the first one's makes the table malformed (R262(e)). -/
theorem parseTable_conflict {m : Memory} {src len l1 l2 q : Nat} (hcount : 1 < m.readLE src 2)
    (h1 : l1 = (m.read (src + 3)).toNat) (hq : q = 4 + ceil8 l1) (h2 : l2 = (m.read (src + q + 1)).toNat)
    (hconflict : codeAt m (src + 4) l1 <+: codeAt m (src + q + 2) l2 ∨
      codeAt m (src + q + 2) l2 <+: codeAt m (src + 4) l1) : parseTable m src len = none := by
  subst h1 h2
  have htable : TableAt m (src + 2) [(m.read (src + 2), codeAt m (src + 4) (m.read (src + 3)).toNat)] :=
    tableAt_entry m (src + 2)
  refine parseTable_badEntry htable hcount ?_
  rw [tableLength_codeAt, ← Nat.add_assoc, ← hq]
  exact .inr (.inr (.inr (.inr ⟨_, List.mem_singleton_self _, hconflict⟩)))

/-- Settles O53: with the first entry as the table before it, the second one is bad as in R262(e). -/
theorem conflictingTableIsMalformed : Obligations.ConflictingTableIsMalformed := by
  rintro s src l1 l2 q hr rfl - hcount h1 hq - h2 - - - hconflict
  have hparse : parseTable s.mem s.srcAddr.toNat s.srcLen.toNat = none :=
    parseTable_conflict (by rw [hcount]; decide) h1 hq h2 hconflict
  obtain ⟨t, ht, hfails⟩ := exec_decRun_error hr (decodeContainer_malformed hparse)
  obtain ⟨herr, houtLen, hroot⟩ := hfails.reports
  obtain ⟨-, hmem, -⟩ := hfails
  exact ⟨t, ht, herr, houtLen, hroot, hmem⟩

/-! #### The payload (R263, R264) -/

/-- A container stands in a region: a table in order, and P after it, with the payload at offset q + 8 (30_encoding.md R95
to R100). -/
structure ContainerAt (m : Memory) (src len : Nat) (es : List (Byte × Code)) (q P : Nat) : Prop where
  good   : GoodTable es
  count  : m.readLE src 2 = es.length
  table  : TableAt m (src + 2) es
  offset : q = 2 + tableLength es
  inside : q + 8 ≤ len
  bits   : m.readLE (src + q) 8 = P

/-- The payload begins with these bits (30_encoding.md R100). -/
def PayloadAt (m : Memory) (pay : Nat) (bits : Code) : Prop := ∀ k (h : k < bits.length), m.bitAt pay k = bits[k]

theorem PayloadAt.left {m : Memory} {pay : Nat} {bits rest : Code} (h : PayloadAt m pay (bits ++ rest)) :
    PayloadAt m pay bits := by
  intro k hk
  rw [h k (by rw [List.length_append]; omega), List.getElem_append_left hk]

theorem PayloadAt.right {m : Memory} {pay : Nat} {bits rest : Code} (h : PayloadAt m pay (bits ++ rest)) (j : Nat)
    (hj : j < rest.length) : m.bitAt pay (bits.length + j) = rest[j] := by
  rw [h (bits.length + j) (by rw [List.length_append]; omega), List.getElem_append_right (Nat.le_add_right _ _)]
  exact getElem_congr_idx (Nat.add_sub_cancel_left _ _)

section
variable {m : Memory} {src len q P : Nat} {es outs : List (Byte × Code)} {rest : Code}

/-- Fewer than ceil8(P) bytes after P (R263). -/
theorem ContainerAt.decode_short (h : ContainerAt m src len es q P) (hlen : len < q + 8 + ceil8 P) :
    decodeContainer m src len = .error .truncatedPayload := by
  obtain ⟨t, -, hd⟩ := decodeContainer_table h.good h.count h.table h.offset h.bits h.inside
  exact hd.trans (if_pos hlen)

/-- A payload that begins with the codes of `outs`: what comes after them decides (R264). -/
theorem ContainerAt.decode_codes (h : ContainerAt m src len es q P) (hlen : q + 8 + ceil8 P ≤ len)
    (houts : ∀ o ∈ outs, o ∈ es) (hP : P = (outs.flatMap Prod.snd ++ rest).length)
    (hbits : PayloadAt m (src + q + 8) (outs.flatMap Prod.snd ++ rest)) :
    ∃ t, Parsed m src len t es ∧ decodeContainer m src len =
      (walkPayload m t.nodes (src + q + 8) rest.length (outs.flatMap Prod.snd).length 0).map fun out =>
        { nodes := t.nodes, codebook := bookOf es, payload := P, offset := q + 8, out := outs.map Prod.fst ++ out } := by
  obtain ⟨t, hparsed, hd⟩ := decodeContainer_table h.good h.count h.table h.offset h.bits h.inside
  refine ⟨t, hparsed, hd.trans ((if_neg (Nat.not_lt.2 hlen)).trans ?_)⟩
  have hwalk := walkPayload_codes (left := rest.length) (pos := 0) (pay := src + q + 8) hparsed.trie
    (fun e he => (h.good.lens e he).1) houts fun j hj => by rw [Nat.zero_add]; exact hbits.left j hj
  rw [hP, List.length_append, Nat.add_comm, hwalk, Nat.zero_add]
  cases walkPayload m t.nodes (src + q + 8) rest.length (outs.flatMap Prod.snd).length 0 <;> rfl

/-- Codes and nothing after them give their symbols (R264). -/
theorem ContainerAt.decode_ok (h : ContainerAt m src len es q P) (hlen : q + 8 + ceil8 P ≤ len)
    (houts : ∀ o ∈ outs, o ∈ es) (hP : P = (outs.flatMap Prod.snd ++ rest).length)
    (hbits : PayloadAt m (src + q + 8) (outs.flatMap Prod.snd ++ rest)) (hrest : rest = []) :
    ∃ d, decodeContainer m src len = .ok d ∧ d.codebook = bookOf es ∧ d.payload = P ∧ d.offset = q + 8 ∧
      d.out = outs.map Prod.fst := by
  subst hrest
  obtain ⟨t, -, hd⟩ := h.decode_codes hlen houts hP hbits
  exact ⟨_, hd, rfl, rfl, rfl, List.append_nil _⟩

/-- Codes and then a proper beginning of a code (R264). -/
theorem ContainerAt.decode_truncated (h : ContainerAt m src len es q P) (hlen : q + 8 + ceil8 P ≤ len)
    (houts : ∀ o ∈ outs, o ∈ es) (hP : P = (outs.flatMap Prod.snd ++ rest).length)
    (hbits : PayloadAt m (src + q + 8) (outs.flatMap Prod.snd ++ rest)) (hne : rest ≠ [])
    (hrest : ∃ e ∈ es, rest <+: e.2 ∧ rest ≠ e.2) : decodeContainer m src len = .error .truncatedPayload := by
  obtain ⟨t, hparsed, hd⟩ := h.decode_codes hlen houts hP hbits
  obtain ⟨e, he, hprefix, hproper⟩ := hrest
  rw [hd, walkPayload_truncated (p := []) hparsed.trie (pathIndex_nil _ _) hne he hprefix hproper hbits.right]
  rfl

/-- Codes and then bits that leave the trie (R264, R269(c)). -/
theorem ContainerAt.decode_undecodable (h : ContainerAt m src len es q P) (hlen : q + 8 + ceil8 P ≤ len)
    (houts : ∀ o ∈ outs, o ∈ es) (hP : P = (outs.flatMap Prod.snd ++ rest).length)
    (hbits : PayloadAt m (src + q + 8) (outs.flatMap Prod.snd ++ rest)) (hne : rest ≠ [])
    (hrest : ∀ e ∈ es, ¬ rest <+: e.2 ∧ ¬ e.2 <+: rest) : decodeContainer m src len = .error .undecodable := by
  obtain ⟨t, hparsed, hd⟩ := h.decode_codes hlen houts hP hbits
  have hwalk := walkPayload_undecodable (left := 0) (p := []) hparsed.trie (pathIndex_nil _ _) hne hrest hbits.right
  rw [Nat.zero_add] at hwalk
  rw [hd, hwalk]
  rfl

end

/-- Settles O52: the payload's end decides what `decodeContainer` answers, and the capacity decides the rest. -/
theorem decRunDecodesAContainer : Obligations.DecRunDecodesAContainer := by
  intro s es q P hr hgood hcount htable hoffset hinside hP
  have hat : ContainerAt s.mem s.srcAddr.toNat s.srcLen.toNat es q P :=
    ⟨hgood, hcount, htable, hoffset, hinside, hP⟩
  refine ⟨fun hshort => exec_decRun_error hr (hat.decode_short hshort), fun outs rest hlen houts hlength hbits =>
    ⟨fun hnil hcap => ?_, fun hnil hcap => ?_, fun hne hrest => ?_, fun hne hrest => ?_⟩⟩
  · obtain ⟨d, hd, hbook, hpayload, hoff, hout⟩ := hat.decode_ok hlen houts hlength hbits hnil
    have hn : d.out.length = outs.length := by rw [hout, List.length_map]
    have hc : d.out.length ≤ s.dstCap.toNat := hn ▸ hcap
    obtain ⟨houtLen, hres0, hres1, -⟩ := decodeWritten_registers hd hc
    refine ⟨decodeWritten s d, exec_decRun_written hr hd hc, rfl, houtLen.trans hn, hres0.trans hpayload, ?_,
      fun hm k hk => ?_, hn ▸ decodeWritten_sameMemOutside, ?_⟩
    · rw [hres1, hoff, hpayload]
    · rw [decodeWritten_read hm (hn ▸ hk)]
      simp only [hout, List.getElem_map]
    · rw [decodeWritten_codebook, hbook]
      exact hgood.codeOf_bookOf
  · obtain ⟨d, hd, -, -, -, hout⟩ := hat.decode_ok hlen houts hlength hbits hnil
    have hn : d.out.length = outs.length := by rw [hout, List.length_map]
    rw [← hn] at hcap ⊢
    exact exec_decRun_overflow hr hd hcap
  · exact exec_decRun_error hr (hat.decode_truncated hlen houts hlength hbits hne hrest)
  · exact exec_decRun_error hr (hat.decode_undecodable hlen houts hlength hbits hne hrest)

end Sys2Proof.Machine
end

section
/-! ### The round trip (48_decoder.md R271): the encoder's container is one the decoder reads, with the input as output -/

namespace Sys2Proof.Machine

/-! #### The table of a codebook (30_encoding.md R103) -/

/-- The entries of the table that ENC_RUN writes for a codebook: its symbols in ascending order with their codes. -/
def tableEntries (cb : Codebook) : List (Byte × Code) :=
  (allSymbols.filter fun x => (cb.get x).valid).map fun x => (x, (cb.get x).code)

theorem map_fst_tableEntries (cb : Codebook) :
    (tableEntries cb).map Prod.fst = allSymbols.filter fun x => (cb.get x).valid := by
  simp [tableEntries, Function.comp_def]

theorem nodup_tableEntries (cb : Codebook) : ((tableEntries cb).map Prod.fst).Nodup := by
  rw [map_fst_tableEntries]
  exact nodup_allSymbols.filter _

theorem length_tableEntries (cb : Codebook) : (tableEntries cb).length = cb.count := by
  rw [Codebook.count_eq_length, tableEntries, List.length_map]

theorem mem_tableEntries {cb : Codebook} {x : Byte} {c : Code} : (x, c) ∈ tableEntries cb ↔ cb.codeOf x = some c := by
  simp only [tableEntries, List.mem_map, List.mem_filter, mem_allSymbols, true_and, Prod.mk.injEq,
    Codebook.codeOf_eq_some]
  constructor
  · rintro ⟨y, hvalid, rfl, hcode⟩
    exact ⟨hvalid, hcode⟩
  · rintro ⟨hvalid, hcode⟩
    exact ⟨x, hvalid, rfl, hcode⟩

/-- The entry of a symbol with a code is the one made from the code. -/
theorem GoodCodes.get_eq_ofCode {rs : List (Byte × Code)} (h : GoodCodes rs) {x : Byte}
    (hx : ((bookOf rs).get x).valid = true) : (bookOf rs).get x = CbEntry.ofCode ((bookOf rs).get x).code := by
  obtain ⟨⟨y, c⟩, hc, rfl⟩ := List.mem_map.1 ((valid_records x).1 hx)
  have hget : (bookOf rs).get y = CbEntry.ofCode c := get_records_of_mem h.nodup hc
  rw [hget, CbEntry.code_ofCode (h.length _ hc).2]

/-- The entries of a codebook of recorded codes are the records, in another order. -/
theorem GoodCodes.mem_tableEntries_iff {rs : List (Byte × Code)} (h : GoodCodes rs) (e : Byte × Code) :
    e ∈ tableEntries (bookOf rs) ↔ e ∈ rs :=
  mem_tableEntries.trans (codeOf_records_iff (fun r hr => (h.length r hr).2) h.nodup)

/-- The table of a codebook of a tree's codes is in order (R102, R103; 44_codebook.md R185). -/
theorem GoodCodes.goodTable {rs : List (Byte × Code)} (h : GoodCodes rs) : GoodTable (tableEntries (bookOf rs)) where
  count := length_tableEntries _ ▸ Codebook.count_le _
  nodup := nodup_tableEntries _
  lens e he := h.length e ((h.mem_tableEntries_iff e).1 he)
  free := by
    refine (nodup_tableEntries (bookOf rs)).of_map.imp_of_mem fun {d e} hd he hne => ?_
    rw [h.mem_tableEntries_iff] at hd he
    exact ⟨fun hp => hne (h.free d hd e he hp), fun hp => hne (h.free e he d hd hp).symm⟩

/-- The codebook of a list of codes does not depend on the list's order. -/
theorem bookOf_congr {rs rs' : List (Byte × Code)} (hnodup : (rs'.map Prod.fst).Nodup) (hmem : ∀ e, e ∈ rs ↔ e ∈ rs') :
    bookOf rs = bookOf rs' := by
  refine Codebook.ext_get fun x => ?_
  rcases Codebook.get_records emptyCodebook rs x with ⟨hx, hget⟩ | ⟨c, hc, hget⟩
  · have hx' : x ∉ rs'.map Prod.fst := by simpa [hmem] using hx
    exact (get_records_of_notMem hx).trans (get_records_of_notMem hx').symm
  · exact hget.trans (get_records_of_mem hnodup ((hmem _).1 hc)).symm

theorem GoodCodes.bookOf_tableEntries {rs : List (Byte × Code)} (h : GoodCodes rs) :
    bookOf (tableEntries (bookOf rs)) = bookOf rs :=
  bookOf_congr h.nodup h.mem_tableEntries_iff

/-- The bytes of the table are the entries' (R97, R103). -/
theorem GoodCodes.tableBytes_eq {rs : List (Byte × Code)} (h : GoodCodes rs) :
    tableBytes (bookOf rs) = (tableEntries (bookOf rs)).flatMap fun e => entryBytes e.1 (CbEntry.ofCode e.2) := by
  rw [Machine.tableBytes_eq, tableEntries, List.flatMap_map]
  refine List.flatMap_congr fun x hx => ?_
  rw [← h.get_eq_ofCode (List.mem_filter.1 hx).2]

theorem GoodCodes.length_tableBytes {rs : List (Byte × Code)} (h : GoodCodes rs) :
    (tableBytes (bookOf rs)).length = tableLength (tableEntries (bookOf rs)) := by
  rw [h.tableBytes_eq, length_flatMap_entryBytes fun e he => (h.goodTable.lens e he).2]

/-- Where the table's bytes stand, the entries stand (R97). -/
theorem GoodCodes.tableAt {rs : List (Byte × Code)} (h : GoodCodes rs) {m : Memory} {a : Nat}
    (hbytes : m.readBytes a (tableBytes (bookOf rs)).length = tableBytes (bookOf rs)) :
    TableAt m a (tableEntries (bookOf rs)) := by
  refine tableAt_of_bytes (fun e he => (h.goodTable.lens e he).2) fun k hk => ?_
  rw [h.tableBytes_eq] at hbytes
  rw [← Memory.getElem_readBytes m a _ k (by rwa [Memory.length_readBytes])]
  exact List.getElem_of_eq hbytes _

/-! #### The payload of an input (30_encoding.md R100) -/

/-- The table entries of the input's bytes, one after the other. -/
def inputEntries (cb : Codebook) (bytes : List Byte) : List (Byte × Code) := bytes.map fun b => (b, (cb.get b).code)

theorem flatMap_inputEntries (cb : Codebook) (bytes : List Byte) :
    (inputEntries cb bytes).flatMap Prod.snd = inputBits cb bytes := by
  rw [inputEntries, List.flatMap_map, inputBits]

theorem map_fst_inputEntries (cb : Codebook) (bytes : List Byte) : (inputEntries cb bytes).map Prod.fst = bytes := by
  simp [inputEntries, Function.comp_def]

theorem inputEntries_subset {cb : Codebook} {bytes : List Byte} (h : ∀ b ∈ bytes, (cb.get b).valid = true) :
    ∀ e ∈ inputEntries cb bytes, e ∈ tableEntries cb := by
  intro e he
  obtain ⟨b, hb, rfl⟩ := List.mem_map.1 he
  exact mem_tableEntries.2 (Codebook.codeOf_eq_some.2 ⟨h b hb, rfl⟩)

/-! #### The encoder's container, read by the decoder (R271) -/

/-- The container that ENC_RUN wrote stands in any memory that holds its bytes (30_encoding.md R95 to R105). -/
theorem containerAt_of_encRun {s t : State} (hm : s.mem.wf = true) (ht : exec .encRun s = .next t) (ho : t.err = .ok)
    {rs : List (Byte × Code)} (hrs : GoodCodes rs) (hbook : t.codebook = bookOf rs) {m : Memory} {len : Nat}
    (hsame : ∀ k, k < t.outLen.toNat → m.read (s.dstAddr.toNat + k) = t.mem.read (s.dstAddr.toNat + k))
    (hlen : t.outLen.toNat ≤ len) :
    ∃ q P, ContainerAt m s.dstAddr.toNat len (tableEntries (bookOf rs)) q P ∧ q + 8 + ceil8 P ≤ len ∧
      P = (inputBits (bookOf rs) s.srcBytes).length ∧
      PayloadAt m (s.dstAddr.toNat + q + 8) (inputBits (bookOf rs) s.srcBytes) := by
  obtain ⟨hsize, hcount, htable, hnumber, hpayload⟩ := encRunWritesTheContainer s t hm ht ho
    (tableBytes t.codebook) (inputBits t.codebook s.srcBytes) (tableBytes_eq_flatMap _)
    (by rw [srcBytes_eq_map]; rfl)
  rw [hbook] at hsize hcount htable hnumber hpayload
  have hread : ∀ a n, a + n ≤ t.outLen.toNat → ∀ k < n,
      m.read (s.dstAddr.toNat + a + k) = t.mem.read (s.dstAddr.toNat + a + k) := by
    intro a n ha k hk
    rw [Nat.add_assoc]
    exact hsame (a + k) (by omega)
  rw [Nat.add_assoc s.dstAddr.toNat 2] at hnumber hpayload
  refine ⟨2 + (tableBytes (bookOf rs)).length, (inputBits (bookOf rs) s.srcBytes).length,
    ⟨hrs.goodTable, ?_, hrs.tableAt ?_, by rw [hrs.length_tableBytes], by omega, ?_⟩, hsize.ge.trans hlen, rfl,
    fun k hk => ?_⟩
  · rw [length_tableEntries, ← hcount]
    exact Memory.readLE_congr (hread 0 2 (by omega))
  · exact (Memory.readBytes_congr (hread 2 _ (by omega))).trans htable
  · exact (Memory.readLE_congr (hread _ 8 (by omega))).trans hnumber
  · have hbyte : k / 8 < ((inputBits (bookOf rs) s.srcBytes).length + 7) / 8 := by omega
    exact (bitAt_congr (hread _ _ hsize.ge _ hbyte)).trans
      ((hpayload k (by omega)).trans (List.getD_eq_getElem _ _ hk))

/-- So it decodes to the input, with the encoder's codebook (R271). -/
theorem decodeContainer_of_encRun {s t : State} (hm : s.mem.wf = true) (ht : exec .encRun s = .next t)
    (ho : t.err = .ok) {m : Memory} {len : Nat}
    (hsame : ∀ k, k < t.outLen.toNat → m.read (s.dstAddr.toNat + k) = t.mem.read (s.dstAddr.toNat + k))
    (hlen : t.outLen.toNat ≤ len) :
    ∃ d, decodeContainer m s.dstAddr.toNat len = .ok d ∧ d.codebook = t.codebook ∧ d.out = s.srcBytes := by
  obtain ⟨rs, P, size, hrs, -, -, hvalid, -, -, -, -, hend⟩ := execEncRun_ok ht ho
  have hbook : t.codebook = bookOf rs := congrArg State.codebook hend
  obtain ⟨q, P, hat, hfits, hP, hbits⟩ := containerAt_of_encRun hm ht ho hrs hbook hsame hlen
  rw [← flatMap_inputEntries, ← List.append_nil (List.flatMap _ _)] at hP hbits
  obtain ⟨d, hd, hdbook, -, -, hout⟩ :=
    hat.decode_ok hfits (inputEntries_subset fun b hb => (hvalid b).2 hb) hP hbits rfl
  exact ⟨d, hd, by rw [hdbook, hrs.bookOf_tableEntries, hbook], hout.trans (map_fst_inputEntries _ _)⟩

/-- Settles O54: the container decodes to the input, and the output fits. -/
theorem decodeOfEncodeIsTheInput : Obligations.DecodeOfEncodeIsTheInput := by
  intro s t u hm ht ho hum hr hsrc hlen hcap hsame
  obtain ⟨d, hd, hbook, hout⟩ := decodeContainer_of_encRun hm ht ho hsame hlen
  rw [← hsrc] at hd
  have hn : d.out.length = s.srcLen.toNat := by rw [hout, length_srcBytes]
  have hc : d.out.length ≤ u.dstCap.toNat := hn ▸ hcap
  obtain ⟨houtLen, -⟩ := decodeWritten_registers hd hc
  refine ⟨decodeWritten u d, exec_decRun_written hr hd hc, rfl, BitVec.eq_of_toNat_eq (houtLen.trans hn), hbook,
    fun k hk => ?_⟩
  rw [decodeWritten_read hum (hn ▸ hk)]
  simp only [hout, srcBytes_eq_map, List.getElem_map, List.getElem_range]

end Sys2Proof.Machine
end

section
/-! ### Under the invariant every command completes and no step faults (47_encoder.md R247, 60_exceptions.md R303, R308,
70_reset_and_hazards.md R344, R357)

Four commands have a fault on some path. Of BP_PUSH, BR_NEXT and CB_GEN a part of the invariant rules it out: the packer's
bounds, the reader's bounds, and the links of the arena. ENC_RUN walks the tree it has just planted, in every state. -/

namespace Sys2Proof.Machine

/-- The outcome is a next state: a completion, for a command. -/
def Completes (o : Host.Outcome State Fault Refusal) : Prop := ∃ t, o = .next t

theorem Completes.of_next (t : State) : Completes (.next t) := ⟨t, rfl⟩

/-- A check that ends the command, and what comes after it. -/
theorem Completes.ite {t : State} {o : Host.Outcome State Fault Refusal} {c : Prop} [Decidable c]
    (h : ¬ c → Completes o) : Completes (if c then .next t else o) := by
  split
  next => exact .of_next t
  next hc => exact h hc

/-! #### The commands that complete in every state -/

theorem execPqPop_completes (s : State) : Completes (execPqPop s) := by
  unfold execPqPop
  split
  · exact .of_next _
  · exact .of_next _

theorem execNodeRead_completes (index : NodeIndex) (s : State) : Completes (execNodeRead index s) := by
  unfold execNodeRead
  split
  · exact .of_next _
  · exact .of_next _

theorem execTreeBuild_completes (s : State) : Completes (execTreeBuild s) := by
  rcases Nat.lt_or_ge maxCount s.freq.total with ht | ht
  · exact ⟨_, execTreeBuild_overflow ht⟩
  · exact ⟨_, execTreeBuild_fits ht⟩

/-- Counting and planting make an arena in order, whatever the arena before (47_encoder.md R245, R247). -/
theorem execEncRun_completes (s : State) : Completes (execEncRun s) := by
  by_cases hr : RegionsOk s
  · obtain ⟨u, -, hsmall, hfits⟩ := exists_encoderReady hr
    rcases Nat.lt_or_ge s.dstCap.toNat (encodedSize u.codebook s.srcBytes) with hc | hc
    · exact ⟨_, hsmall hc⟩
    · exact ⟨_, hfits hc⟩
  · obtain ⟨e, he⟩ := execEncRun_region_error hr
    exact ⟨_, he⟩

/-- A container that does not parse is an error of the command and no fault (48_decoder.md R269). -/
theorem execDecRun_completes (s : State) : Completes (execDecRun s) := by
  by_cases hr : RegionsOk s
  · rw [execDecRun_regionsOk hr]
    split
    · exact .of_next _
    · exact .ite fun _ => .of_next _
  · obtain ⟨e, he⟩ := execDecRun_region_error hr
    exact ⟨_, he⟩

/-! #### The commands that need the invariant -/

theorem execCbGen_completes {s : State} (h : s.LinksOk) : Completes (execCbGen s) := by
  obtain ⟨cb, hcb⟩ := exists_generateCodebook h
  exact ⟨_, execCbGen_eq_next_iff.2 ⟨cb, hcb, rfl⟩⟩

theorem execBpPush_completes (bit : Byte) {s : State} (h : s.PackerOk) : Completes (execBpPush bit s) := by
  refine .ite fun _ => .ite fun hf => ?_
  rw [if_neg (Nat.not_le.2 (h.packAddress_lt hf))]
  exact .of_next _

theorem execBrNext_completes {s : State} (h : s.ReaderOk) : Completes (execBrNext s) := by
  by_cases hp : s.brPos = s.brLimit
  · exact ⟨_, execBrNext_exhausted hp⟩
  rcases Nat.lt_or_ge (s.brPos.toNat / 8) s.brBytes.toNat with hb | hb
  · exact ⟨_, h.execBrNext_delivers hp hb⟩
  · exact ⟨_, execBrNext_outOfBytes hp hb⟩

/-! #### Every command, every move of the outside, every step -/

theorem exec_completes (i : Instr) {s : State} (h : s.Inv) : Completes (exec i s) := by
  obtain ⟨hlinks, -⟩ := h.arena
  cases i
  case nop => exact .of_next _
  case ftClear => exact .of_next _
  case ftRecord sym => exact .ite fun _ => .of_next _
  case ftWrite sym => exact .of_next _
  case ftRead sym => exact .of_next _
  case ftScan => exact .ite fun _ => .ite fun _ => .of_next _
  case pqClear => exact .of_next _
  case pqPush node => exact .ite fun _ => .ite fun _ => .of_next _
  case pqPop => exact execPqPop_completes s
  case treeBuild => exact execTreeBuild_completes s
  case nodeRead index => exact execNodeRead_completes index s
  case cbGen => exact execCbGen_completes hlinks
  case cbRead sym chunk => exact .ite fun _ => .of_next _
  case bpInit => exact .ite fun _ => .of_next _
  case bpPush bit => exact execBpPush_completes bit h.packer
  case bpFinish => exact .of_next _
  case brInit => exact .ite fun _ => .of_next _
  case brNext => exact execBrNext_completes h.reader
  case encRun => exact execEncRun_completes s
  case decRun => exact execDecRun_completes s
  case reset => exact .of_next _

/-- A word that is no command completes too, with ILLEGAL_COMMAND (60_exceptions.md R303, R304). -/
theorem completeWord_completes (w : Word) {s : State} (h : s.Inv) : Completes (completeWord w s) := by
  obtain ⟨i, -, he⟩ | ⟨-, he⟩ := completeWord_cases w s
  · rw [he]
    exact exec_completes i h
  · exact ⟨_, he⟩

theorem ite_ne_fault {o o' : Host.Outcome State Fault Refusal} {c : Prop} [Decidable c] {f : Fault} (h : o ≠ .fault f)
    (h' : o' ≠ .fault f) : (if c then o else o') ≠ .fault f := by
  split
  · exact h
  · exact h'

theorem hostAccess_ne_fault (s : State) (m : HostMove) (f : Fault) : hostAccess s m ≠ .fault f := by
  cases m with
  | readReg width offset => exact ite_ne_fault nofun nofun
  | writeReg width offset v => exact ite_ne_fault nofun (ite_ne_fault nofun nofun)
  | readMem a => exact ite_ne_fault nofun nofun
  | writeMem a v => exact ite_ne_fault nofun (ite_ne_fault nofun nofun)
  | rst asserted => exact nofun

/-- A move of the outside is answered or refused: the host's port raises no fault. -/
theorem hostMove_ne_fault (s : State) (m : HostMove) (f : Fault) : hostMove s m ≠ .fault f := by
  cases m with
  | rst asserted => exact nofun
  | readReg width offset => exact ite_ne_fault nofun (hostAccess_ne_fault s _ f)
  | writeReg width offset v => exact ite_ne_fault nofun (hostAccess_ne_fault s _ f)
  | readMem a => exact ite_ne_fault nofun (hostAccess_ne_fault s _ f)
  | writeMem a v => exact ite_ne_fault nofun (hostAccess_ne_fault s _ f)

theorem step_ne_fault {s : State} (h : s.Inv) (f : Fault) : step s ≠ .fault f := by
  obtain ⟨w, -, he⟩ | ⟨m, rest, -, he⟩ | ⟨-, he⟩ := step_cases s
  · obtain ⟨t, ht⟩ := completeWord_completes w h
    simp [he, ht]
  · rw [he]
    exact hostMove_ne_fault _ m f
  · simp [he]

/-- Settles O60: the invariant rules out each command's fault, and the outside's moves raise none. -/
theorem everyCommandCompletes : Obligations.EveryCommandCompletes := by
  refine ⟨fun s w h ht => ?_, fun s f h => step_ne_fault h f⟩
  obtain ⟨t, hc⟩ := completeWord_completes w h
  exact ⟨t, (step_of_completion ht).trans hc, not_busy_of_completeWord hc⟩

end Sys2Proof.Machine
end

section
/-! ### The turns of a step, issue and the BUSY window (60_exceptions.md R300 to R302) -/

namespace Sys2Proof.Machine

/-! #### Whose turn it is (20_memory.md R71) -/

theorem turn_of_outside {s : State} {e : HostEvent} {rest : List HostEvent} (hh : s.host = e :: rest)
    (h : s.pending = none ∨ s.rst = true ∨ e.inBusy = true) : s.turn = .outside e.move rest := by
  cases hp : s.pending with
  | none => simp [State.turn, hh, hp]
  | some w =>
    have hin : e.inBusy = true ∨ s.rst = true := by simpa [hp, or_comm] using h
    simp [State.turn, hh, hp, hin]

theorem turn_of_idle {s : State} (hh : s.host = []) (h : s.pending = none ∨ s.rst = true) : s.turn = .idle := by
  cases hp : s.pending with
  | none => simp [State.turn, hh, hp]
  | some w =>
    have hr : s.rst = true := by simpa [hp] using h
    simp [State.turn, hh, hp, hr]

theorem completeWord_of_decode {w : Word} {i : Instr} (h : decode w = .ok i) (s : State) :
    completeWord w s = exec i s := by
  rw [completeWord, h]

/-- Settles O6: the turn is the completion, the outside's or the idle one, and `step` takes it. -/
theorem stepRunsTheDecodedCommand : Obligations.StepRunsTheDecodedCommand := by
  refine ⟨fun s w i hp hr hh hi => ?_, fun s e rest hh h => ?_, fun s hh h => ?_⟩
  · rw [step_of_completion (turn_eq_completion.2 ⟨hp, hr, hh⟩), completeWord_of_decode hi]
  · rw [step, turn_of_outside hh h]
  · rw [step, turn_of_idle hh h]

/-! #### The end of a command (R301) -/

theorem completed_of_exec {i : Instr} {s t : State} (h : exec i s = .next t) : Completed s t := by
  by_cases hi : i = .reset
  · subst hi
    cases h
    exact ⟨rfl, rfl, rfl, rfl, rfl⟩
  · obtain ⟨u, code, rfl, ⟨hcfg, hhost, hreplies, hrst, -⟩, -⟩ := exec_ends hi s t h
    exact ⟨rfl, hcfg, hhost, hreplies, hrst⟩

/-- Settles O7: RESET keeps the model's own fields as every other command does. -/
theorem completionEndsTheWindow : Obligations.CompletionEndsTheWindow :=
  fun _ _ _ h => ⟨completed_of_exec h, not_busy_of_exec h⟩

theorem pending_of_not_busy {s : State} (h : s.busy = false) : s.pending = none := by
  simpa [State.busy] using h

/-! #### Issue (R300) -/

/-- A move of the outside keeps PENDING, empties it, or is the write of CMD that issues a word. -/
theorem hostMove_pending {s t : State} {m : HostMove} (h : hostMove s m = .next t) :
    t.pending = s.pending ∨ t.pending = none ∨
      (s.busy = false ∧ ∃ w, m = .writeReg .word 0x00 w ∧ t.pending = some w) := by
  obtain ⟨a, -, rfl⟩ | ⟨r, rfl⟩ | ⟨-, rfl⟩ | ⟨offset, v, rfl, hb, -, rfl⟩ | ⟨a, v, -, -, -, -, rfl⟩ :=
    hostMove_cases h
  · cases a with
    | true => exact .inr (.inl rfl)
    | false => exact .inl rfl
  · exact .inl rfl
  · exact .inl rfl
  · rw [writeRegister_pending]
    split
    next h0 => exact .inr (.inr ⟨hb, v, by rw [h0], rfl⟩)
    next => exact .inl rfl
  · exact .inl rfl

/-- Settles O8: a completion empties PENDING, and of the outside's moves only a write of CMD fills it. -/
theorem issueIsTheOnlyStart : Obligations.IssueIsTheOnlyStart := by
  refine ⟨fun s w hb hr => hostMove_writeReg_idle hb hr rfl (by decide) w, fun s t w h hnew ht => ?_⟩
  obtain ⟨v, -, he⟩ | ⟨m, rest, hturn, he⟩ | ⟨-, he⟩ := step_cases s
  · have hnone := pending_of_not_busy (not_busy_of_completeWord (he.symm.trans h))
    cases hnone.symm.trans ht
  · obtain hp | hp | ⟨hb, v, rfl, hp⟩ := hostMove_pending (he.symm.trans h)
    · exact absurd (hp.symm.trans ht) hnew
    · cases hp.symm.trans ht
    · obtain rfl := Option.some.inj (hp.symm.trans ht)
      exact ⟨hb, rest, hturn⟩
  · obtain rfl := Host.Outcome.next.inj (he.symm.trans h)
    exact absurd ht hnew

/-! #### Inside the window (R302) -/

theorem hostMove_writeReg_busy {s : State} (hb : s.busy = true) (hr : s.rst = false) {offset : Nat}
    (h4 : offset % 4 = 0) (hlt : offset < 0x100) (v : Word) :
    hostMove s (.writeReg .word offset v) = .next s.dropWrite := by
  have ha : registerAdmitted .word offset = true := (registerAdmitted_iff _ _).2 ⟨rfl, h4, hlt⟩
  simp [hostMove_access _ hr, hostAccess, ha, hb]

/-- `t` is `s` but for the moves to come, the replies, OVR and the reset level. -/
def SameInWindow (s t : State) : Prop :=
  t = { s with host := t.host, replies := t.replies, ovr := t.ovr, rst := t.rst }

/-- A move inside a window that stays open changes none of the block's items but OVR. -/
theorem hostMove_sameInWindow {s t : State} {m : HostMove} (h : hostMove s m = .next t) (hs : s.busy = true)
    (ht : t.busy = true) : SameInWindow s t := by
  obtain ⟨a, -, rfl⟩ | ⟨r, rfl⟩ | ⟨-, rfl⟩ | ⟨offset, v, -, hb, -, -⟩ | ⟨a, v, -, -, hb, -, -⟩ := hostMove_cases h
  · cases a with
    | true => cases ht
    | false => rfl
  · rfl
  · rfl
  · cases hb.symm.trans hs
  · cases hb.symm.trans hs

theorem step_sameInWindow {s t : State} (h : step s = .next t) (hs : s.busy = true) (ht : t.busy = true) :
    SameInWindow s t := by
  obtain ⟨w, -, he⟩ | ⟨m, rest, -, he⟩ | ⟨-, he⟩ := step_cases s
  · cases (not_busy_of_completeWord (he.symm.trans h)).symm.trans ht
  · exact hostMove_sameInWindow (s := { s with host := rest }) (he.symm.trans h) hs ht
  · obtain rfl := Host.Outcome.next.inj (he.symm.trans h)
    rfl

/-! #### OVR stays (R302; 10_state.md R24) -/

theorem completeWord_ovr {w : Word} {s t : State} (h : completeWord w s = .next t) :
    t.ovr = s.ovr ∨ decode w = .ok .reset := by
  obtain ⟨i, hi, he⟩ | ⟨-, he⟩ := completeWord_cases w s
  · by_cases hreset : i = .reset
    · exact .inr (hreset ▸ hi)
    · obtain ⟨u, code, rfl, ⟨-, -, -, -, hovr, -⟩, -⟩ := exec_ends hreset s t (he.symm.trans h)
      exact .inl hovr
  · obtain rfl := Host.Outcome.next.inj (he.symm.trans h)
    exact .inl rfl

theorem hostMove_ovr {s t : State} {m : HostMove} (h : hostMove s m = .next t) :
    t.ovr = s.ovr ∨ t.ovr = true ∨ m = .rst true := by
  obtain ⟨a, rfl, rfl⟩ | ⟨r, rfl⟩ | ⟨-, rfl⟩ | ⟨offset, v, -, -, -, rfl⟩ | ⟨a, v, -, -, -, -, rfl⟩ :=
    hostMove_cases h
  · cases a with
    | true => exact .inr (.inr rfl)
    | false => exact .inl rfl
  · exact .inl rfl
  · exact .inr (.inl rfl)
  · rw [writeRegister_eq]
    exact .inl rfl
  · exact .inl rfl

theorem step_clears_ovr {s t : State} (h : step s = .next t) (hs : s.ovr = true) (ht : t.ovr = false) :
    (∃ w, s.turn = .completion w ∧ decode w = .ok .reset) ∨ ∃ rest, s.turn = .outside (.rst true) rest := by
  have hne : t.ovr ≠ s.ovr := by simp [hs, ht]
  obtain ⟨w, hturn, he⟩ | ⟨m, rest, hturn, he⟩ | ⟨-, he⟩ := step_cases s
  · exact .inl ⟨w, hturn, (completeWord_ovr (he.symm.trans h)).resolve_left hne⟩
  · obtain hovr | hovr | rfl := hostMove_ovr (he.symm.trans h)
    · exact absurd hovr hne
    · cases hovr.symm.trans ht
    · exact .inr ⟨rest, hturn⟩
  · obtain rfl := Host.Outcome.next.inj (he.symm.trans h)
    exact absurd rfl hne

/-- Settles O9: the two ports while BUSY, then the frame of a step inside the window, then OVR. -/
theorem writesWhileBusyAreDropped : Obligations.WritesWhileBusyAreDropped :=
  ⟨fun _ _ v hb hr h4 hlt => ⟨hostMove_writeReg_busy hb hr h4 hlt v, hostMove_readReg hr h4 hlt⟩,
    fun _ _ v hb hr ha => ⟨hostMove_writeMem_busy hb hr ha v, hostMove_readMem hr ha⟩,
    fun _ _ => step_sameInWindow, fun _ _ => step_clears_ovr⟩

end Sys2Proof.Machine
end

section
/-! ### Reset and NOP (49_control.md R290, R291; 70_reset_and_hazards.md R340 to R342) -/

namespace Sys2Proof.Machine

/-! #### The reset values (R342) -/

theorem atResetValues_powerOn (cfg : Config) (mem : Memory) (host : List HostEvent) :
    AtResetValues (State.powerOn cfg mem host) := by
  refine ⟨rfl, rfl, rfl, rfl, rfl, rfl, rfl, rfl, BitVec.eq_of_toNat_eq (status_toNat _), rfl,
    FreqTable.get_replicate 0, rfl, rfl, rfl, rfl, rfl, rfl, rfl, fun c => ?_,
    congrArg (BitVec.ofNat 9) Codebook.count_emptyCodebook, rfl, rfl, rfl, rfl, rfl, rfl, rfl⟩
  rw [State.powerOn_codebook, Codebook.get_emptyCodebook]
  exact ⟨rfl, rfl, rfl⟩

/-- The model's own fields, which a reset keeps, are no items of the reset table. -/
theorem atResetValues_resetBlock (s : State) : AtResetValues s.resetBlock :=
  atResetValues_powerOn s.cfg s.mem s.host

/-- Settles O17: State.reset is a power-on. -/
theorem resetStateHasTheResetValues : Obligations.ResetStateHasTheResetValues :=
  ⟨atResetValues_powerOn _ _ _, fun cfg mem host => ⟨atResetValues_powerOn cfg mem host, rfl, rfl⟩⟩

/-- Settles O15: asserting rst resets the block, and releasing it is the change of the level. -/
theorem resetInputClearsTheBlock : Obligations.ResetInputClearsTheBlock :=
  ⟨fun s => ⟨s.setReset true, rfl, atResetValues_resetBlock s, rfl, rfl, rfl, rfl, rfl⟩, fun _ => rfl⟩

/-- A power-on with a canonical MEM_INIT inside MEM meets the invariant (R341, R342). -/
theorem inv_powerOn {cfg : Config} {mem : Memory} (host : List HostEvent) (hwf : mem.wf = true)
    (hin : ∀ c ∈ mem, c.1 < cfg.memBytes) : (State.powerOn cfg mem host).Inv where
  mem := ⟨hwf, hin⟩
  queue := queueOk_of_nil rfl
  arena := arenaOk_empty rfl rfl
  codebook := CbEntry.ok_empty
  packer := ⟨Nat.zero_le _, Nat.zero_le _⟩
  reader := ⟨Nat.zero_le _, Nat.zero_le _⟩
  control := ⟨nofun, nofun⟩

/-- Settles O58: the empty MEM of State.reset is canonical and lists no address. -/
theorem resetMeetsTheInvariant : Obligations.ResetMeetsTheInvariant :=
  ⟨inv_powerOn [] rfl nofun, fun _ _ host hwf hin => inv_powerOn host hwf hin⟩

/-! #### RESET and NOP -/

/-- The row of RESET has no operand, so a non-zero field fails the field check (30_encoding.md R84). -/
theorem not_legalFields_of_reset {w : Word} (ho : wordOpc w = 0xFF) (h : wordA w ≠ 0 ∨ wordN w ≠ 0) :
    ¬ legalFields w := by
  rintro ⟨hA, hN, -⟩
  rw [ho] at hA hN
  rcases h with h | h
  · exact h (hA (by decide))
  · exact h (hN (by decide))

/-- Settles O16: the command is the reset of the block, and a word with a non-zero field is no command. -/
theorem resetCommandClearsTheBlock : Obligations.ResetCommandClearsTheBlock := by
  refine ⟨rfl, fun s => ?_, fun s w ht ho hf => step_of_illegal ht fun i hi => ?_⟩
  · exact ⟨s.resetBlock.complete .ok, rfl, atResetValues_resetBlock s, rfl, fun _ => rfl, rfl, rfl, rfl, rfl, rfl⟩
  · exact not_legalFields_of_reset ho hf (definedOpcode_and_legalFields_of_decode hi).2

/-- Settles O18: NOP is the end of a command with OK and nothing before it. -/
theorem nopClearsErr : Obligations.NopClearsErr :=
  ⟨rfl, fun s => ⟨s.complete .ok, rfl, rfl, fun _ => rfl⟩⟩

end Sys2Proof.Machine
end
